-- ==== Sys2Proof/Word.lean ====
section
/-!
DEFINITION. The data units of the spec (00_scope.md R12) and the four access widths (20_memory.md R49).
-/

namespace Sys2Proof

/-- A byte is 8 bits (00_scope.md R12). -/
abbrev Byte := BitVec 8

/-- A dword is 4 bytes (R12): the width of a general register (R17) and of a physical address (R34). -/
abbrev Dword := BitVec 32

/-- A quadword is 8 bytes (R12): the width of a model specific register (R30) and of the data bus (R57). -/
abbrev Qword := BitVec 64

/-- The width of a logical data operand (20_memory.md R49). -/
inductive Width where
  | byte
  | word
  | dword
  | qword
deriving DecidableEq, Repr

/-- The number of bytes of an operand of this width (R12). -/
def Width.bytes : Width → Nat
  | .byte => 1
  | .word => 2
  | .dword => 4
  | .qword => 8

end Sys2Proof
end

