-- ==== Sys2Proof/Config.lean ====
section
/-!
DEFINITION. What an implementation fixes (00_scope.md R6) and the free values: constants with no body, of
which nothing can be proved but that they are values.
-/

namespace Sys2Proof

/-- The kinds of bus cycle a machine check could record (10_state.md R26, 20_memory.md R55). -/
inductive CycleKind where
  | memoryRead
  | memoryWrite
  | ioRead
  | ioWrite
  | specialCycle
deriving DecidableEq, Repr

/-- The eight pipeline stages, in order (70_reset_and_hazards.md R125). Timing: no rule reads them. -/
inductive PipelineStage where
  | pf
  | d1
  | d2
  | ex
  | x1
  | x2
  | wf
  | er
deriving DecidableEq, Repr

namespace Config

/-- RESET_PC, an open parameter (00_scope.md R6, D26).
DESIGN CHOICE, unsafe: zero (log 1). -/
def resetPc : Dword := 0

/-- What a byte of memory or I/O space that nothing has written reads as; the spec leaves it to the
platform (10_state.md R44). DESIGN CHOICE, unsafe: zero (log 7). -/
def unlistedByte : Byte := 0

/-- The size of the memory space in bytes (10_state.md R34). -/
def memorySize : Nat := 4294967296

/-- The size of the I/O space in bytes (10_state.md R35). -/
def ioSize : Nat := 65536

/-- Sets of each cache (20_memory.md R60). -/
def cacheSets : Nat := 128

/-- Lines of each set (20_memory.md R60). -/
def cacheWays : Nat := 2

/-- Bytes of a line (20_memory.md R60). -/
def lineBytes : Nat := 32

/-- Ways of each of the three TLBs (10_state.md R41). -/
def tlbWays : Nat := 4

/-- Sets of the data TLB for 4 Kbyte pages: 64 entries, 4-way (10_state.md R41, 00_scope.md R6). -/
def dataTlb4kSets : Nat := 16

/-- Sets of the data TLB for 4 Mbyte pages: 8 entries, 4-way (10_state.md R41, 00_scope.md R6). -/
def dataTlb4mSets : Nat := 2

/-- Sets of the code TLB: 32 entries, 4-way (10_state.md R41, 00_scope.md R6). -/
def codeTlbSets : Nat := 8

/-- The stages an FPU instruction passes through (70_reset_and_hazards.md R125). -/
def fpuPipeline : List PipelineStage := [.pf, .d1, .d2, .ex, .x1, .x2, .wf, .er]

/-- The stages an integer instruction passes through: the first five (70_reset_and_hazards.md R125). -/
def integerPipeline : List PipelineStage := fpuPipeline.take 5

/-- The free values, one for each draw: the `n`-th draw of a run whose script is used up
(00_scope.md R11 `draw`, log 14). No body: nothing is known of any value. -/
opaque free : Nat → Nat

/-- A permutation of the 64-bit values, of which nothing more is known (log 31). -/
opaque cycleTypeCoding : Equiv.Perm Qword

/-- The code that MSR 01H holds for a kind of cycle; the spec gives no encoding, and only that a reading tells the kinds
apart (10_state.md R26). Every choice of five different codes is some permutation's (log 31). -/
def cycleTypeCode (k : CycleKind) : Qword :=
  cycleTypeCoding (match k with
    | .memoryRead => 0
    | .memoryWrite => 1
    | .ioRead => 2
    | .ioWrite => 3
    | .specialCycle => 4)

/-- Whether parity is odd; the spec does not say (10_state.md R40, 91_not_in_source.md N14, log 16). -/
opaque parityIsOdd : Bool

/-- Which set of a TLB with this many sets a page uses, before it is reduced to the number of sets; the
spec gives the geometry only (10_state.md R41, log 6). -/
opaque tlbIndex : Nat → Nat → Nat

end Config

end Sys2Proof
end

