-- ==== Sys2Proof/Syntax.lean ====
section
/-!
DEFINITION. The instruction set: one constructor per row of spec/opcode_table.json. No instruction has an
explicit operand (30_encoding.md R91), so no constructor has an argument.
-/

namespace Sys2Proof

/-- The four instructions the spec names (30_encoding.md R89, R92). -/
inductive Instr where
  /-- INVD: invalidate both caches with no writeback (41_cache_control.md R98). -/
  | invd
  /-- WBINVD: write modified lines back, then invalidate both caches (41_cache_control.md R99). -/
  | wbinvd
  /-- WRMSR: write the model specific register ECX from EDX:EAX (40_msr_access.md R97). -/
  | wrmsr
  /-- RDMSR: read the model specific register ECX into EDX:EAX (40_msr_access.md R96). -/
  | rdmsr
deriving DecidableEq, Repr

end Sys2Proof
end

