-- ==== Sys2Proof/Machine/State.lean ====
section
/-!
DEFINITION. The state of the machine as plain data, everything 10_state.md R15 lists, the parameters a launch
gives (00_scope.md R6), the moves of the other agents (60_exceptions.md R105), the state after RESET (R44),
and the reasons a step can stop (R103).
-/

namespace Sys2Proof.Machine

/-! ### Names -/

/-- The eight general registers (10_state.md R17). -/
inductive Reg where
  | eax
  | ecx
  | edx
  | ebx
  | esp
  | ebp
  | esi
  | edi
deriving DecidableEq, Repr

/-- The three model specific registers (10_state.md R24). -/
inductive MsrId where
  /-- 00H, Machine Check Address (R25). -/
  | machineCheckAddress
  /-- 01H, Machine Check Type (R26). -/
  | machineCheckType
  /-- 0EH, Test Register 12 (R27). -/
  | testRegister12
deriving DecidableEq, Repr

/-- The two on-chip caches (20_memory.md R60). -/
inductive CacheName where
  | data
  | code
deriving DecidableEq, Repr

/-- The two lines of a set (10_state.md R37). -/
inductive Way where
  | zero
  | one
deriving DecidableEq, Repr

/-- The four states of a data-cache line (20_memory.md R70). -/
inductive Mesi where
  | M
  | E
  | S
  | I
deriving DecidableEq, Repr

/-- The states of a data-cache line that is present; a line in state I is one the cache does not list. -/
inductive DataState where
  | M
  | E
  | S
deriving DecidableEq, Repr

/-- The only state of a code-cache line that is present: the code cache supports S and I only, so it needs one
state bit (10_state.md R38, 20_memory.md R72). -/
inductive CodeState where
  | S
deriving DecidableEq, Repr

/-- The special bus cycles (20_memory.md R77). -/
inductive SpecialCycle where
  | flushAcknowledge
  | writeback
  | flush
deriving DecidableEq, Repr

/-- The two page sizes (10_state.md R36). -/
inductive PageSize where
  | kb4
  | mb4
deriving DecidableEq, Repr

/-! ### The caches, the TLBs, the floating-point unit -/

/-- A line of a cache that is not in state I: its place, its tag, its state and its 32 bytes
(10_state.md R37, R38). -/
structure CacheLine (σ : Type) where
  set : BitVec 7
  way : Way
  tag : BitVec 20
  state : σ
  data : Vector Byte 32
deriving DecidableEq, Repr

/-- A cache: the lines not in state I, in the order of their places, and the LRU bit of each of the 128 sets,
which names the line used less recently (10_state.md R37, R38, R39). What a line in state I holds cannot be
observed (41_cache_control.md R98) and is not kept. -/
structure Cache (σ : Type) where
  lines : List (CacheLine σ)
  lru : BitVec 128
deriving DecidableEq, Repr

/-- The PWT and PCD bits of a page (10_state.md R31). -/
structure PageAttr where
  pwt : Bool
  pcd : Bool
deriving DecidableEq, Repr

/-- A TLB entry for pages whose number has `w` bits: its place, its tag part (the linear page) and its data
part (the physical page and the two cache-control bits) (10_state.md R41, log 6). -/
structure TlbEntry (w : Nat) where
  set : Nat
  way : Nat
  page : BitVec w
  frame : BitVec w
  attr : PageAttr
deriving DecidableEq, Repr

/-- A TLB of `sets` sets: the entries it holds and the 3 replacement bits of each set (10_state.md R41). -/
structure Tlb (sets w : Nat) where
  entries : List (TlbEntry w)
  replace : Vector (BitVec 3) sets
deriving DecidableEq, Repr

/-- The three TLBs (10_state.md R41): data 4 Kbyte pages 64 entries, data 4 Mbyte pages 8 entries, code 32
entries. -/
structure Tlbs where
  data4k : Tlb Config.dataTlb4kSets 20
  data4m : Tlb Config.dataTlb4mSets 10
  code : Tlb Config.codeTlbSets 20
deriving DecidableEq, Repr

/-- The floating-point state the spec names (10_state.md R32); no instruction in scope touches it.
PRESUMED, unsafe: number and widths are the family's (log 5). -/
structure Fpu where
  regs : Vector (BitVec 80) 8
  statusWord : BitVec 16
deriving DecidableEq, Repr

/-! ### What the launch gives -/

/-- A range of byte addresses. -/
structure AddrRange where
  first : Nat
  count : Nat
deriving DecidableEq, Repr

/-- A page whose entry software has written: any address in it, its size and its two cache-control bits
(10_state.md R31). -/
structure PageEntry where
  base : Dword
  size : PageSize
  attr : PageAttr
deriving DecidableEq, Repr

/-- The open parameters of 00_scope.md R6, as data, so that a claim about every state is a claim about every
value of them. -/
structure Platform where
  /-- MSR_RESERVED(00H) (10_state.md R28). -/
  reservedAddress : Qword
  /-- MSR_RESERVED(01H) (R28). -/
  reservedType : Qword
  /-- MSR_RESERVED(0EH) (R28). -/
  reservedTr12 : Qword
  /-- END_PC (70_reset_and_hazards.md R129); absent where the launch gives none. -/
  endPc : Option Dword
  /-- Where POPULATED is false (20_memory.md R48). -/
  unpopulated : List AddrRange
  /-- Where the launch says CODE_RANGE is true (20_memory.md R87). -/
  codeRanges : List AddrRange
  /-- PAGE_ATTR: the first page of the list that holds the address decides (10_state.md R31).
  DESIGN CHOICE, unsafe: the entry written last decides alone (log 10). -/
  pages : List PageEntry
  /-- PAGE_ATTR of an address in no page of the list. -/
  defaultAttr : PageAttr
deriving DecidableEq, Repr

/-! ### Events and moves -/

/-- What is seen on the bus (20_memory.md R55, R56, R66, R77): for a memory cycle the lines A31-A3, the byte
enables (bit i is 1 where BEi# is asserted), the PWT and PCD pins and the bytes moved. -/
inductive BusEvent where
  | memRead (quad : BitVec 29) (enables : BitVec 8) (attr : PageAttr) (bytes : List Byte)
  | memWrite (quad : BitVec 29) (enables : BitVec 8) (attr : PageAttr) (bytes : List Byte)
  | ioRead (quad : BitVec 29) (enables : BitVec 8) (bytes : List Byte)
  | ioWrite (quad : BitVec 29) (enables : BitVec 8) (bytes : List Byte)
  | special (cycle : SpecialCycle)
  | inquire (line : BitVec 27) (isWrite : Bool)
  | masterRead (first : Dword) (bytes : List Byte)
  | masterWrite (first : Dword) (bytes : List Byte)
deriving DecidableEq, Repr

/-- The moves of another bus master (60_exceptions.md R105, R113). -/
inductive MasterMove where
  /-- Read `count` bytes of memory in one bus cycle. -/
  | read (first : Dword) (count : Nat)
  /-- Write these bytes to memory in one bus cycle. -/
  | write (first : Dword) (bytes : List Byte)
  /-- The inquire cycle for a read at this line (20_memory.md R75). -/
  | inquireRead (line : BitVec 27)
  /-- The inquire cycle for a write at this line (20_memory.md R76). -/
  | inquireWrite (line : BitVec 27)
deriving DecidableEq, Repr

/-- The moves that can come between two instructions (60_exceptions.md R105, R106). -/
inductive Move where
  /-- The processor executes one instruction (30_encoding.md R130). -/
  | processor
  /-- External hardware asserts FLUSH# (20_memory.md R82). -/
  | assertFlush
  /-- Another bus master moves. -/
  | master (move : MasterMove)
  /-- A valid line is replaced with no fill (20_memory.md R73, D15). -/
  | replaceLine (cache : CacheName) (set : BitVec 7) (way : Way)
  /-- The entry of the page that holds this address is written: its PWT and PCD bits change (R105). -/
  | setPage (base : Dword) (size : PageSize) (entry : Dword)
  /-- Both CR0.CD and CR0.NW are set to this value in one step (70_reset_and_hazards.md R118). -/
  | setCacheBits (value : Bool)
deriving DecidableEq, Repr

/-! ### The state -/

/-- The state of the machine (10_state.md R15). -/
structure State where
  /-- The general registers `x[0]` to `x[7]` (R17). -/
  regs : Vector Dword 8
  /-- The physical address of the current instruction (R19). -/
  pc : Dword
  /-- CR0: CD is bit 30, NW is bit 29 (R21, R23). -/
  cr0 : Dword
  /-- The current privilege level (60_exceptions.md R110). -/
  cpl : BitVec 2
  /-- MSR 00H (R25). -/
  mcAddress : Qword
  /-- MSR 01H (R26). -/
  mcType : Qword
  /-- MSR 0EH (R27). -/
  tr12 : Qword
  /-- The floating-point registers and Status Word (R32). -/
  fpu : Fpu
  /-- Physical memory (R34): bytes by address, in canonical form. -/
  mem : List Host.Cell
  /-- I/O space (R35): bytes by I/O address, in canonical form. -/
  io : List Host.Cell
  /-- The data cache (R37). -/
  dc : Cache DataState
  /-- The code cache (R38). -/
  cc : Cache CodeState
  /-- The translation lookaside buffers (R41). -/
  tlbs : Tlbs
  /-- The bus events so far, the newest first (20_memory.md R55, R77). -/
  history : List BusEvent
  /-- The addresses this run has fetched instructions from, without repeats: program text (20_memory.md R87,
  log 11). -/
  fetched : List Nat
  /-- The moves to come, the next first; when it is empty the processor moves (log 19). -/
  schedule : List Move
  /-- The other master's moves at the coming points inside an instruction, one list a point (R106, log 19). -/
  between : List (List MasterMove)
  /-- The values of the next draws, where a launch fixes them (log 14). -/
  script : List Nat
  /-- How many draws have been made (log 14). -/
  drawCount : Nat
  /-- The open parameters (00_scope.md R6). -/
  platform : Platform
deriving DecidableEq, Repr

/-! ### Reset -/

/-- The platform the model's reset state stands on: every MSR bit reserved (40_msr_access.md R96 (e)), no
END_PC, no hole in memory, no program text, every page cacheable. DESIGN CHOICE (log 8 to log 12). -/
def Platform.reset : Platform where
  reservedAddress := BitVec.allOnes 64
  reservedType := BitVec.allOnes 64
  reservedTr12 := BitVec.allOnes 64
  endPc := none
  unpopulated := []
  codeRanges := []
  pages := []
  defaultAttr := ⟨false, false⟩

/-- A cache in which every line is in state I (10_state.md R44). -/
def Cache.empty (σ : Type) : Cache σ where
  lines := []
  lru := 0

/-- A TLB that holds no entry (10_state.md R44). -/
def Tlb.empty (sets w : Nat) : Tlb sets w where
  entries := []
  replace := Vector.replicate sets 0

/-- The state right after RESET (10_state.md R44, 70_reset_and_hazards.md R116, R117): CD = NW = 1, CPL = 0,
every line of both caches I, the TLBs empty. Every other value is the model's (log 1 to log 12, 14, 19, 22,
32, 36). -/
def State.reset : State where
  regs := Vector.replicate 8 0
  pc := Config.resetPc
  cr0 := 0x60000000
  cpl := 0
  mcAddress := 0
  mcType := 0
  tr12 := 0
  fpu := ⟨Vector.replicate 8 0, 0⟩
  mem := []
  io := []
  dc := Cache.empty DataState
  cc := Cache.empty CodeState
  tlbs := ⟨Tlb.empty _ _, Tlb.empty _ _, Tlb.empty _ _⟩
  history := []
  fetched := []
  schedule := []
  between := []
  script := []
  drawCount := 0
  platform := Platform.reset

/-! ### Why a step stops (60_exceptions.md R103) -/

/-- The run has gone wrong (00_scope.md R11). -/
inductive Fault where
  /-- RDMSR or WRMSR with a number other than 00H, 01H, 0EH in ECX: raised by execRdmsr and execWrmsr
  (10_state.md R29). Safe: the spec claims nothing of the chip here. -/
  | msrUndefinedNumber (number : Dword)
  /-- WRMSR with a 1 in a reserved bit: raised by execWrmsr (10_state.md R28). Safe. -/
  | msrReservedBitWritten (bits : Qword)
  /-- A bus cycle to an address that holds no memory is never answered: the spec's `stuck`, raised by
  busRead and busWrite (20_memory.md R48). Safe. -/
  | busCycleNotAnswered (address : Nat)
  /-- The machine-check exception, with what it left in MSR 00H and MSR 01H: raised by raiseMachineCheck, which
  no step calls (60_exceptions.md R101, R102). Leaving it out of a step is unsafe (log 16). -/
  | machineCheck (address type : Qword)
deriving DecidableEq, Repr

/-- The model gives the form no meaning (00_scope.md R11); every one is safe. -/
inductive Refusal where
  /-- An instruction whose arm of exec has no meaning yet; no arm is left. -/
  | notModelled (mnemonic : String)
  /-- One of the four instructions at a privilege level other than 0: raised by each meaning
  (60_exceptions.md R110). -/
  | privilegeNotModelled
  /-- WRMSR to 00H or 01H: raised by execWrmsr (40_msr_access.md R97). -/
  | wrmsrToMachineCheckRegister
  /-- WRMSR that would change a defined bit of TR12: raised by execWrmsr (40_msr_access.md R97). -/
  | tr12EffectNotInSource
  /-- CR0.CD and CR0.NW differ: raised by step and by the data accesses (10_state.md R22). -/
  | cr0ModeNotInSource
  /-- CD = 1 with a valid line, on a write hit or an inquire cycle: raised by memWrite and the inquire cycles
  (20_memory.md R64 (d)). -/
  | disabledModeWithValidLines
  /-- A store of the processor to program text or to a line of the code cache: raised by memWrite
  (20_memory.md R87). -/
  | storeToCode
  /-- A data operand that runs past the top of its address space: raised by memRead, memWrite, ioRead and
  ioWrite (20_memory.md R78). -/
  | addressWrap
  /-- An instruction or the pc after it would lie past the top of memory: raised by fetchInstr
  (10_state.md R19). -/
  | pcWrap
  /-- Two bytes that are no row of the opcode table: raised by fetchInstr (30_encoding.md R93). -/
  | notInSpec (first second : Byte)
  /-- pc = END_PC: the run is over, which is no failure: raised by fetchInstr (70_reset_and_hazards.md R129). -/
  | runOver
  /-- A scheduled access of the other master that one bus cycle cannot carry: raised by masterMove
  (60_exceptions.md R105, log 37). -/
  | notABusCycle
  /-- An I/O access of 64 bits: raised by ioRead and ioWrite (20_memory.md R49). -/
  | qwordIo
deriving DecidableEq, Repr

end Sys2Proof.Machine
end

