-- ==== Sys2Proof/WellFormed.lean ====
section
/-!
DEFINITION. The checks on terms that a type alone does not make: an instruction's fields (none, R91), the
widths I/O space admits (R49), a run of bytes that one bus cycle can carry (R55), an operand that ends
inside the memory space (R78).
-/

namespace Sys2Proof

/-- An instruction is well formed when every field is in its range; no instruction has a field
(30_encoding.md R90, R91), so every term is. -/
def Instr.wf : Instr → Bool
  | .invd => true
  | .wbinvd => true
  | .wrmsr => true
  | .rdmsr => true

/-- I/O space is accessible in 8-, 16- and 32-bit quantities, not 64 (20_memory.md R49, 10_state.md R35). -/
def Width.ioWf : Width → Bool
  | .byte => true
  | .word => true
  | .dword => true
  | .qword => false

/-- The bytes `first .. first + count - 1` are a run that one bus cycle can carry: at least one byte, all
inside one aligned quadword (20_memory.md R55). -/
def busRunWf (first count : Nat) : Bool :=
  decide (1 ≤ count) && decide (first % 8 + count ≤ 8)

/-- An operand of `count` bytes at `first` ends inside the memory space (20_memory.md R78, D25). -/
def operandWf (first count : Nat) : Bool :=
  decide (first + count ≤ 4294967296)

end Sys2Proof
end

