-- ==== Sys2Proof/Machine/Ops.lean ====
section
/-!
DEFINITION. The named operations over registers, memory, the draws and the bus, and the machine-check
exception.
-/

namespace Sys2Proof.Machine

/-- An operation that answers a value, a fault or a refusal. -/
abbrev Result (α : Type) := Host.Outcome α Fault Refusal

/-- Go on with the value an operation answers; a fault or a refusal ends it. -/
def andThen {α β : Type} (r : Result α) (f : α → Result β) : Result β :=
  match r with
  | .next a => f a
  | .fault x => .fault x
  | .refused x => .refused x

/-! ### General registers and the pc -/

/-- The number of a general register (10_state.md R17). -/
def Reg.index : Reg → Fin 8
  | .eax => 0
  | .ecx => 1
  | .edx => 2
  | .ebx => 3
  | .esp => 4
  | .ebp => 5
  | .esi => 6
  | .edi => 7

/-- Read a general register, all 32 bits (10_state.md R17; no read faults, log 2). -/
def State.reg (s : State) (r : Reg) : Dword :=
  s.regs[r.index.val]

/-- Write a general register, all 32 bits (10_state.md R17). -/
def State.setReg (s : State) (r : Reg) (v : Dword) : State :=
  { s with regs := s.regs.set r.index.val v }

/-- Move the pc past an instruction of two bytes (10_state.md R19). -/
def State.advance (s : State) : State :=
  { s with pc := s.pc + 2 }

/-! ### CR0 -/

/-- CR0.CD, bit 30 (10_state.md R21, R23). -/
def State.cd (s : State) : Bool :=
  s.cr0.getLsbD 30

/-- CR0.NW, bit 29 (10_state.md R21, R23). -/
def State.nw (s : State) : Bool :=
  s.cr0.getLsbD 29

/-- The cache mode is one the source describes: CD = NW (10_state.md R22). -/
def State.modeInSource (s : State) : Bool :=
  s.cd == s.nw

/-- Give CD and NW the same value in one step, the other bits of CR0 as they were
(70_reset_and_hazards.md R118). -/
def State.setCacheBits (s : State) (value : Bool) : State :=
  { s with cr0 := if value then s.cr0 ||| 0x60000000 else s.cr0 &&& 0x9FFFFFFF }

/-! ### Model specific registers -/

/-- `MSR[n]` (10_state.md R24). -/
def State.msr (s : State) : MsrId → Qword
  | .machineCheckAddress => s.mcAddress
  | .machineCheckType => s.mcType
  | .testRegister12 => s.tr12

/-- `MSR_RESERVED(n)` (10_state.md R28). -/
def Platform.msrReserved (p : Platform) : MsrId → Qword
  | .machineCheckAddress => p.reservedAddress
  | .machineCheckType => p.reservedType
  | .testRegister12 => p.reservedTr12

/-! ### Draws -/

/-- The value of the next draw: from the script while it lasts, then a free value (00_scope.md R11, log 14). -/
def State.drawValue (s : State) : Nat :=
  match s.script with
  | v :: _ => v
  | [] => Config.free s.drawCount

/-- The state after a draw. -/
def State.afterDraw (s : State) : State :=
  { s with script := s.script.tail, drawCount := s.drawCount + 1 }

/-- The next draw, as one bit. -/
def State.drawBit (s : State) : Bool :=
  s.drawValue % 2 == 1

/-- Put an element at a place of a list; past the end it goes last. -/
def insertNth {α : Type} (x : α) : Nat → List α → List α
  | 0, l => x :: l
  | _ + 1, [] => [x]
  | k + 1, y :: l => y :: insertNth x k l

/-- A list in the order that a drawn number picks; every order is picked by some number. -/
def permute {α : Type} (d : Nat) : List α → List α
  | [] => []
  | x :: l => insertNth x (d % (l.length + 1)) (permute (d / (l.length + 1)) l)

/-! ### Memory: a sorted list of bytes that differ from what an unlisted byte reads as -/

/-- The byte at an address (10_state.md R34, log 7). -/
def Memory.read (m : List Host.Cell) (a : Nat) : Byte :=
  match m with
  | [] => Config.unlistedByte
  | c :: rest => if c.1 = a then c.2 else Memory.read rest a

/-- Put a cell where its address belongs. -/
def Memory.insert (c : Host.Cell) : List Host.Cell → List Host.Cell
  | [] => [c]
  | d :: rest => if c.1 < d.1 then c :: d :: rest else d :: Memory.insert c rest

/-- Write the byte at an address; writing what an unlisted byte reads as takes the entry away. -/
def Memory.write (m : List Host.Cell) (a : Nat) (b : Byte) : List Host.Cell :=
  if b = Config.unlistedByte then m.filter (fun c => c.1 != a)
  else Memory.insert (a, b) (m.filter (fun c => c.1 != a))

/-- The `count` bytes from an address on, the lowest first. -/
def Memory.readRun (m : List Host.Cell) (a count : Nat) : List Byte :=
  (List.range count).map (fun i => Memory.read m (a + i))

/-- Write bytes from an address on, the lowest first. -/
def Memory.writeRun (m : List Host.Cell) (a : Nat) : List Byte → List Host.Cell
  | [] => m
  | b :: rest => Memory.writeRun (Memory.write m a b) (a + 1) rest

/-- The canonical form: addresses strictly rising and inside the space, no entry equal to what an unlisted
address reads as. -/
abbrev Memory.wf (size : Nat) (m : List Host.Cell) : Prop :=
  m.Pairwise (fun c d => c.1 < d.1) ∧ ∀ c ∈ m, c.1 < size ∧ c.2 ≠ Config.unlistedByte

/-! ### The platform's parameters -/

/-- The range holds an address. -/
def AddrRange.holds (r : AddrRange) (a : Nat) : Bool :=
  decide (r.first ≤ a) && decide (a < r.first + r.count)

/-- `POPULATED(a)` (20_memory.md R48). -/
def State.populated (s : State) (a : Nat) : Bool :=
  !(s.platform.unpopulated.any (fun r => r.holds a))

/-- Where the program text ahead of pc ends. The pc only moves up, by 2 (10_state.md R19), so a run that meets END_PC
fetches up to it (70_reset_and_hazards.md R129); one that never meets it, END_PC being absent, passed, or an odd number
of bytes ahead, may go on to the top of memory. -/
def State.textEnd (s : State) : Nat :=
  match s.platform.endPc with
  | none => Config.memorySize
  | some e => if s.pc.toNat ≤ e.toNat ∧ (e.toNat - s.pc.toNat) % 2 = 0 then e.toNat else Config.memorySize

/-- The addresses this run has still to fetch from. -/
def State.textAhead (s : State) : AddrRange :=
  ⟨s.pc.toNat, s.textEnd - s.pc.toNat⟩

/-- `CODE_RANGE(a)`: true where the launch says so, and at every address the run fetches from: those fetched and those
ahead, which no step changes as a whole (20_memory.md R87, log 11). -/
def State.codeRange (s : State) (a : Nat) : Bool :=
  s.platform.codeRanges.any (fun r => r.holds a) || s.fetched.contains a || s.textAhead.holds a

/-- Add an address to a list of addresses, if it is not there. -/
def insertAddress (a : Nat) (l : List Nat) : List Nat :=
  if l.contains a then l else a :: l

/-- The two bytes of the instruction at an address have been fetched: they are program text from now on
(20_memory.md R87). -/
def State.markFetched (s : State) (pc : Dword) : State :=
  { s with fetched := insertAddress pc.toNat (insertAddress (pc.toNat + 1) s.fetched) }

/-- The page holds an address: they agree in every bit above the page's offset (10_state.md R36). -/
def PageEntry.holds (p : PageEntry) (a : Dword) : Bool :=
  match p.size with
  | .kb4 => p.base.extractLsb' 12 20 == a.extractLsb' 12 20
  | .mb4 => p.base.extractLsb' 22 10 == a.extractLsb' 22 10

/-- The page entry in force at an address, if software has written one (10_state.md R31). -/
def State.pageAt (s : State) (a : Dword) : Option PageEntry :=
  s.platform.pages.find? (fun p => p.holds a)

/-- `PAGE_ATTR(a)` (10_state.md R31): the bits of the entry in force, which decides alone over every other entry
(DESIGN CHOICE, unsafe, log 10; 91_not_in_source.md N11). -/
def State.pageAttr (s : State) (a : Dword) : PageAttr :=
  match s.pageAt a with
  | some p => p.attr
  | none => s.platform.defaultAttr

/-- The size of the page an address lies in (10_state.md R36). Where entries of both sizes cover the address the spec
does not say which decides (91_not_in_source.md N11), and the model takes the size of the one written last; where no
entry was written the spec gives no size, and the model takes 4 Kbytes (both DESIGN CHOICE, unsafe, log 43). -/
def State.pageSize (s : State) (a : Dword) : PageSize :=
  match s.pageAt a with
  | some p => p.size
  | none => .kb4

/-! ### Bus cycles -/

/-- An event joins the history. -/
def State.log (s : State) (e : BusEvent) : State :=
  { s with history := e :: s.history }

/-- `SpecialCycle(name)`: an event with no other effect (20_memory.md R77). -/
def State.specialCycle (s : State) (c : SpecialCycle) : State :=
  s.log (.special c)

/-- The lines A31-A3 of a cycle at an address (20_memory.md R55). -/
def quadOf (a : Dword) : BitVec 29 :=
  a.extractLsb' 3 29

/-- The byte enables of a cycle on `count` bytes at an address: bit i is 1 where BEi# is asserted
(20_memory.md R56). -/
def byteEnables (a : Dword) (count : Nat) : BitVec 8 :=
  BitVec.ofNat 8 ((2 ^ count - 1) * 2 ^ (a.toNat % 8))

/-- The low three address lines A2-A0, which logic outside the processor decodes from the byte enables (20_memory.md R47,
R58). The decode is lost (91_not_in_source.md N18); the model takes the offset of the lowest byte enabled (DESIGN
CHOICE, unsafe, log 48), and no step reads it. -/
def lowAddress (enables : BitVec 8) : Nat :=
  ((List.range 8).find? (fun i => enables.getLsbD i)).getD 0

/-- The first address of a run at which there is no memory. -/
def State.firstHole (s : State) (a count : Nat) : Option Nat :=
  ((List.range count).map (fun i => a + i)).find? (fun b => !(s.populated b))

/-- `BusRead(a, n)` (20_memory.md R55); a cycle that meets a hole is never answered (R48). -/
def busRead (a : Dword) (count : Nat) (s : State) : Result (List Byte × State) :=
  match s.firstHole a.toNat count with
  | some hole => .fault (.busCycleNotAnswered hole)
  | none =>
    let bytes := Memory.readRun s.mem a.toNat count
    .next (bytes, s.log (.memRead (quadOf a) (byteEnables a count) (s.pageAttr a) bytes))

/-- `BusWrite(a, n, v)` (20_memory.md R55); a cycle that meets a hole is never answered (R48). -/
def busWrite (a : Dword) (bytes : List Byte) (s : State) : Result State :=
  match s.firstHole a.toNat bytes.length with
  | some hole => .fault (.busCycleNotAnswered hole)
  | none =>
    .next { s.log (.memWrite (quadOf a) (byteEnables a bytes.length) (s.pageAttr a) bytes) with
      mem := Memory.writeRun s.mem a.toNat bytes }

/-! ### Taking an exception -/

/-- What the machine-check exception records: the address of the cycle in MSR 00H, its type in MSR 01H
(10_state.md R25, R26, 60_exceptions.md R101). The upper half of MSR 00H is a free value and the type's code
an open one that tells the kinds apart (log 31). -/
def recordMachineCheck (a : Dword) (kind : CycleKind) (s : State) : State :=
  { s.afterDraw with
    mcAddress := BitVec.ofNat 32 s.drawValue ++ a
    mcType := Config.cycleTypeCode kind }

/-- `raise MachineCheck(addr, type)`: terminal, since the spec gives no trap entry (60_exceptions.md R102,
R107). There is no return from an exception (R108). -/
def raiseMachineCheck (a : Dword) (kind : CycleKind) (s : State) : Result State :=
  let t := recordMachineCheck a kind s
  .fault (.machineCheck t.mcAddress t.mcType)

end Sys2Proof.Machine
end

