-- ==== Sys2Proof/Machine/Operands.lean ====
section
/-!
DEFINITION. Operands: the implicit operands of the four instructions (30_encoding.md R91), the fields of an
address, the split of a data operand (20_memory.md R50, R51) and its byte order (R53).
-/

namespace Sys2Proof.Machine

/-! ### Implicit operands -/

/-- The number of a model specific register (10_state.md R24). -/
def MsrId.number : MsrId → Dword
  | .machineCheckAddress => 0x00
  | .machineCheckType => 0x01
  | .testRegister12 => 0x0E

/-- The model specific register that a value of ECX names: all 32 bits are compared (10_state.md R29,
40_msr_access.md R96). -/
def MsrId.ofNumber (n : Dword) : Option MsrId :=
  if n = 0x00 then some .machineCheckAddress
  else if n = 0x01 then some .machineCheckType
  else if n = 0x0E then some .testRegister12
  else none

/-- EDX:EAX as one 64-bit value, EDX in bits 63:32 (10_state.md R18). -/
def State.edxEax (s : State) : Qword :=
  s.reg .edx ++ s.reg .eax

/-- Write a 64-bit value to EDX:EAX (10_state.md R18). -/
def State.setEdxEax (s : State) (v : Qword) : State :=
  (s.setReg .edx (v.extractLsb' 32 32)).setReg .eax (v.extractLsb' 0 32)

/-! ### Address fields (20_memory.md R61) -/

/-- The line address `L(a) = a[31:5]`. -/
def lineOf (a : Dword) : BitVec 27 :=
  a.extractLsb' 5 27

/-- The byte within the line, `a[4:0]`. -/
def offsetOf (a : Dword) : Nat :=
  (a.extractLsb' 0 5).toNat

/-- The set of a line address: `a[11:5]` of its bytes. -/
def lineSet (l : BitVec 27) : BitVec 7 :=
  l.extractLsb' 0 7

/-- The tag of a line address: `a[31:12]` of its bytes. -/
def lineTag (l : BitVec 27) : BitVec 20 :=
  l.extractLsb' 7 20

/-- The line address of the line with this tag in this set (41_cache_control.md R99). -/
def lineAddress (tag : BitVec 20) (set : BitVec 7) : BitVec 27 :=
  tag ++ set

/-- The address of the first byte of quadword `q` of a line: a line holds bytes `32 L .. 32 L + 31`. -/
def lineQuad (l : BitVec 27) (q : Nat) : Dword :=
  (l ++ (0 : BitVec 5)) + BitVec.ofNat 32 (8 * q)

/-- The PWT and PCD bits of a 32-bit page-table or page-directory entry: bit 3 and bit 4 (10_state.md R31). -/
def pageAttrOf (entry : Dword) : PageAttr :=
  ⟨entry.getLsbD 3, entry.getLsbD 4⟩

/-! ### Data operands -/

/-- A physical unit of this width begins at an address evenly divisible by its length (20_memory.md R47,
00_scope.md R12); a logical operand may begin anywhere. -/
def physicalUnit (a : Nat) (w : Width) : Bool :=
  decide (a % w.bytes = 0)

/-- The number of the 32-bit quantity of I/O space that holds an I/O address (20_memory.md R46). -/
def ioUnit (p : BitVec 16) : BitVec 14 :=
  p.extractLsb' 2 14

/-- The boundary that makes an operand of this width misaligned when it crosses it (20_memory.md R50). -/
def splitUnit : Width → Nat
  | .byte => 4
  | .word => 4
  | .dword => 4
  | .qword => 8

/-- `Misaligned(a, n)` (20_memory.md R50). -/
def misaligned (a : Nat) : Width → Bool
  | .byte => false
  | .word => decide (a % 4 + 2 > 4)
  | .dword => decide (a % 4 + 4 > 4)
  | .qword => decide (a % 8 ≠ 0)

/-- `Split(a, n)`: the parts of an operand in the order they move, the upper part first (20_memory.md R51). -/
def split (a : Nat) (w : Width) : List (Nat × Nat) :=
  if misaligned a w then
    let b := splitUnit w * (a / splitUnit w + 1)
    [(b, a + w.bytes - b), (a, b - a)]
  else [(a, w.bytes)]

/-- The value of bytes in address order, the first the least significant (20_memory.md R53). -/
def littleEndian : List Byte → Nat
  | [] => 0
  | b :: rest => b.toNat + 256 * littleEndian rest

/-- The low `count` bytes of a value, the least significant first (20_memory.md R53). -/
def bytesOf (v : Qword) (count : Nat) : List Byte :=
  (List.range count).map (fun i => v.extractLsb' (8 * i) 8)

/-- The linear address is the physical address (10_state.md R36, D11). -/
def translate (a : Dword) : Dword :=
  a

end Sys2Proof.Machine
end

