-- ==== Sys2Proof/Machine/Cache.lean ====
section
/-!
DEFINITION. The caches: hit and miss (20_memory.md R62), cacheability (R65), replacement (R74), the whole-line
transfers (R81), flushing (R82), and the TLB loads that go with a translation (10_state.md R41). `point` is what
happens at a place inside an instruction where another bus master may act (60_exceptions.md R106).
-/

namespace Sys2Proof.Machine

/-! ### Places and lookups -/

/-- The number of a line of a set. -/
def Way.number : Way → Nat
  | .zero => 0
  | .one => 1

/-- The place of a line in the order of sets and ways. -/
def CacheLine.place {σ : Type} (l : CacheLine σ) : Nat :=
  2 * l.set.toNat + l.way.number

/-- The line address of a line (41_cache_control.md R99). -/
def CacheLine.address {σ : Type} (l : CacheLine σ) : BitVec 27 :=
  lineAddress l.tag l.set

/-- The line that a line address hits: one of its set, not in state I, with its tag (20_memory.md R62). -/
def Cache.hit {σ : Type} (c : Cache σ) (line : BitVec 27) : Option (CacheLine σ) :=
  c.lines.find? (fun l => l.set == lineSet line && l.tag == lineTag line)

/-- The line at a place, if it is not in state I. -/
def Cache.lineAt {σ : Type} (c : Cache σ) (set : BitVec 7) (way : Way) : Option (CacheLine σ) :=
  c.lines.find? (fun l => l.set == set && l.way == way)

/-- The state of the data-cache line at a place (10_state.md R37). -/
def dataStateAt (c : Cache DataState) (set : BitVec 7) (way : Way) : Mesi :=
  match c.lineAt set way with
  | none => .I
  | some l =>
    match l.state with
    | .M => .M
    | .E => .E
    | .S => .S

/-- The state of the code-cache line at a place: S or I (10_state.md R38). -/
def codeStateAt (c : Cache CodeState) (set : BitVec 7) (way : Way) : Mesi :=
  match c.lineAt set way with
  | none => .I
  | some _ => .S

/-- Put a line where its place belongs in the list. -/
def insertLine {σ : Type} (l : CacheLine σ) : List (CacheLine σ) → List (CacheLine σ)
  | [] => [l]
  | x :: rest => if l.place < x.place then l :: x :: rest else x :: insertLine l rest

/-- Give the line at a place these contents. -/
def Cache.put {σ : Type} (c : Cache σ) (l : CacheLine σ) : Cache σ :=
  { c with lines := insertLine l (c.lines.filter (fun x => x.place != l.place)) }

/-- Put the line at a place in state I. -/
def Cache.drop {σ : Type} (c : Cache σ) (set : BitVec 7) (way : Way) : Cache σ :=
  { c with lines := c.lines.filter (fun x => x.place != 2 * set.toNat + way.number) }

/-- Put the line that a line address hits, if it hits, in state I. -/
def Cache.dropHit {σ : Type} (c : Cache σ) (line : BitVec 27) : Cache σ :=
  match c.hit line with
  | none => c
  | some l => c.drop l.set l.way

/-- Change the state of the line that a line address hits, if it hits. -/
def Cache.setHit {σ : Type} (c : Cache σ) (line : BitVec 27) (state : σ) : Cache σ :=
  match c.hit line with
  | none => c
  | some l => c.put { l with state := state }

/-- Put every line in state I (20_memory.md R82, 41_cache_control.md R98); the LRU bits stay (log 23). -/
def Cache.invalidate {σ : Type} (c : Cache σ) : Cache σ :=
  { c with lines := [] }

/-- Some line is in a state other than I. -/
def Cache.anyValid {σ : Type} (c : Cache σ) : Bool :=
  !c.lines.isEmpty

/-- Set the LRU bit of a set (10_state.md R39). -/
def Cache.setLru {σ : Type} (c : Cache σ) (set : BitVec 7) (value : Bool) : Cache σ :=
  { c with
    lru := if value then c.lru ||| BitVec.twoPow 128 set.toNat
      else c.lru &&& ~~~(BitVec.twoPow 128 set.toNat) }

/-- An access that hits or fills a line of the data cache updates the set's LRU bit; the source does not say to what,
so to a draw (10_state.md R39, log 21). -/
def State.touchData (s : State) (set : BitVec 7) : State :=
  { s.afterDraw with dc := s.dc.setLru set s.drawBit }

/-- An access that hits or fills a line of the code cache updates the set's LRU bit, to a draw (10_state.md R39, log
21). -/
def State.touchCode (s : State) (set : BitVec 7) : State :=
  { s.afterDraw with cc := s.cc.setLru set s.drawBit }

/-- The line a fill takes: one in state I if there is one (either of two, by a draw), else the one the LRU bit
names (20_memory.md R74, 10_state.md R39). -/
def Cache.victim {σ : Type} (c : Cache σ) (set : BitVec 7) (draw : Bool) : Way :=
  match c.lineAt set .zero, c.lineAt set .one with
  | none, none => if draw then .one else .zero
  | none, some _ => .zero
  | some _, none => .one
  | some _, some _ => if c.lru.getLsbD set.toNat then .one else .zero

/-! ### Bytes of a line -/

/-- `count` bytes of a line from an offset on. -/
def lineBytes (data : Vector Byte 32) (offset count : Nat) : List Byte :=
  (data.toList.drop offset).take count

/-- The byte of a line at an offset. -/
def lineByte (data : Vector Byte 32) (offset : Nat) : Byte :=
  data.toList.getD offset Config.unlistedByte

/-- Write bytes into a line from an offset on. -/
def putLineBytes (data : Vector Byte 32) (offset : Nat) : List Byte → Vector Byte 32
  | [] => data
  | b :: rest => putLineBytes (data.setIfInBounds offset b) (offset + 1) rest

/-! ### Cacheability and translation -/

/-- `Cacheable(a, ken)`; `ken` is the level of KEN#, true for 1 (20_memory.md R65, R67, R68). -/
def cacheable (s : State) (a : Dword) (ken : Bool) : Bool :=
  !s.cd && !(s.pageAttr a).pcd && !ken

/-- A translation may load an entry into its set and changes the replacement bits of the set; what it loads
where is drawn (10_state.md R41, log 6). -/
def Tlb.load {sets w : Nat} (t : Tlb sets w) (page : BitVec w) (attr : PageAttr) (draw : Nat) : Tlb sets w :=
  let set := Config.tlbIndex sets page.toNat % sets
  let way := draw / 2 % Config.tlbWays
  { entries :=
      if draw % 2 = 1 then
        ⟨set, way, page, page, attr⟩ :: t.entries.filter (fun e => !(e.set == set && e.way == way))
      else t.entries
    replace := t.replace.setIfInBounds set (BitVec.ofNat 3 (draw / 8)) }

/-- The code TLB translates the address of an instruction byte; 4 Mbyte pages are held in 4 Kbyte increments
(10_state.md R41 (c)). -/
def State.loadCodeTlb (s : State) (a : Dword) : State :=
  { s.afterDraw with
    tlbs := { s.tlbs with code := s.tlbs.code.load (a.extractLsb' 12 20) (s.pageAttr a) s.drawValue } }

/-- The data TLB of the page's size translates the address of a data reference (10_state.md R41 (a), (b)). -/
def State.loadDataTlb (s : State) (a : Dword) : State :=
  { s.afterDraw with
    tlbs :=
      match s.pageSize a with
      | .kb4 => { s.tlbs with data4k := s.tlbs.data4k.load (a.extractLsb' 12 20) (s.pageAttr a) s.drawValue }
      | .mb4 => { s.tlbs with data4m := s.tlbs.data4m.load (a.extractLsb' 22 10) (s.pageAttr a) s.drawValue } }

/-! ### Whole-line transfers (20_memory.md R81) -/

/-- The four quadwords of a line in a drawn order (20_memory.md R81, D40). -/
def quadOrder (draw : Nat) : List Nat :=
  permute draw [0, 1, 2, 3]

/-- Write these quadwords of a line to memory, one bus cycle each; other masters may act between two
(20_memory.md R81). The bytes are those the line held when its writeback began: an inquire cycle for a write that takes
the line out of the cache between two quadwords does not end the writeback, which then overwrites what that master wrote
(DESIGN CHOICE, unsafe, log 45; 60_exceptions.md R106 does not say). -/
def writeQuads (point : State → Result State) (line : BitVec 27) (data : Vector Byte 32) :
    List Nat → State → Result State
  | [], s => .next s
  | [q], s => busWrite (lineQuad line q) (lineBytes data (8 * q) 8) s
  | q :: q' :: rest, s =>
    andThen (busWrite (lineQuad line q) (lineBytes data (8 * q) 8) s) fun s =>
      andThen (point s) fun s => writeQuads point line data (q' :: rest) s

/-- Read these quadwords of a line from memory into `data`, one bus cycle each; other masters may act between
two (20_memory.md R81). -/
def readQuads (point : State → Result State) (line : BitVec 27) :
    List Nat → Vector Byte 32 → State → Result (Vector Byte 32 × State)
  | [], data, s => .next (data, s)
  | [q], data, s =>
    andThen (busRead (lineQuad line q) 8 s) fun r => .next (putLineBytes data (8 * q) r.1, r.2)
  | q :: q' :: rest, data, s =>
    andThen (busRead (lineQuad line q) 8 s) fun r =>
      andThen (point r.2) fun s => readQuads point line (q' :: rest) (putLineBytes data (8 * q) r.1) s

/-- `Writeback(L)`: the line goes to memory in four bus cycles in a drawn order; its state is the caller's
(20_memory.md R81). -/
def writeback (point : State → Result State) (l : CacheLine DataState) (s : State) : Result State :=
  writeQuads point l.address l.data (quadOrder s.drawValue) s.afterDraw

/-- `LineFill`'s transfer: the 32 bytes of a line in four bus cycles in a drawn order (20_memory.md R81). -/
def readLine (point : State → Result State) (line : BitVec 27) (s : State) :
    Result (Vector Byte 32 × State) :=
  readQuads point line (quadOrder s.drawValue) (Vector.replicate 32 Config.unlistedByte) s.afterDraw

/-- The line at a place of the data cache leaves it; a modified one is written back first
(20_memory.md R73, R74). -/
def evictData (point : State → Result State) (set : BitVec 7) (way : Way) (s : State) : Result State :=
  match s.dc.lineAt set way with
  | none => .next s
  | some l =>
    match l.state with
    | .M => andThen (writeback point l s) fun t => .next { t with dc := t.dc.drop set way }
    | .E => .next { s with dc := s.dc.drop set way }
    | .S => .next { s with dc := s.dc.drop set way }

/-- The line at a place of the code cache leaves it (20_memory.md R72). -/
def evictCode (set : BitVec 7) (way : Way) (s : State) : State :=
  { s with cc := s.cc.drop set way }

/-- `LineFill(DC, L, policy)`: the line enters in state E under the writeback policy, S under writethrough,
by a draw (20_memory.md R69, R74, R81). It is put in its place after its last quadword: an inquire cycle for it between
two quadwords misses, and it then enters in E or S, whatever another master has written to a quadword read before
(DESIGN CHOICE, unsafe, log 44; 60_exceptions.md R106 does not say). No other master acts between the last quadword of
the victim's writeback and the first quadword of the line (DESIGN CHOICE, unsafe, log 46; 70_reset_and_hazards.md R126).
-/
def fillData (point : State → Result State) (line : BitVec 27) (s : State) :
    Result (CacheLine DataState × State) :=
  let way := s.dc.victim (lineSet line) s.drawBit
  andThen (evictData point (lineSet line) way s.afterDraw) fun s =>
    andThen (readLine point line s) fun r =>
      let l : CacheLine DataState :=
        ⟨lineSet line, way, lineTag line, if r.2.drawBit then .E else .S, r.1⟩
      .next (l, State.touchData { r.2.afterDraw with dc := r.2.dc.put l } (lineSet line))

/-- `LineFill(CC, L, -)`: the line enters in state S (20_memory.md R72, R74, R81), after its last quadword: an inquire
cycle for it between two quadwords misses (DESIGN CHOICE, unsafe, log 44). -/
def fillCode (point : State → Result State) (line : BitVec 27) (s : State) :
    Result (CacheLine CodeState × State) :=
  let way := s.cc.victim (lineSet line) s.drawBit
  andThen (readLine point line (evictCode (lineSet line) way s.afterDraw)) fun r =>
    let l : CacheLine CodeState := ⟨lineSet line, way, lineTag line, .S, r.1⟩
    .next (l, State.touchCode { r.2 with cc := r.2.cc.put l } (lineSet line))

/-! ### Flushing (20_memory.md R82) -/

/-- Write the line back if it is still modified when its turn comes. -/
def writebackIfModified (point : State → Result State) (line : BitVec 27) (s : State) : Result State :=
  match s.dc.hit line with
  | none => .next s
  | some l =>
    match l.state with
    | .M => writeback point l s
    | .E => .next s
    | .S => .next s

/-- Write these lines back one after another; other masters may act between two (41_cache_control.md R99 (d)). -/
def writebackLines (point : State → Result State) : List (BitVec 27) → State → Result State
  | [], s => .next s
  | [line], s => writebackIfModified point line s
  | line :: line' :: rest, s =>
    andThen (writebackIfModified point line s) fun s =>
      andThen (point s) fun s => writebackLines point (line' :: rest) s

/-- The line addresses of the modified lines of the data cache. -/
def modifiedLines (c : Cache DataState) : List (BitVec 27) :=
  (c.lines.filter (fun l => l.state == .M)).map CacheLine.address

/-- Write back every modified line, in a drawn order among lines (20_memory.md R82, 41_cache_control.md R99). -/
def writebackAll (point : State → Result State) (s : State) : Result State :=
  writebackLines point (permute s.drawValue (modifiedLines s.dc)) s.afterDraw

/-- Put every line of both caches in state I (20_memory.md R82). -/
def State.invalidateCaches (s : State) : State :=
  { s with dc := s.dc.invalidate, cc := s.cc.invalidate }

end Sys2Proof.Machine
end

