-- ==== Sys2Proof/Machine/Snoop.lean ====
section
/-!
DEFINITION. Other bus masters: the inquire cycles (20_memory.md R75, R76), their reads and writes of memory
(60_exceptions.md R105, R113), and what they do at a place inside an instruction (R106).
-/

namespace Sys2Proof.Machine

/-- An inquire cycle is refused in disabled mode while any line of either cache is valid (20_memory.md R64 (d)). -/
def State.snoopRefused (s : State) : Bool :=
  s.cd && (s.dc.anyValid || s.cc.anyValid)

/-- After a read snoop the line's state is a draw from S and I (20_memory.md R75). -/
def State.afterReadSnoop (s : State) (line : BitVec 27) : State :=
  { s.afterDraw with dc := if s.drawBit then s.dc.setHit line .S else s.dc.dropHit line }

/-- A write snoop takes the line out of both caches, where it is still there (20_memory.md R76). -/
def State.afterWriteSnoop (s : State) (line : BitVec 27) : State :=
  { s with dc := s.dc.dropHit line, cc := s.cc.dropHit line }

/-- The inquire cycle for a read by another master: a modified line is written back; the code cache is
unchanged (20_memory.md R75). It leaves every LRU bit (DESIGN CHOICE, unsafe, log 21). -/
def inquireRead (point : State → Result State) (line : BitVec 27) (s : State) : Result State :=
  if s.snoopRefused then .refused .disabledModeWithValidLines
  else
    let s := s.log (.inquire line false)
    match s.dc.hit line with
    | none => .next s
    | some l =>
      match l.state with
      | .M => andThen (writeback point l s) fun t => .next (t.afterReadSnoop line)
      | .E => .next (s.afterReadSnoop line)
      | .S => .next (s.afterReadSnoop line)

/-- The inquire cycle for a write by another master: a modified line is written back, then the line leaves
both caches (20_memory.md R76). It leaves every LRU bit (DESIGN CHOICE, unsafe, log 21). -/
def inquireWrite (point : State → Result State) (line : BitVec 27) (s : State) : Result State :=
  if s.snoopRefused then .refused .disabledModeWithValidLines
  else
    let s := s.log (.inquire line true)
    match s.dc.hit line with
    | none => .next (s.afterWriteSnoop line)
    | some l =>
      match l.state with
      | .M => andThen (writeback point l s) fun t => .next (t.afterWriteSnoop line)
      | .E => .next (s.afterWriteSnoop line)
      | .S => .next (s.afterWriteSnoop line)

/-- A move of another bus master (60_exceptions.md R105). A read or write is one bus cycle and does nothing to the
processor by itself; at an address that holds no memory it moves nothing (log 37). -/
def masterMove (point : State → Result State) (m : MasterMove) (s : State) : Result State :=
  match m with
  | .read first count =>
    if busRunWf first.toNat count then
      match s.firstHole first.toNat count with
      | some _ => .next s
      | none => .next (s.log (.masterRead first (Memory.readRun s.mem first.toNat count)))
    else .refused .notABusCycle
  | .write first bytes =>
    if busRunWf first.toNat bytes.length then
      match s.firstHole first.toNat bytes.length with
      | some _ => .next s
      | none =>
        .next { s.log (.masterWrite first bytes) with mem := Memory.writeRun s.mem first.toNat bytes }
    else .refused .notABusCycle
  | .inquireRead line => inquireRead point line s
  | .inquireWrite line => inquireWrite point line s

/-- The moves of one point, in order; `point` is what happens between the quadwords of a writeback among them
(20_memory.md R81). -/
def masterMoves (point : State → Result State) : List MasterMove → State → Result State
  | [], s => .next s
  | m :: rest, s => andThen (masterMove point m s) fun s => masterMoves point rest s

/-- A point makes the next list of moves of `between`, and so do the points inside a writeback these moves cause. Each
point takes a list, so `between` has no more lists than `fuel` wherever a point is reached. -/
def interleaveWith : Nat → State → Result State
  | 0, s => .next s
  | fuel + 1, s =>
    match s.between with
    | [] => .next s
    | ms :: rest => masterMoves (interleaveWith fuel) ms { s with between := rest }

/-- A place inside an instruction where another bus master may act: it makes the next list of moves of `between`
(60_exceptions.md R106). -/
def interleave (s : State) : Result State :=
  interleaveWith s.between.length s

end Sys2Proof.Machine
end

