-- ==== Sys2Proof/Machine/CacheControl.lean ====
section
/-!
DEFINITION. Cache control: INVD and WBINVD (41_cache_control.md), and the flush that FLUSH# starts
(20_memory.md R82).
-/

namespace Sys2Proof.Machine

/-- INVD (41_cache_control.md R98): every line of both caches goes to I with no writeback, then the Flush special
cycle. -/
def execInvd (s : State) : Host.Outcome State Fault Refusal :=
  if s.cpl = 0 then .next (s.invalidateCaches.specialCycle .flush).advance
  else .refused .privilegeNotModelled

/-- WBINVD (41_cache_control.md R99): every modified line is written back, every line of both caches goes to I, then
the Writeback and Flush special cycles. -/
def execWbinvd (s : State) : Host.Outcome State Fault Refusal :=
  if s.cpl = 0 then
    andThen (writebackAll interleave s) fun t =>
      .next ((t.invalidateCaches.specialCycle .writeback).specialCycle .flush).advance
  else .refused .privilegeNotModelled

/-- The flush step that FLUSH# starts (20_memory.md R82): as WBINVD, with the Flush Acknowledge special cycle. Other
masters may act between its quadwords and between its lines, as inside WBINVD (DESIGN CHOICE, safe, log 42). -/
def flushPin (s : State) : Result State :=
  andThen (writebackAll interleave s) fun t => .next (t.invalidateCaches.specialCycle .flushAcknowledge)

end Sys2Proof.Machine
end

