-- ==== Sys2Proof/Machine/MsrAccess.lean ====
section
/-!
DEFINITION. Model specific register access: RDMSR and WRMSR (40_msr_access.md).
-/

namespace Sys2Proof.Machine

/-- RDMSR (40_msr_access.md R96): EDX:EAX takes `MSR[ECX]`, with a fresh draw in every reserved bit. -/
def execRdmsr (s : State) : Host.Outcome State Fault Refusal :=
  if s.cpl = 0 then
    match MsrId.ofNumber (s.reg .ecx) with
    | none => .fault (.msrUndefinedNumber (s.reg .ecx))
    | some n =>
      let reserved := s.platform.msrReserved n
      let v := (s.msr n &&& ~~~reserved) ||| (BitVec.ofNat 64 s.drawValue &&& reserved)
      .next (s.afterDraw.setEdxEax v).advance
  else .refused .privilegeNotModelled

/-- WRMSR to Test Register 12 (40_msr_access.md R97): admitted when no reserved bit is written with 1 and no defined
bit changes; the reserved bits stay as they were stored. -/
def writeTr12 (v : Qword) (s : State) : Result State :=
  let reserved := s.platform.reservedTr12
  if v &&& reserved = 0 then
    if v &&& ~~~reserved = s.tr12 &&& ~~~reserved then
      .next { s with tr12 := (v &&& ~~~reserved) ||| (s.tr12 &&& reserved) }
    else .refused .tr12EffectNotInSource
  else .fault (.msrReservedBitWritten (v &&& reserved))

/-- WRMSR (40_msr_access.md R97): the register is named by ECX, the value is EDX:EAX. -/
def execWrmsr (s : State) : Host.Outcome State Fault Refusal :=
  if s.cpl = 0 then
    match MsrId.ofNumber (s.reg .ecx) with
    | none => .fault (.msrUndefinedNumber (s.reg .ecx))
    | some .machineCheckAddress => .refused .wrmsrToMachineCheckRegister
    | some .machineCheckType => .refused .wrmsrToMachineCheckRegister
    | some .testRegister12 => andThen (writeTr12 s.edxEax s) fun s => .next s.advance
  else .refused .privilegeNotModelled

end Sys2Proof.Machine
end

