-- ==== Sys2Proof/Machine/External.lean ====
section
/-!
DEFINITION. The moves of the other agents between two instructions (60_exceptions.md R105).
-/

namespace Sys2Proof.Machine

/-- A valid line is replaced with no fill (20_memory.md R73, D15). -/
def replaceLine (cache : CacheName) (set : BitVec 7) (way : Way) (s : State) : Result State :=
  match cache with
  | .data => evictData interleave set way s
  | .code => .next (evictCode set way s)

/-- A page entry's PWT and PCD bits change: later cycles to the page carry the new ones (R105). How the bits of a
page-directory entry and of a page-table entry under it combine is open (91_not_in_source.md N11); the entry written
last decides alone (DESIGN CHOICE, unsafe, log 10). What removes a TLB entry, and when a cached translation picks the
change up, is open (10_state.md R41, R105); the move leaves every TLB entry, with the PWT and PCD it was loaded with
(DESIGN CHOICE, unsafe, log 47). -/
def State.setPage (s : State) (base : Dword) (size : PageSize) (entry : Dword) : State :=
  { s with
    platform := { s.platform with pages := ⟨base, size, pageAttrOf entry⟩ :: s.platform.pages } }

/-- The next move of the schedule, taken off it; an empty schedule is the processor's turn (log 19). -/
def nextMove (s : State) : Move × State :=
  match s.schedule with
  | [] => (.processor, s)
  | m :: rest => (m, { s with schedule := rest })

end Sys2Proof.Machine
end

