-- ==== Sys2Proof/Decode.lean ====
section
/-!
DEFINITION. The decoder (30_encoding.md R89, R90, R93, R94), total on any bytes and rejecting by name, and
the encoder written from the same table.
-/

namespace Sys2Proof

/-- Why a byte sequence decodes to no instruction. -/
inductive DecodeError where
  /-- Fewer than the two bytes of format OP2 (R90). -/
  | tooShort
  /-- The two bytes are not one of the four patterns: `refuse(not_in_spec)` (R93). -/
  | notInSpec (first second : Byte)
deriving DecidableEq, Repr

/-- Read one instruction from the front of a byte list, the byte at pc first; the rest is what follows the
instruction (R89, R92, R93). No byte before the opcode is admitted (R94). -/
def decode : List Byte → Except DecodeError (Instr × List Byte)
  | [] => .error .tooShort
  | [_] => .error .tooShort
  | escape :: opcode :: rest =>
    if escape = 0x0F then
      if opcode = 0x08 then .ok (.invd, rest)
      else if opcode = 0x09 then .ok (.wbinvd, rest)
      else if opcode = 0x30 then .ok (.wrmsr, rest)
      else if opcode = 0x32 then .ok (.rdmsr, rest)
      else .error (.notInSpec escape opcode)
    else .error (.notInSpec escape opcode)

/-- The bytes of an instruction, the byte at pc first (R89). -/
def encode : Instr → List Byte
  | .invd => [0x0F, 0x08]
  | .wbinvd => [0x0F, 0x09]
  | .wrmsr => [0x0F, 0x30]
  | .rdmsr => [0x0F, 0x32]

/-- The length of an instruction in bytes; all four have length 2 (R89). -/
def instrLength : Instr → Nat
  | .invd => 2
  | .wbinvd => 2
  | .wrmsr => 2
  | .rdmsr => 2

/-- The mnemonic of an instruction (30_encoding.md R95). -/
def mnemonic : Instr → String
  | .invd => "INVD"
  | .wbinvd => "WBINVD"
  | .wrmsr => "WRMSR"
  | .rdmsr => "RDMSR"

/-- Read one line of assembly: a mnemonic alone, letter case not significant (30_encoding.md R95). -/
def assemble (line : String) : Option Instr :=
  [Instr.invd, .wbinvd, .wrmsr, .rdmsr].find?
    (fun i => (mnemonic i).toList == line.toList.map Char.toUpper)

/-- The bytes that the opcode table's number `w` of `nbits` bits stands for: the table reads the bytes as one
number with the byte at pc in the high bits (R92, log 26); bytes the table leaves out are zero, up to the
longest instruction's two. -/
def tableBytes (nbits w : Nat) : List Byte :=
  let count := nbits / 8
  (List.range count).map (fun k => BitVec.ofNat 8 (w >>> (8 * (count - 1 - k)))) ++
    List.replicate (2 - count) 0

/-- The instruction the decoder reads from an instruction whose bits are `w`, numbered as the opcode table
numbers them. -/
def decodeTableWord (nbits w : Nat) : Option Instr :=
  match decode (tableBytes nbits w) with
  | .ok (i, _) => some i
  | .error _ => none

end Sys2Proof
end

