-- ==== Sys2Proof/Machine/Fetch.lean ====
section
/-!
DEFINITION. Fetching an instruction (20_memory.md R80, 30_encoding.md R130), and placing one where the next fetch
finds it.
-/

namespace Sys2Proof.Machine

/-- `Fetch(addr, 1)`: from the code-cache line it hits, from the line a fill brings, or from the bus; the data cache
is not looked up (20_memory.md R80). A miss with no fill leaves the set's LRU bit (DESIGN CHOICE, unsafe, log 21). -/
def fetchByte (addr : Dword) (s : State) : Result (Byte × State) :=
  let a := translate addr
  let s := s.loadCodeTlb a
  match s.cc.hit (lineOf a) with
  | some l => .next (lineByte l.data (offsetOf a), s.touchCode l.set)
  | none =>
    if cacheable s a s.drawBit then
      andThen (fillCode interleave (lineOf a) s.afterDraw) fun r =>
        .next (lineByte r.1.data (offsetOf a), r.2)
    else
      andThen (busRead a 1 s.afterDraw) fun r => .next (r.1.headD Config.unlistedByte, r.2)

/-- The fetch and decode of one step: the END_PC test, the pc_wrap test, two byte fetches in ascending order, the
decoder's verdict (30_encoding.md R130). The two addresses are then program text (20_memory.md R87). No other master
acts between the two byte fetches (DESIGN CHOICE, unsafe, log 46; 70_reset_and_hazards.md R126). -/
def fetchInstr (s : State) : Result (Instr × State) :=
  if s.platform.endPc = some s.pc then .refused .runOver
  else if s.pc.toNat + 2 ≥ Config.memorySize then .refused .pcWrap
  else
    andThen (fetchByte s.pc s) fun r0 =>
      andThen (fetchByte (s.pc + 1) r0.2) fun r1 =>
        match decode [r0.1, r1.1] with
        | .ok (i, _) => .next (i, r1.2.markFetched s.pc)
        | .error _ => .refused (.notInSpec r0.1 r1.1)

/-! ### Placing an instruction (log 27) -/

/-- The range without one address. -/
def AddrRange.without (a : Nat) (r : AddrRange) : List AddrRange :=
  if r.holds a then [⟨r.first, a - r.first⟩, ⟨a + 1, r.first + r.count - (a + 1)⟩] else [r]

/-- Memory is populated at every byte of the line of an address. -/
def populateLine (a : Dword) (s : State) : State :=
  { s with
    platform := { s.platform with
      unpopulated := (List.range 32).foldl
        (fun holes i => holes.flatMap (AddrRange.without ((lineQuad (lineOf a) 0).toNat + i)))
        s.platform.unpopulated } }

/-- Store a byte where a fetch of its address finds it: in the code-cache line it hits, else in memory. -/
def placeByte (a : Dword) (b : Byte) (s : State) : State :=
  match s.cc.hit (lineOf a) with
  | some l => { s with cc := s.cc.put { l with data := l.data.setIfInBounds (offsetOf a) b } }
  | none => populateLine a { s with mem := Memory.write s.mem a.toNat b }

/-- Store bytes where fetches from an address on find them. -/
def placeBytes (a : Dword) : List Byte → State → State
  | [], s => s
  | b :: rest, s => placeBytes (a + 1) rest (placeByte a b s)

/-- Let the very next step fetch at the pc: no other move comes first or inside it, and the run is not over. -/
def readyToFetch (s : State) : State :=
  { s with
    schedule := []
    between := []
    platform := { s.platform with
      endPc := if s.platform.endPc = some s.pc then none else s.platform.endPc } }

end Sys2Proof.Machine
end

