-- ==== Sys2Proof/Machine/Step.lean ====
section
/-!
DEFINITION. One step of the machine: the mode test, then the next agent's move (30_encoding.md R130,
60_exceptions.md R105, R106).
-/

namespace Sys2Proof.Machine

/-- The processor executes one instruction: fetch, decode, execute (30_encoding.md R130). -/
def runInstruction (s : State) : Host.Outcome State Fault Refusal :=
  andThen (fetchInstr s) fun r => exec r.1 r.2

/-- The move of one agent. -/
def performMove (m : Move) (s : State) : Host.Outcome State Fault Refusal :=
  match m with
  | .processor => runInstruction s
  | .assertFlush => flushPin s
  | .master move => masterMove interleave move s
  | .replaceLine cache set way => replaceLine cache set way s
  | .setPage base size entry => .next (s.setPage base size entry)
  | .setCacheBits value => .next (s.setCacheBits value)

/-- One step: a state whose CD and NW differ is refused (10_state.md R22), else the next move is made. -/
def step (s : State) : Host.Outcome State Fault Refusal :=
  if s.modeInSource then performMove (nextMove s).1 (nextMove s).2
  else .refused .cr0ModeNotInSource

/-- The state with an instruction of the opcode table stored where the next step fetches it (log 27). -/
def State.withFetchWord (s : State) (nbits w : Nat) : State :=
  placeBytes s.pc (tableBytes nbits w) (readyToFetch s)

end Sys2Proof.Machine
end

