-- ==== Sys2Proof/Machine/DataAccess.lean ====
section
/-!
DEFINITION. The processor's data accesses, which the spec gives in full and no instruction in scope calls:
MemRead (20_memory.md R78), MemWrite (R79), and accesses to I/O space (R71, 10_state.md R35, D23).
-/

namespace Sys2Proof.Machine

/-! ### MemRead (20_memory.md R78) -/

/-- One part of a read: from the line it hits, from the line a fill brings, or from the bus. A miss with no fill leaves
the set's LRU bit (DESIGN CHOICE, unsafe, log 21). -/
def readPart (first count : Nat) (s : State) : Result (List Byte × State) :=
  let a := translate (BitVec.ofNat 32 first)
  let s := s.loadDataTlb a
  match s.dc.hit (lineOf a) with
  | some l => .next (lineBytes l.data (offsetOf a) count, s.touchData l.set)
  | none =>
    if cacheable s a s.drawBit then
      andThen (fillData interleave (lineOf a) s.afterDraw) fun r =>
        .next (lineBytes r.1.data (offsetOf a) count, r.2)
    else busRead a count s.afterDraw

/-- The parts of a read, the upper first; another master may act between two (20_memory.md R51). The bytes come
back in address order. -/
def readParts : List (Nat × Nat) → State → Result (List Byte × State)
  | [], s => .next ([], s)
  | [p], s => readPart p.1 p.2 s
  | p :: p' :: rest, s =>
    andThen (readPart p.1 p.2 s) fun upper =>
      andThen (interleave upper.2) fun s =>
        andThen (readParts (p' :: rest) s) fun lower => .next (lower.1 ++ upper.1, lower.2)

/-- `MemRead(addr, n)`: the value, zero-extended, and the state after (20_memory.md R78). -/
def memRead (w : Width) (addr : Dword) (s : State) : Result (Qword × State) :=
  if s.modeInSource then
    if operandWf addr.toNat w.bytes then
      andThen (readParts (split addr.toNat w) s) fun r => .next (BitVec.ofNat 64 (littleEndian r.1), r.2)
    else .refused .addressWrap
  else .refused .cr0ModeNotInSource

/-! ### MemWrite (20_memory.md R79) -/

/-- Why a part of a write is refused: program text or a code-cache line (20_memory.md R87), then a hit in disabled
mode (R64 (d)). -/
def writeRefusal (s : State) (part : Nat × Nat) : Option Refusal :=
  let a := translate (BitVec.ofNat 32 part.1)
  if (s.cc.hit (lineOf a)).isSome || (List.range part.2).any (fun i => s.codeRange (part.1 + i)) then
    some .storeToCode
  else if s.cd && (s.dc.hit (lineOf a)).isSome then some .disabledModeWithValidLines
  else none

/-- One part of a write: by the state of the line it hits, or to the bus with no allocation (20_memory.md R73, R79). A
miss leaves the set's LRU bit (DESIGN CHOICE, unsafe, log 21). -/
def writePart (first : Nat) (bytes : List Byte) (s : State) : Result State :=
  let a := translate (BitVec.ofNat 32 first)
  let s := s.loadDataTlb a
  match s.dc.hit (lineOf a) with
  | none => busWrite a bytes s
  | some l =>
    let data := putLineBytes l.data (offsetOf a) bytes
    match l.state with
    | .M => .next (State.touchData { s with dc := s.dc.put { l with data := data } } l.set)
    | .E => .next (State.touchData { s with dc := s.dc.put { l with data := data, state := .M } } l.set)
    | .S =>
      andThen (busWrite a bytes s) fun t =>
        let state := if t.drawBit then DataState.E else DataState.S
        .next (State.touchData { t.afterDraw with dc := t.dc.put { l with data := data, state := state } } l.set)

/-- The parts of a write to `addr`, the upper first; another master may act between two (20_memory.md R51). -/
def writeParts (addr : Nat) (bytes : List Byte) : List (Nat × Nat) → State → Result State
  | [], s => .next s
  | [p], s => writePart p.1 ((bytes.drop (p.1 - addr)).take p.2) s
  | p :: p' :: rest, s =>
    andThen (writePart p.1 ((bytes.drop (p.1 - addr)).take p.2) s) fun s =>
      andThen (interleave s) fun s => writeParts addr bytes (p' :: rest) s

/-- `MemWrite(addr, n, v)`: no part is written if any part is refused (20_memory.md R79). -/
def memWrite (w : Width) (addr : Dword) (v : Qword) (s : State) : Result State :=
  if s.modeInSource then
    if operandWf addr.toNat w.bytes then
      match (split addr.toNat w).findSome? (writeRefusal s) with
      | some r => .refused r
      | none => writeParts addr.toNat (bytesOf v w.bytes) (split addr.toNat w) s
    else .refused .addressWrap
  else .refused .cr0ModeNotInSource

/-! ### I/O space (10_state.md R35, 20_memory.md R46, R49, R71) -/

/-- An I/O operand ends inside the I/O space. -/
def ioOperandWf (first count : Nat) : Bool :=
  decide (first + count ≤ Config.ioSize)

/-- One part of an I/O read: the platform answers any value (D23, log 32). The lines A31-A16 of the cycle are 0, since
an I/O address has 16 bits and the source says nothing of them (DESIGN CHOICE, unsafe, log 41). -/
def ioReadPart (first count : Nat) (s : State) : List Byte × State :=
  let bytes := (List.range count).map (fun i => BitVec.ofNat 8 (s.drawValue / 256 ^ i))
  let a := BitVec.ofNat 32 first
  (bytes, s.afterDraw.log (.ioRead (quadOf a) (byteEnables a count) bytes))

/-- One part of an I/O write: an event, with the lines A31-A16 at 0 (DESIGN CHOICE, unsafe, log 41), and the bytes of
I/O space it names. -/
def ioWritePart (first : Nat) (bytes : List Byte) (s : State) : State :=
  let a := BitVec.ofNat 32 first
  { s.log (.ioWrite (quadOf a) (byteEnables a bytes.length) bytes) with io := Memory.writeRun s.io first bytes }

/-- The parts of an I/O read, the upper first; another master may act between two. -/
def ioReadParts : List (Nat × Nat) → State → Result (List Byte × State)
  | [], s => .next ([], s)
  | [p], s => .next (ioReadPart p.1 p.2 s)
  | p :: p' :: rest, s =>
    let upper := ioReadPart p.1 p.2 s
    andThen (interleave upper.2) fun s =>
      andThen (ioReadParts (p' :: rest) s) fun lower => .next (lower.1 ++ upper.1, lower.2)

/-- The parts of an I/O write, the upper first; another master may act between two. -/
def ioWriteParts (port : Nat) (bytes : List Byte) : List (Nat × Nat) → State → Result State
  | [], s => .next s
  | [p], s => .next (ioWritePart p.1 ((bytes.drop (p.1 - port)).take p.2) s)
  | p :: p' :: rest, s =>
    andThen (interleave (ioWritePart p.1 ((bytes.drop (p.1 - port)).take p.2) s)) fun s =>
      ioWriteParts port bytes (p' :: rest) s

/-- Read I/O space; no cache is looked up or changed (20_memory.md R71). -/
def ioRead (w : Width) (port : BitVec 16) (s : State) : Result (Dword × State) :=
  if w.ioWf then
    if ioOperandWf port.toNat w.bytes then
      andThen (ioReadParts (split port.toNat w) s) fun r => .next (BitVec.ofNat 32 (littleEndian r.1), r.2)
    else .refused .addressWrap
  else .refused .qwordIo

/-- Write I/O space; no cache is looked up or changed (20_memory.md R71). -/
def ioWrite (w : Width) (port : BitVec 16) (v : Dword) (s : State) : Result State :=
  if w.ioWf then
    if ioOperandWf port.toNat w.bytes then
      ioWriteParts port.toNat (bytesOf (v.setWidth 64) w.bytes) (split port.toNat w) s
    else .refused .addressWrap
  else .refused .qwordIo

end Sys2Proof.Machine
end

