-- ==== Sys2Proof/Safety.lean ====
section
/-!
DEFINITION. The terms claims are stated in: the invariant of the machine, the one copy of each byte that the data
cache and memory make together, the moves of another master that a claim leaves out, and the frames.
-/

namespace Sys2Proof.Machine

/-! ### The invariant -/

/-- A cache's list is in canonical form, one line a place in the order of places, and at most one line of a set holds
a given tag (20_memory.md R62). -/
abbrev Cache.wf {σ : Type} (c : Cache σ) : Prop :=
  c.lines.Pairwise (fun x y => x.place < y.place) ∧
    c.lines.Pairwise (fun x y => ¬(x.set = y.set ∧ x.tag = y.tag))

/-- A TLB holds at most one entry in each of its `sets` times 4 places, and every entry is the identity
(10_state.md R36, R41). -/
abbrev Tlb.wf {sets w : Nat} (t : Tlb sets w) : Prop :=
  (∀ e ∈ t.entries, e.set < sets ∧ e.way < Config.tlbWays ∧ e.frame = e.page) ∧
    t.entries.Pairwise (fun x y => ¬(x.set = y.set ∧ x.way = y.way))

/-- What holds of every state a run reaches from reset. -/
structure State.Inv (s : State) : Prop where
  mem : Memory.wf Config.memorySize s.mem
  io : Memory.wf Config.ioSize s.io
  dc : s.dc.wf
  cc : s.cc.wf
  data4k : s.tlbs.data4k.wf
  data4m : s.tlbs.data4m.wf
  code : s.tlbs.code.wf

/-! ### Data cache and memory as one copy (20_memory.md R84) -/

/-- The byte a data read of an address returns: of the line that hits, else of memory (20_memory.md R78). -/
def State.view (s : State) (a : Nat) : Byte :=
  match s.dc.hit (lineOf (BitVec.ofNat 32 a)) with
  | some l => lineByte l.data (a % 32)
  | none => Memory.read s.mem a

/-- The `count` bytes that data reads return from an address on, the lowest first. -/
def State.viewRun (s : State) (a count : Nat) : List Byte :=
  (List.range count).map (fun i => s.view (a + i))

/-- The address of a byte of a line. -/
def CacheLine.byteAddress {σ : Type} (l : CacheLine σ) (offset : Nat) : Nat :=
  32 * l.address.toNat + offset

/-- A line that is not modified does not differ from memory (20_memory.md R70). -/
def State.CleanLinesAgree (s : State) : Prop :=
  ∀ l ∈ s.dc.lines, l.state ≠ .M → ∀ o, o < 32 → Memory.read s.mem (l.byteAddress o) = lineByte l.data o

/-- No byte of a modified line lies at an address that holds no memory (20_memory.md R48). -/
def State.ModifiedLinesPopulated (s : State) : Prop :=
  ∀ l ∈ s.dc.lines, l.state = .M → ∀ o, o < 32 → s.populated (l.byteAddress o) = true

/-! ### Moves a claim leaves out -/

/-- The move writes memory. -/
def MasterMove.isWrite : MasterMove → Bool
  | .read _ _ => false
  | .write _ _ => true
  | .inquireRead _ => false
  | .inquireWrite _ => false

/-- No move of another master inside the coming instructions writes memory. -/
def State.NoWriteBetween (s : State) : Prop :=
  ∀ ms ∈ s.between, ∀ m ∈ ms, m.isWrite = false

/-- The move is another master's write of memory. -/
def Move.isMasterWrite : Move → Bool
  | .processor => false
  | .assertFlush => false
  | .master m => m.isWrite
  | .replaceLine _ _ _ => false
  | .setPage _ _ _ => false
  | .setCacheBits _ => false

/-! ### Frames -/

/-- No general register changes. -/
def SameRegs (s t : State) : Prop :=
  ∀ r, t.reg r = s.reg r

/-- No control, special or exception register changes: CR0, CPL, the three model specific registers, the floating-point
registers and Status Word. -/
def SameSpecial (s t : State) : Prop :=
  t.cr0 = s.cr0 ∧ t.cpl = s.cpl ∧ (∀ n, t.msr n = s.msr n) ∧ t.fpu = s.fpu

/-- No byte of memory changes. -/
def SameMem (s t : State) : Prop :=
  ∀ a, Memory.read t.mem a = Memory.read s.mem a

/-- No byte of I/O space changes. -/
def SameIo (s t : State) : Prop :=
  ∀ a, Memory.read t.io a = Memory.read s.io a

/-- Neither cache changes. -/
def SameCaches (s t : State) : Prop :=
  t.dc = s.dc ∧ t.cc = s.cc

/-- What the launch and the other agents own does not change: the parameters and the moves to come. -/
def SameLaunch (s t : State) : Prop :=
  t.platform = s.platform ∧ t.schedule = s.schedule

/-- Every line of both caches is in state I (41_cache_control.md R98, R99). -/
def AllInvalid (t : State) : Prop :=
  ∀ set way, dataStateAt t.dc set way = .I ∧ codeStateAt t.cc set way = .I

/-- The event is a write of one quadword of a line by the processor. -/
def BusEvent.isQuadWrite : BusEvent → Bool
  | .memWrite _ enables _ bytes => enables == BitVec.allOnes 8 && bytes.length == 8
  | .memRead _ _ _ _ => false
  | .ioRead _ _ _ => false
  | .ioWrite _ _ _ => false
  | .special _ => false
  | .inquire _ _ => false
  | .masterRead _ _ => false
  | .masterWrite _ _ => false

/-- Nothing changes but the pc, memory, the caches, the history, the draws and the moves inside an instruction. -/
def SameOutside (s t : State) : Prop :=
  SameRegs s t ∧ SameSpecial s t ∧ SameIo s t ∧ SameLaunch s t ∧ t.tlbs = s.tlbs

/-- The value has these `count` bytes, the first the least significant, and nothing above them (20_memory.md R53). -/
def HasBytes (v : Qword) (count : Nat) (byte : Nat → Byte) : Prop :=
  v.toNat < 256 ^ count ∧ ∀ i, i < count → v.extractLsb' (8 * i) 8 = byte i

/-- The event of a bus read of `count` bytes of memory from an address on (20_memory.md R55, R56, R66). -/
def State.readEvent (s : State) (first count : Nat) : BusEvent :=
  .memRead (quadOf (BitVec.ofNat 32 first)) (byteEnables (BitVec.ofNat 32 first) count)
    (s.pageAttr (BitVec.ofNat 32 first)) (Memory.readRun s.mem first count)

/-- The event of a bus write of these bytes to memory from an address on (20_memory.md R55, R56, R66). -/
def State.writeEvent (s : State) (first : Nat) (bytes : List Byte) : BusEvent :=
  .memWrite (quadOf (BitVec.ofNat 32 first)) (byteEnables (BitVec.ofNat 32 first) bytes.length)
    (s.pageAttr (BitVec.ofNat 32 first)) bytes

/-- No byte of a run lies at a hole (20_memory.md R48). -/
def State.runPopulated (s : State) (first count : Nat) : Prop :=
  ∀ i, i < count → s.populated (first + i) = true

/-- Some line of either cache is not in state I (20_memory.md R64). -/
def State.anyLineValid (s : State) : Prop :=
  s.dc.lines ≠ [] ∨ s.cc.lines ≠ []

/-- No other line of the data cache changes. -/
def SameOtherLines (s t : State) (line : BitVec 27) : Prop :=
  ∀ other, other ≠ line → t.dc.hit other = s.dc.hit other

/-- No other line of the code cache changes. -/
def SameOtherCodeLines (s t : State) (line : BitVec 27) : Prop :=
  ∀ other, other ≠ line → t.cc.hit other = s.cc.hit other

/-- Memory takes the 32 bytes of a line at its addresses, and changes nowhere else (20_memory.md R81). -/
def LineInMemory (s t : State) (line : BitVec 27) (data : Vector Byte 32) : Prop :=
  ∀ a, Memory.read t.mem a = if a / 32 = line.toNat then lineByte data (a % 32) else Memory.read s.mem a

/-- The events of one line's writeback: a write of each of its four quadwords, in some order, the latest first
(20_memory.md R81). -/
def LineWrites (s : State) (line : BitVec 27) (data : Vector Byte 32) (events : List BusEvent) : Prop :=
  ∃ order : List Nat, order.Perm [0, 1, 2, 3] ∧
    events = (order.map (fun q => s.writeEvent (32 * line.toNat + 8 * q) (lineBytes data (8 * q) 8))).reverse

/-- The events of the writebacks of these lines, one line after another, the latest event first
(41_cache_control.md R99, 20_memory.md R82). -/
def LinesWritten (s : State) : List (CacheLine DataState) → List BusEvent → Prop
  | [], events => events = []
  | l :: rest, events => ∃ first later : List BusEvent,
      LineWrites s l.address l.data first ∧ LinesWritten s rest later ∧ events = later ++ first

/-- The events of the writebacks of every modified line, once each, in some order. -/
def ModifiedLinesWritten (s : State) (events : List BusEvent) : Prop :=
  ∃ order : List (CacheLine DataState), order.Perm (s.dc.lines.filter (fun l => l.state == .M)) ∧
    LinesWritten s order events

/-- The operation meets an address that holds no memory: its cycle is never answered, which the model says as this
fault (20_memory.md R48, log 35). -/
def MeetsHole {α : Type} (s : State) (answer : Result α) : Prop :=
  ∃ hole, answer = .fault (.busCycleNotAnswered hole) ∧ s.populated hole = false

/-- The line at every other place of a cache stays as it is, or stays in state I. -/
def SameOtherPlaces {σ : Type} (c d : Cache σ) (set : BitVec 7) (way : Way) : Prop :=
  ∀ set' way', ¬(set' = set ∧ way' = way) → d.lineAt set' way' = c.lineAt set' way'

/-- The line at a place of the data cache, if it was modified, is in memory, all 32 bytes, and memory changes nowhere
else (20_memory.md R73, R81). -/
def VictimInMemory (s t : State) (set : BitVec 7) (way : Way) : Prop :=
  (∀ x, s.dc.lineAt set way = some x → x.state = .M → LineInMemory s t x.address x.data) ∧
    ((∀ x, s.dc.lineAt set way = some x → x.state ≠ .M) → SameMem s t)

/-- The events of the line at a place of the data cache leaving it: those of its writeback if it was modified, else none
(20_memory.md R74). -/
def VictimWrites (s : State) (set : BitVec 7) (way : Way) (events : List BusEvent) : Prop :=
  (∀ x, s.dc.lineAt set way = some x → x.state = .M → LineWrites s x.address x.data events) ∧
    ((∀ x, s.dc.lineAt set way = some x → x.state ≠ .M) → events = [])

/-- The TLBs after the data TLB for an address's page size has translated the address, with this draw
(10_state.md R41, log 6, log 43). -/
def State.dataTlbsAfter (s : State) (a : Dword) (draw : Nat) (t : Tlbs) : Tlbs :=
  match s.pageSize a with
  | .kb4 => { t with data4k := t.data4k.load (a.extractLsb' 12 20) (s.pageAttr a) draw }
  | .mb4 => { t with data4m := t.data4m.load (a.extractLsb' 22 10) (s.pageAttr a) draw }

/-- The TLBs after the code TLB has translated an address, with this draw (10_state.md R41 (c), log 6). -/
def State.codeTlbsAfter (s : State) (a : Dword) (draw : Nat) (t : Tlbs) : Tlbs :=
  { t with code := t.code.load (a.extractLsb' 12 20) (s.pageAttr a) draw }

/-- The TLBs after the data TLBs have translated the first byte of each of these parts, with a draw for each. -/
def State.dataTlbsAfterParts (s : State) : List (Nat × Nat) → List Nat → Tlbs → Tlbs
  | p :: parts, draw :: draws, t => s.dataTlbsAfterParts parts draws (s.dataTlbsAfter (BitVec.ofNat 32 p.1) draw t)
  | [], _, t => t
  | _ :: _, [], t => t

end Sys2Proof.Machine
end

