-- ==== Sys2Proof/Certificates/Slice0/Obligations.lean ====
section
/-!
DEFINITION. The statements for the provers.
-/

open Sys2Proof Sys2Proof.Machine

/-! ### Encoding (30_encoding.md) -/

/-- R89, R93, R94 (patterns from general knowledge, as R89 marks them): the four patterns decode to their instructions,
the byte at pc first; neighbours of a pattern, the bytes in the other order and a leading prefix byte are refused. -/
def Obligations.DecodeTheFourPatterns : Prop :=
  decode [0x0F, 0x08] = .ok (.invd, []) ∧ decode [0x0F, 0x09] = .ok (.wbinvd, []) ∧
  decode [0x0F, 0x30] = .ok (.wrmsr, []) ∧ decode [0x0F, 0x32] = .ok (.rdmsr, []) ∧
  decode [0x0F, 0x31] = .error (.notInSpec 0x0F 0x31) ∧ decode [0x08, 0x0F] = .error (.notInSpec 0x08 0x0F) ∧
  decode [0x66, 0x0F, 0x08] = .error (.notInSpec 0x66 0x0F)

/-- R89 to R91, R94: a byte sequence decodes to an instruction exactly when it starts with that instruction's encoding;
the rest follows the instruction. -/
def Obligations.DecodeExactlyTheEncodings : Prop :=
  ∀ (bytes rest : List Byte) (i : Instr), decode bytes = .ok (i, rest) ↔ bytes = encode i ++ rest

/-- R92: of 16-bit table numbers, masked with FFFFH, exactly the row's match selects the row's instruction. -/
def Obligations.TableNumberSelectsItsRow : Prop :=
  ∀ (w : Nat) (i : Instr), decodeTableWord 16 w = some i ↔
    w &&& 0xFFFF = (match i with
      | .invd => 0x0F08
      | .wbinvd => 0x0F09
      | .wrmsr => 0x0F30
      | .rdmsr => 0x0F32)

/-! ### The step (30_encoding.md R130) -/

/-- R130: when it is the processor's turn in a described cache mode and the fetch reads instruction i, the step is i
executed in the state after the fetch. Away from END_PC and the top of memory, the fetch reads i when the two byte
fetches at pc answer i's encoding, each from a cache line, by a fill or from the bus; the two addresses are then program
text (the model's list of them, log 11). Where the fetch stops, the step stops the same way. -/
def Obligations.StepRunsTheDecodedInstruction : Prop :=
  ∀ s : State, s.cd = s.nw → (nextMove s).1 = .processor →
    let r := (nextMove s).2
    (∀ (i : Instr) (u : State), fetchInstr r = .next (i, u) → step s = exec i u) ∧
    (∀ (i : Instr) (b0 b1 : Byte) (u v : State), s.platform.endPc ≠ some s.pc → s.pc.toNat + 2 < 4294967296 →
      fetchByte s.pc r = .next (b0, u) → fetchByte (s.pc + 1) u = .next (b1, v) → encode i = [b0, b1] →
      step s = exec i (v.markFetched s.pc)) ∧
    (∀ x : Fault, s.platform.endPc ≠ some s.pc → s.pc.toNat + 2 < 4294967296 →
      (fetchByte s.pc r = .fault x ∨ ∃ b0 u, fetchByte s.pc r = .next (b0, u) ∧ fetchByte (s.pc + 1) u = .fault x) →
      step s = .fault x) ∧
    (∀ x : Fault, fetchInstr r = .fault x → step s = .fault x) ∧
    (∀ x : Refusal, fetchInstr r = .refused x → step s = .refused x)

/-- R130, R80, R64: in disabled mode, with no code-cache line at pc, the two bytes of memory at pc are what is decoded;
the fetch adds two one-byte bus reads to the history and changes no register, no memory and no cache. That the LRU bits
stay is the model's choice (log 21); the code TLB, the draws and the addresses fetched do change. -/
def Obligations.StepFetchesFromMemoryInDisabledMode : Prop :=
  ∀ (s : State) (i : Instr) (rest : List Byte),
    s.cd = true → s.nw = true → s.schedule = [] → s.platform.endPc ≠ some s.pc → s.pc.toNat + 2 < 4294967296 →
    s.cc.hit (lineOf s.pc) = none → s.cc.hit (lineOf (s.pc + 1)) = none → s.runPopulated s.pc.toNat 2 →
    decode (Memory.readRun s.mem s.pc.toNat 2) = .ok (i, rest) →
    ∃ u, step s = exec i u ∧ u.pc = s.pc ∧ SameRegs s u ∧ SameSpecial s u ∧ u.mem = s.mem ∧ u.io = s.io ∧
      SameCaches s u ∧ SameLaunch s u ∧ u.between = s.between ∧
      u.history = s.readEvent (s.pc.toNat + 1) 1 :: s.readEvent s.pc.toNat 1 :: s.history

/-- R130, R80: where both bytes at pc hit the code cache they come from its lines, whatever memory and the data cache
hold, with no bus cycle; and so does one byte that hits, whatever the other does. -/
def Obligations.StepFetchesFromTheCodeCache : Prop :=
  (∀ (s : State) (i : Instr) (rest : List Byte) (l0 l1 : CacheLine CodeState),
    s.cd = s.nw → s.schedule = [] → s.platform.endPc ≠ some s.pc → s.pc.toNat + 2 < 4294967296 →
    s.cc.hit (lineOf s.pc) = some l0 → s.cc.hit (lineOf (s.pc + 1)) = some l1 →
    decode [lineByte l0.data (s.pc.toNat % 32), lineByte l1.data ((s.pc.toNat + 1) % 32)] = .ok (i, rest) →
    ∃ u, step s = exec i u ∧ u.pc = s.pc ∧ SameRegs s u ∧ SameSpecial s u ∧ u.mem = s.mem ∧ u.io = s.io ∧
      u.dc = s.dc ∧ u.cc.lines = s.cc.lines ∧ SameLaunch s u ∧ u.between = s.between ∧ u.history = s.history) ∧
  ∀ (s : State) (a : Dword) (l : CacheLine CodeState), s.cc.hit (lineOf a) = some l →
    ∃ u, fetchByte a s = .next (lineByte l.data (a.toNat % 32), u) ∧ u.pc = s.pc ∧ SameRegs s u ∧ SameSpecial s u ∧
      u.mem = s.mem ∧ u.io = s.io ∧ u.dc = s.dc ∧ u.cc.lines = s.cc.lines ∧ SameLaunch s u ∧ u.between = s.between ∧
      u.history = s.history

/-- R80, R81, R72, R74, R65, R48: a fetch miss takes the byte of memory. Where CD, the page's PCD and the level drawn
for KEN# do not allow a fill, one byte is read from the bus and no cache changes; where they do, four quadword reads
bring memory's 32 bytes, and the line enters the code cache in state S at the place of the victim, while every line at
another place, the data cache and memory stay. A byte, or for a fill a line, at a hole is never answered (R48), which
the model says as the fault busCycleNotAnswered (log 35). That the LRU bits stay where nothing is filled is the
model's choice (log 21), and so is the order in which the draw for KEN# follows the code TLB's (log 14). -/
def Obligations.FetchMissReadsMemory : Prop :=
  ∀ (s : State) (a : Dword), s.Inv → s.between = [] → s.cc.hit (lineOf a) = none →
    (cacheable s a (s.loadCodeTlb a).drawBit = false → s.populated a.toNat = true →
      ∃ u, fetchByte a s = .next (Memory.read s.mem a.toNat, u) ∧ u.mem = s.mem ∧ SameCaches s u ∧ u.pc = s.pc ∧
        SameRegs s u ∧ SameSpecial s u ∧ u.io = s.io ∧ SameLaunch s u ∧ u.between = s.between ∧ u.Inv ∧
        u.history = s.readEvent a.toNat 1 :: s.history) ∧
    (cacheable s a (s.loadCodeTlb a).drawBit = true → s.runPopulated (32 * (a.toNat / 32)) 32 →
      ∃ u l, fetchByte a s = .next (Memory.read s.mem a.toNat, u) ∧ u.mem = s.mem ∧ u.dc = s.dc ∧ u.pc = s.pc ∧
        SameRegs s u ∧ SameSpecial s u ∧ u.io = s.io ∧ SameLaunch s u ∧ u.between = s.between ∧ u.Inv ∧
        u.cc.hit (lineOf a) = some l ∧ l.state = .S ∧
        (∀ o, o < 32 → lineByte l.data o = Memory.read s.mem (32 * (a.toNat / 32) + o)) ∧
        (∃ draw, l.way = s.cc.victim (lineSet (lineOf a)) draw) ∧ SameOtherPlaces s.cc u.cc l.set l.way ∧
        ∃ order : List Nat, order.Perm [0, 1, 2, 3] ∧
          u.history = (order.map (fun q => s.readEvent (32 * (a.toNat / 32) + 8 * q) 8)).reverse ++ s.history) ∧
    (cacheable s a (s.loadCodeTlb a).drawBit = false → s.populated a.toNat = false →
      fetchByte a s = .fault (.busCycleNotAnswered a.toNat)) ∧
    (cacheable s a (s.loadCodeTlb a).drawBit = true → ¬s.runPopulated (32 * (a.toNat / 32)) 32 →
      MeetsHole s (fetchByte a s))

/-- R22, R130: a state whose CD and NW differ is refused, whoever moves next. -/
def Obligations.MixedCacheModesAreRefused : Prop :=
  ∀ s : State, s.cd ≠ s.nw → step s = .refused .cr0ModeNotInSource

/-- R129, R19, R130: at END_PC the run is over, which the model says as the refusal runOver (the model's choice, log 12:
the spec lists no such refusal); elsewhere a step whose pc + 2 would pass the last address is refused. -/
def Obligations.RunEndsAndPcWraps : Prop :=
  ∀ s : State, s.cd = s.nw → (nextMove s).1 = .processor →
    (s.platform.endPc = some s.pc → step s = .refused .runOver) ∧
    (s.platform.endPc ≠ some s.pc → (s.pc = 0xFFFFFFFE ∨ s.pc = 0xFFFFFFFF) → step s = .refused .pcWrap)

/-- R93, R130: two fetched bytes that start no pattern of R89 are refused, and both are named. -/
def Obligations.OtherBytesAreRefused : Prop :=
  ∀ (s u v : State) (b0 b1 : Byte), s.cd = s.nw → (nextMove s).1 = .processor → s.platform.endPc ≠ some s.pc →
    s.pc.toNat + 2 < 4294967296 → fetchByte s.pc (nextMove s).2 = .next (b0, u) → fetchByte (s.pc + 1) u = .next (b1, v) →
    (∀ i : Instr, encode i ≠ [b0, b1]) → step s = .refused (.notInSpec b0 b1)

/-! ### Model specific registers (40_msr_access.md) -/

/-- R96, R28 (a) (the encoding and EDX:EAX from general knowledge, as R96 marks them): the privilege test, then the
number test on all 32 bits of ECX, then EDX:EAX takes the register with a draw in each reserved bit, and the draw is
used up, so that the next read draws afresh. The frame: every other register, memory, I/O space, the caches, the TLBs
and the history are as before. The value of a draw is a free value; that one number gives all the reserved bits their
draws, and where the next number comes from, are the model's choice (log 14). -/
def Obligations.RdmsrRule : Prop :=
  encode .rdmsr = [0x0F, 0x32] ∧ ∀ s : State,
    (s.cpl ≠ 0 → exec .rdmsr s = .refused .privilegeNotModelled) ∧
    (s.cpl = 0 → s.reg .ecx ≠ 0x00 → s.reg .ecx ≠ 0x01 → s.reg .ecx ≠ 0x0E →
      exec .rdmsr s = .fault (.msrUndefinedNumber (s.reg .ecx))) ∧
    (∀ (n : MsrId) (number : Dword),
      (n, number) ∈ [(MsrId.machineCheckAddress, (0x00 : Dword)), (.machineCheckType, 0x01), (.testRegister12, 0x0E)] →
      s.cpl = 0 → s.reg .ecx = number →
      ∃ (t : State) (v : Qword), exec .rdmsr s = .next t ∧
        (∀ i, i < 64 → v.getLsbD i =
          if (s.platform.msrReserved n).getLsbD i then s.drawValue.testBit i else (s.msr n).getLsbD i) ∧
        t.reg .edx = v.extractLsb' 32 32 ∧ t.reg .eax = v.extractLsb' 0 32 ∧ t.pc = s.pc + 2 ∧
        (∀ r, r ≠ .eax → r ≠ .edx → t.reg r = s.reg r) ∧ SameSpecial s t ∧ SameMem s t ∧ SameIo s t ∧
        SameCaches s t ∧ SameLaunch s t ∧ t.tlbs = s.tlbs ∧ t.history = s.history ∧ t.between = s.between ∧
        t.script = s.script.tail ∧ t.drawCount = s.drawCount + 1)

/-- R28 (a), R11: the reserved bits of a read are any value, afresh at each read: whatever 64 bits the platform draws,
they come out in the reserved bits and nowhere else, and what the next read draws is what stands after them. That the
draws stand in the field `script` is the model's choice (log 14). -/
def Obligations.ReservedBitsReadAsAnyValue : Prop :=
  ∀ (s : State) (n : MsrId) (w : Qword) (rest : List Nat), s.cpl = 0 → s.reg .ecx = n.number →
    s.script = w.toNat :: rest →
    ∃ t, exec .rdmsr s = .next t ∧
      t.reg .edx ++ t.reg .eax = (w &&& s.platform.msrReserved n) ||| (s.msr n &&& ~~~(s.platform.msrReserved n)) ∧
      t.script = rest

/-- R97, whole (its encoding and EDX:EAX from general knowledge, as it marks them): the tests in the order the rule
gives them; where all pass, Test Register 12 keeps its value, since defined bits are equal and reserved bits
untouched. The frame: every register but the pc, memory, I/O space, the caches, the TLBs and the history are as
before. -/
def Obligations.WrmsrRule : Prop :=
  encode .wrmsr = [0x0F, 0x30] ∧ ∀ s : State,
    let v := s.reg .edx ++ s.reg .eax
    let r := s.platform.reservedTr12
    (s.cpl ≠ 0 → exec .wrmsr s = .refused .privilegeNotModelled) ∧
    (s.cpl = 0 → s.reg .ecx ≠ 0x00 → s.reg .ecx ≠ 0x01 → s.reg .ecx ≠ 0x0E →
      exec .wrmsr s = .fault (.msrUndefinedNumber (s.reg .ecx))) ∧
    (s.cpl = 0 → s.reg .ecx = 0x00 ∨ s.reg .ecx = 0x01 → exec .wrmsr s = .refused .wrmsrToMachineCheckRegister) ∧
    (s.cpl = 0 → s.reg .ecx = 0x0E → v &&& r ≠ 0 → exec .wrmsr s = .fault (.msrReservedBitWritten (v &&& r))) ∧
    (s.cpl = 0 → s.reg .ecx = 0x0E → v &&& r = 0 → v &&& ~~~r ≠ s.tr12 &&& ~~~r →
      exec .wrmsr s = .refused .tr12EffectNotInSource) ∧
    (s.cpl = 0 → s.reg .ecx = 0x0E → v &&& r = 0 → v &&& ~~~r = s.tr12 &&& ~~~r →
      ∃ t, exec .wrmsr s = .next t ∧ t.tr12 = (v &&& ~~~r) ||| (s.tr12 &&& r) ∧ t.tr12 = s.tr12 ∧
        t.mcAddress = s.mcAddress ∧ t.mcType = s.mcType ∧ t.pc = s.pc + 2 ∧ SameRegs s t ∧ SameSpecial s t ∧
        SameMem s t ∧ SameIo s t ∧ SameCaches s t ∧ SameLaunch s t ∧ t.tlbs = s.tlbs ∧ t.history = s.history ∧
        t.between = s.between)

/-! ### Cache control (41_cache_control.md, 20_memory.md R82) -/

/-- R98 (its encoding from general knowledge, as it marks it): INVD at level 0 completes in every state: every line of
both caches is I, nothing is written back, the Flush special cycle is driven. The frame: registers, special registers,
every byte of memory and of I/O space, and the TLBs are as before; that the TLBs stay is the model's choice (log 23). At
another level it is refused. -/
def Obligations.InvdRule : Prop :=
  encode .invd = [0x0F, 0x08] ∧ ∀ s : State,
    (s.cpl ≠ 0 → exec .invd s = .refused .privilegeNotModelled) ∧
    (s.cpl = 0 → ∃ t, exec .invd s = .next t ∧ AllInvalid t ∧ SameMem s t ∧
      t.history = .special .flush :: s.history ∧ t.pc = s.pc + 2 ∧ SameOutside s t ∧ t.between = s.between)

/-- R98 (a), R121: after INVD a data read of any address returns the byte memory held before it, whatever a modified
line held. -/
def Obligations.InvdLosesModifiedData : Prop :=
  ∀ (s t u : State) (w : Width) (a : Dword) (v : Qword), s.Inv → s.NoWriteBetween → exec .invd s = .next t →
    memRead w a t = .next (v, u) → HasBytes v w.bytes (fun i => Memory.read s.mem (a.toNat + i))

/-- R99 (its encoding from general knowledge, as it marks it): WBINVD at level 0, with no other master acting in
between and every modified line in memory, completes: memory takes the 32 bytes of every modified line and changes
nowhere else, every line of both caches is I, and the bus sees each modified line's four quadword writes, one line
after another, then the Writeback and then the Flush special cycle. The frame: registers, special registers, I/O space
and the TLBs are as before; that the TLBs stay is the model's choice (log 23). At another level it is refused. -/
def Obligations.WbinvdRule : Prop :=
  encode .wbinvd = [0x0F, 0x09] ∧ ∀ s : State,
    (s.cpl ≠ 0 → exec .wbinvd s = .refused .privilegeNotModelled) ∧
    (s.cpl = 0 → s.Inv → s.between = [] → s.ModifiedLinesPopulated →
      ∃ t writes, exec .wbinvd s = .next t ∧ AllInvalid t ∧
        (∀ l ∈ s.dc.lines, l.state = .M → ∀ o, o < 32 → Memory.read t.mem (l.byteAddress o) = lineByte l.data o) ∧
        (∀ a, (∀ l ∈ s.dc.lines, l.state = .M → l.address.toNat ≠ a / 32) →
          Memory.read t.mem a = Memory.read s.mem a) ∧
        t.history = .special .flush :: .special .writeback :: (writes ++ s.history) ∧
        ModifiedLinesWritten s writes ∧ t.pc = s.pc + 2 ∧ SameOutside s t ∧ t.between = s.between)

/-- R99 (c), R48: with no other master acting in between, WBINVD with a byte of a modified line at a hole is never
answered; the model says the stuck state as the fault busCycleNotAnswered (the model's choice, log 35). -/
def Obligations.WbinvdWaitsAtAHole : Prop :=
  ∀ s : State, s.cpl = 0 → s.Inv → s.between = [] → ¬s.ModifiedLinesPopulated →
    MeetsHole s (exec .wbinvd s)

/-- R99 (b), (d), R88: whatever other masters do inside WBINVD short of writing memory, when it completes memory holds
the current value of every byte: what a data read returned before. The frame holds too; that it has the TLBs in it is
the model's choice (log 23). -/
def Obligations.WbinvdLeavesMemoryCurrent : Prop :=
  ∀ s t : State, s.Inv → s.CleanLinesAgree → s.NoWriteBetween → exec .wbinvd s = .next t →
    (∀ a, a < 4294967296 → Memory.read t.mem a = s.view a) ∧ AllInvalid t ∧ t.pc = s.pc + 2 ∧ SameOutside s t

/-- R99 (d), R106: whatever other masters do inside WBINVD, writes included, when it completes every line is I, the two
special cycles are the last events in the rule's order, and the frame holds; that it has the TLBs in it is the model's
choice (log 23). -/
def Obligations.WbinvdFrame : Prop :=
  ∀ s t : State, exec .wbinvd s = .next t →
    AllInvalid t ∧ (∃ earlier, t.history = .special .flush :: .special .writeback :: earlier) ∧ t.pc = s.pc + 2 ∧
      SameOutside s t

/-- R98 (b): with no line in state M both instructions complete, and leave the same state; only the special cycles
differ, and the draws, since WBINVD takes one for the order of its lines (the model's choice, log 14). That both leave
the LRU bits and the TLBs is the model's choice too (log 23). -/
def Obligations.InvdAndWbinvdAgreeWithNoModifiedLine : Prop :=
  ∀ s : State, s.cpl = 0 → (∀ l ∈ s.dc.lines, l.state ≠ .M) →
    ∃ t u, exec .invd s = .next t ∧ exec .wbinvd s = .next u ∧ u.regs = t.regs ∧ u.pc = t.pc ∧ u.mem = t.mem ∧
      u.io = t.io ∧ u.dc = t.dc ∧ u.cc = t.cc ∧ u.tlbs = t.tlbs ∧ SameSpecial t u ∧ u.platform = t.platform ∧
      u.schedule = t.schedule ∧ u.between = t.between ∧ u.fetched = t.fetched ∧ t.history = .special .flush :: s.history ∧
      u.history = .special .flush :: .special .writeback :: s.history

/-- R82, R81: the step of an asserted FLUSH#, with no other master acting in between and every modified line in
memory, completes at every privilege level: modified lines go to memory in four quadword writes each, one line after
another, every line of both caches is I, then the Flush Acknowledge special cycle; the pc and every register stay.
That the TLBs stay is the model's choice (log 23). -/
def Obligations.FlushPinRule : Prop :=
  ∀ (s : State) (rest : List Move), s.cd = s.nw → s.schedule = .assertFlush :: rest → s.Inv → s.between = [] →
    s.ModifiedLinesPopulated →
    ∃ t writes, step s = .next t ∧ AllInvalid t ∧
      (∀ l ∈ s.dc.lines, l.state = .M → ∀ o, o < 32 → Memory.read t.mem (l.byteAddress o) = lineByte l.data o) ∧
      (∀ a, (∀ l ∈ s.dc.lines, l.state = .M → l.address.toNat ≠ a / 32) →
        Memory.read t.mem a = Memory.read s.mem a) ∧
      t.history = .special .flushAcknowledge :: (writes ++ s.history) ∧
      ModifiedLinesWritten s writes ∧ t.pc = s.pc ∧ SameRegs s t ∧ SameSpecial s t ∧ SameIo s t ∧ t.tlbs = s.tlbs ∧ t.schedule = rest

/-- R82, R81, R106: whatever other masters do inside the step of an asserted FLUSH#, writes included, when it completes
every line is I, Flush Acknowledge is the last event, and the frame holds. That they may act inside this step and that
the TLBs stay are the model's choices (log 42, log 23). -/
def Obligations.FlushPinFrame : Prop :=
  ∀ (s t : State) (rest : List Move), s.schedule = .assertFlush :: rest → step s = .next t →
    AllInvalid t ∧ (∃ earlier, t.history = .special .flushAcknowledge :: earlier) ∧ t.pc = s.pc ∧ SameRegs s t ∧
      SameSpecial s t ∧ SameIo s t ∧ t.platform = s.platform ∧ t.tlbs = s.tlbs ∧ t.fetched = s.fetched ∧
      t.schedule = rest

/-! ### Operands and bus cycles (20_memory.md) -/

/-- R50: a 2- or 4-byte operand is misaligned exactly when it crosses a 4-byte boundary, an 8-byte operand exactly when
it crosses an 8-byte boundary; a byte, and an operand that begins at a physical unit (R47), never. -/
def Obligations.MisalignedMeansCrossing : Prop :=
  ∀ (a : Nat) (w : Width),
    (misaligned a w = true ↔ a / splitUnit w ≠ (a + w.bytes - 1) / splitUnit w) ∧
    splitUnit .word = 4 ∧ splitUnit .dword = 4 ∧ splitUnit .qword = 8 ∧ misaligned a .byte = false ∧
    (physicalUnit a w = true → misaligned a w = false)

/-- R51: the parts of an operand cover exactly its bytes, each part is a run inside one aligned quadword, an operand
that is not misaligned is one part, and of two parts the one at the higher addresses is first and begins at the
boundary crossed. -/
def Obligations.SplitCoversTheOperand : Prop :=
  ∀ (a : Nat) (w : Width),
    (split a w).reverse.flatMap (fun p => (List.range p.2).map (p.1 + ·)) = (List.range w.bytes).map (a + ·) ∧
    (∀ p ∈ split a w, busRunWf p.1 p.2 = true) ∧
    (misaligned a w = false → split a w = [(a, w.bytes)]) ∧
    (misaligned a w = true → ∃ upper lower, split a w = [upper, lower] ∧ lower.1 = a ∧
      lower.1 + lower.2 = upper.1 ∧ upper.1 = splitUnit w * (a / splitUnit w + 1))

/-- R56, R55, R47: in a cycle on `count` bytes of one quadword exactly the enables of those bytes are asserted, one
run; the lines A31-A3 select the quadword of the address. The last clause, that A31-A3 and A2-A0 decoded from the
enables give the address back, rests on the model's choice of that decode (log 48; the spec's is lost, N18). -/
def Obligations.ByteEnablesAreOneRun : Prop :=
  ∀ (a : Dword) (count : Nat), busRunWf a.toNat count = true →
    (∀ i, i < 8 → (byteEnables a count).getLsbD i = decide (a.toNat % 8 ≤ i ∧ i < a.toNat % 8 + count)) ∧
    (quadOf a).toNat = a.toNat / 8 ∧ 8 * (quadOf a).toNat + lowAddress (byteEnables a count) = a.toNat

/-- R55, R48, R57: a bus cycle on a run of bytes that all lie in memory is one event and moves exactly those bytes; one
with a byte at a hole is never answered. -/
def Obligations.BusCycleRule : Prop :=
  ∀ (s : State) (a : Dword) (count : Nat) (bytes : List Byte),
    (s.runPopulated a.toNat count →
      ∃ t, busRead a count s = .next (Memory.readRun s.mem a.toNat count, t) ∧ t.mem = s.mem ∧
        t.history = s.readEvent a.toNat count :: s.history ∧ SameCaches s t ∧ SameOutside s t) ∧
    (s.runPopulated a.toNat bytes.length →
      ∃ t, busWrite a bytes s = .next t ∧ t.history = s.writeEvent a.toNat bytes :: s.history ∧
        (∀ i (h : i < bytes.length), Memory.read t.mem (a.toNat + i) = bytes[i]) ∧
        (∀ x, x < a.toNat ∨ a.toNat + bytes.length ≤ x → Memory.read t.mem x = Memory.read s.mem x) ∧
        SameCaches s t ∧ SameOutside s t) ∧
    (¬s.runPopulated a.toNat count → MeetsHole s (busRead a count s)) ∧
    (¬s.runPopulated a.toNat bytes.length → MeetsHole s (busWrite a bytes s))

/-- R61 (the assignment is the spec's decision D14): byte a[4:0], set a[11:5], tag a[31:12]; line address, set and tag
determine each other. -/
def Obligations.AddressFields : Prop :=
  ∀ a : Dword,
    offsetOf a = a.toNat % 32 ∧ (lineOf a).toNat = a.toNat / 32 ∧
    (lineSet (lineOf a)).toNat = a.toNat / 32 % 128 ∧ (lineTag (lineOf a)).toNat = a.toNat / 4096 ∧
    lineAddress (lineTag (lineOf a)) (lineSet (lineOf a)) = lineOf a ∧
    (∀ q, q < 4 → (lineQuad (lineOf a) q).toNat = 32 * (a.toNat / 32) + 8 * q)

/-- R65: a fill is allowed exactly when CD = 0, the page's PCD = 0 and KEN# is sampled at 0. -/
def Obligations.CacheableExactlyWhen : Prop :=
  ∀ (s : State) (a : Dword) (ken : Bool),
    cacheable s a ken = true ↔ (s.cd = false ∧ (s.pageAttr a).pcd = false ∧ ken = false)

/-- R62: an address hits the data cache exactly when a line of its set is not in state I and has its tag. -/
def Obligations.HitExactlyWhen : Prop :=
  ∀ (s : State) (a : Dword), s.Inv →
    ((s.dc.hit (lineOf a)).isSome = true ↔
      ∃ way l, dataStateAt s.dc (lineSet (lineOf a)) way ≠ .I ∧ s.dc.lineAt (lineSet (lineOf a)) way = some l ∧
        l.tag = lineTag (lineOf a)) ∧
    ((s.cc.hit (lineOf a)).isSome = true ↔
      ∃ way l, codeStateAt s.cc (lineSet (lineOf a)) way ≠ .I ∧ s.cc.lineAt (lineSet (lineOf a)) way = some l ∧
        l.tag = lineTag (lineOf a))

/-- R74, R39: the line a fill takes, `Cache.victim`, is one of the set in state I if there is one, else the line the
LRU bit names, in either cache; that the fills take it, FetchMissReadsMemory and ReadMissRule say. Which value of the
bit names which line is the model's choice (log 21). -/
def Obligations.VictimOfAFill : Prop :=
  ∀ (d : Cache DataState) (c : Cache CodeState) (set : BitVec 7) (draw : Bool),
    (dataStateAt d set .zero = .I ∨ dataStateAt d set .one = .I → dataStateAt d set (d.victim set draw) = .I) ∧
    (dataStateAt d set .zero ≠ .I → dataStateAt d set .one ≠ .I →
      d.victim set draw = if d.lru.getLsbD set.toNat then .one else .zero) ∧
    (codeStateAt c set .zero = .I ∨ codeStateAt c set .one = .I → codeStateAt c set (c.victim set draw) = .I) ∧
    (codeStateAt c set .zero ≠ .I → codeStateAt c set .one ≠ .I →
      c.victim set draw = if c.lru.getLsbD set.toNat then .one else .zero)

/-! ### Data accesses (20_memory.md R78, R79) -/

/-- R78, R64 (b), R120: an operand in one line that hits is read from the line in either described mode, with no bus
cycle, whatever memory holds. -/
def Obligations.ReadHitsReturnTheLine : Prop :=
  ∀ (s : State) (w : Width) (a : Dword) (l : CacheLine DataState), s.cd = s.nw → a.toNat + w.bytes ≤ 4294967296 →
    misaligned a.toNat w = false → s.dc.hit (lineOf a) = some l →
    ∃ v t, memRead w a s = .next (v, t) ∧ HasBytes v w.bytes (fun i => lineByte l.data (a.toNat % 32 + i)) ∧
      t.mem = s.mem ∧ t.dc.lines = s.dc.lines ∧ t.cc = s.cc ∧ t.history = s.history ∧ t.pc = s.pc ∧ SameRegs s t ∧
      SameSpecial s t

/-- R78, R64 (a), R51, R55: in disabled mode an operand that misses is read from memory by one bus read a part, the
upper part first, and no cache changes; with a byte of it at a hole the read is never answered (R48; the fault is the
model's form, log 35). That the LRU bits stay too is the model's choice (log 21). -/
def Obligations.ReadMissesInDisabledModeReadMemory : Prop :=
  ∀ (s : State) (w : Width) (a : Dword), s.cd = true → s.nw = true → s.between = [] →
    a.toNat + w.bytes ≤ 4294967296 →
    (∀ i, i < w.bytes → s.dc.hit (lineOf (BitVec.ofNat 32 (a.toNat + i))) = none) →
    (s.runPopulated a.toNat w.bytes →
      ∃ v t, memRead w a s = .next (v, t) ∧ HasBytes v w.bytes (fun i => Memory.read s.mem (a.toNat + i)) ∧
        t.mem = s.mem ∧ SameCaches s t ∧ t.pc = s.pc ∧ SameRegs s t ∧ SameSpecial s t ∧
        t.history = ((split a.toNat w).map (fun p => s.readEvent p.1 p.2)).reverse ++ s.history) ∧
    (¬s.runPopulated a.toNat w.bytes → MeetsHole s (memRead w a s))

/-- R78, R22: a read with CD different from NW, and one past the last address, is refused. R78, R73, R74, R65, R69,
R81, R51, R48, with no other master acting in between: an operand in one line that misses is memory's. Where CD, the
page's PCD and the level drawn for KEN# do not allow a fill, it is one bus read and no cache changes (that the LRU
bits stay, and that the draw for KEN# follows the data TLB's, are the model's choices, log 21 and log 14). Where they
do, the line enters the data cache in state E or S with the bytes memory held, at the place of the victim; a modified
victim is in memory, and no other byte of memory and no line at another place changes; the bus sees the four quadword
writes of a modified victim and then the four quadword reads of the line. Where a bus cycle of it meets a hole (the
operand's with no fill; the line's or a modified victim's with one) the read is never answered, which the model says
as the fault busCycleNotAnswered (log 35). And a read of any operand, misaligned or not, whose parts hit or miss,
completes where memory is at the bytes that miss, at their lines where a fill may be allowed, and at the modified
lines: it returns the one current copy and changes no byte of that copy. -/
def Obligations.ReadMissRule : Prop :=
  (∀ (s : State) (w : Width) (a : Dword),
    (s.cd ≠ s.nw → memRead w a s = .refused .cr0ModeNotInSource) ∧
    (s.cd = s.nw → 4294967296 < a.toNat + w.bytes → memRead w a s = .refused .addressWrap)) ∧
  ∀ (s : State) (w : Width) (a : Dword), s.Inv → s.cd = s.nw → s.between = [] → a.toNat + w.bytes ≤ 4294967296 →
    (misaligned a.toNat w = false → s.dc.hit (lineOf a) = none → cacheable s a (s.loadDataTlb a).drawBit = false →
      ¬s.runPopulated a.toNat w.bytes → MeetsHole s (memRead w a s)) ∧
    (misaligned a.toNat w = false → s.dc.hit (lineOf a) = none → cacheable s a (s.loadDataTlb a).drawBit = true →
      (¬s.runPopulated (32 * (a.toNat / 32)) 32 ∨
        ∀ draw, ∃ x, s.dc.lineAt (lineSet (lineOf a)) (s.dc.victim (lineSet (lineOf a)) draw) = some x ∧ x.state = .M ∧
          ¬s.runPopulated (32 * x.address.toNat) 32) →
      MeetsHole s (memRead w a s)) ∧
    (misaligned a.toNat w = false → s.dc.hit (lineOf a) = none → cacheable s a (s.loadDataTlb a).drawBit = false →
      s.runPopulated a.toNat w.bytes →
      ∃ v t, memRead w a s = .next (v, t) ∧ HasBytes v w.bytes (fun i => Memory.read s.mem (a.toNat + i)) ∧
        SameCaches s t ∧ t.mem = s.mem ∧ t.history = s.readEvent a.toNat w.bytes :: s.history ∧ t.pc = s.pc ∧
        SameRegs s t ∧ SameSpecial s t) ∧
    (misaligned a.toNat w = false → s.dc.hit (lineOf a) = none → cacheable s a (s.loadDataTlb a).drawBit = true →
      s.runPopulated (32 * (a.toNat / 32)) 32 → s.ModifiedLinesPopulated →
      ∃ v t l, memRead w a s = .next (v, t) ∧ HasBytes v w.bytes (fun i => Memory.read s.mem (a.toNat + i)) ∧
        t.dc.hit (lineOf a) = some l ∧ (l.state = .E ∨ l.state = .S) ∧
        (∀ o, o < 32 → lineByte l.data o = Memory.read s.mem (32 * (a.toNat / 32) + o)) ∧
        (∃ draw, l.way = s.dc.victim (lineSet (lineOf a)) draw) ∧ SameOtherPlaces s.dc t.dc l.set l.way ∧
        VictimInMemory s t l.set l.way ∧
        (∃ (order : List Nat) (writes : List BusEvent), order.Perm [0, 1, 2, 3] ∧ VictimWrites s l.set l.way writes ∧
          t.history =
            (order.map (fun q => s.readEvent (32 * (a.toNat / 32) + 8 * q) 8)).reverse ++ writes ++ s.history) ∧
        t.cc = s.cc ∧ t.pc = s.pc ∧ SameRegs s t ∧ SameSpecial s t) ∧
    (s.CleanLinesAgree → s.ModifiedLinesPopulated →
      (∀ i, i < w.bytes → s.dc.hit (lineOf (BitVec.ofNat 32 (a.toNat + i))) = none →
        s.populated (a.toNat + i) = true ∧
        (cacheable s (BitVec.ofNat 32 (a.toNat + i)) false = true →
          s.runPopulated (32 * ((a.toNat + i) / 32)) 32)) →
      ∃ v t, memRead w a s = .next (v, t) ∧ HasBytes v w.bytes (fun i => s.view (a.toNat + i)) ∧
        (∀ x, x < 4294967296 → t.view x = s.view x) ∧ t.cc = s.cc ∧ t.pc = s.pc ∧ SameRegs s t ∧ SameSpecial s t)

/-- R84 (a), R78: while no other master writes memory inside it, a data read returns the one current copy of each byte,
the line's if one hits and else memory's, and changes no byte of that copy, fills and writebacks included. -/
def Obligations.DataReadsReturnTheOneCopy : Prop :=
  ∀ (s t : State) (w : Width) (a : Dword) (v : Qword), s.Inv → s.CleanLinesAgree → s.NoWriteBetween →
    memRead w a s = .next (v, t) →
    HasBytes v w.bytes (fun i => s.view (a.toNat + i)) ∧ (∀ x, x < 4294967296 → t.view x = s.view x) ∧ t.Inv ∧
      t.CleanLinesAgree

/-- R84 (a), R79, R53: while no other master writes memory inside it, a data write changes the one current copy at the
operand's bytes, the byte at the lowest address the least significant, and nowhere else. -/
def Obligations.DataWritesUpdateTheOneCopy : Prop :=
  ∀ (s t : State) (w : Width) (a : Dword) (v : Qword), s.Inv → s.CleanLinesAgree → s.NoWriteBetween →
    memWrite w a v s = .next t →
    (∀ i, i < w.bytes → t.view (a.toNat + i) = v.extractLsb' (8 * i) 8) ∧
      (∀ x, x < 4294967296 → x < a.toNat ∨ a.toNat + w.bytes ≤ x → t.view x = s.view x) ∧ t.Inv ∧ t.CleanLinesAgree

/-- R79, R87, R64 (d), R78, R22: the refusals of a data write. In disabled mode the first part, the upper one first,
that a test refuses decides; of one part the test for program text and the code cache comes first. -/
def Obligations.DataWriteRefusals : Prop :=
  ∀ (s : State) (w : Width) (a : Dword) (v : Qword),
    let code := ∃ i, i < w.bytes ∧ (s.codeRange (a.toNat + i) = true ∨
      (s.cc.hit (lineOf (BitVec.ofNat 32 (a.toNat + i)))).isSome = true)
    let hit := ∃ i, i < w.bytes ∧ (s.dc.hit (lineOf (BitVec.ofNat 32 (a.toNat + i)))).isSome = true
    (s.cd ≠ s.nw → memWrite w a v s = .refused .cr0ModeNotInSource) ∧
    (s.cd = s.nw → 4294967296 < a.toNat + w.bytes → memWrite w a v s = .refused .addressWrap) ∧
    (s.cd = s.nw → a.toNat + w.bytes ≤ 4294967296 → code → (s.cd = false ∨ ¬hit) →
      memWrite w a v s = .refused .storeToCode) ∧
    (s.cd = true → s.nw = true → a.toNat + w.bytes ≤ 4294967296 → ¬code → hit →
      memWrite w a v s = .refused .disabledModeWithValidLines) ∧
    let codeAt := fun p : Nat × Nat => ∃ i, i < p.2 ∧ (s.codeRange (p.1 + i) = true ∨
      (s.cc.hit (lineOf (BitVec.ofNat 32 (p.1 + i)))).isSome = true)
    let hitAt := fun p : Nat × Nat => ∃ i, i < p.2 ∧ (s.dc.hit (lineOf (BitVec.ofNat 32 (p.1 + i)))).isSome = true
    ∀ (earlier later : List (Nat × Nat)) (p : Nat × Nat), s.cd = true → s.nw = true →
      a.toNat + w.bytes ≤ 4294967296 → split a.toNat w = earlier ++ p :: later →
      (∀ q ∈ earlier, ¬codeAt q ∧ ¬hitAt q) →
      (codeAt p → memWrite w a v s = .refused .storeToCode) ∧
      (¬codeAt p → hitAt p → memWrite w a v s = .refused .disabledModeWithValidLines)

/-- R73, R79: in normal mode a write of an operand in one line that hits a line in state M or E changes the line only,
which is then M; in state S it changes the line and memory and the line is then S or E; a miss changes memory only.
A write that goes to memory at a hole is never answered (R48; the fault is the model's form, log 35). That a miss leaves
the LRU bits is the model's choice (log 21). -/
def Obligations.DataWriteTransitions : Prop :=
  ∀ (s : State) (w : Width) (a : Dword) (v : Qword), s.Inv → s.cd = false → s.nw = false →
    a.toNat + w.bytes ≤ 4294967296 → misaligned a.toNat w = false →
    s.cc.hit (lineOf a) = none → (∀ i, i < w.bytes → s.codeRange (a.toNat + i) = false) →
    let written := fun t : State => ∀ x, Memory.read t.mem x =
      if a.toNat ≤ x ∧ x < a.toNat + w.bytes then v.extractLsb' (8 * (x - a.toNat)) 8 else Memory.read s.mem x
    let updated := fun l l' : CacheLine DataState => ∀ o, o < 32 → lineByte l'.data o =
      if a.toNat % 32 ≤ o ∧ o < a.toNat % 32 + w.bytes then v.extractLsb' (8 * (o - a.toNat % 32)) 8
      else lineByte l.data o
    (∀ l, s.dc.hit (lineOf a) = some l → l.state = .M ∨ l.state = .E →
      ∃ t l', memWrite w a v s = .next t ∧ t.mem = s.mem ∧ t.history = s.history ∧ t.cc = s.cc ∧
        t.dc.hit (lineOf a) = some l' ∧ l'.state = .M ∧ updated l l' ∧ SameOtherLines s t (lineOf a)) ∧
    (∀ l, s.dc.hit (lineOf a) = some l → l.state = .S → s.runPopulated a.toNat w.bytes →
      ∃ t l', memWrite w a v s = .next t ∧ written t ∧
        t.history = s.writeEvent a.toNat (bytesOf v w.bytes) :: s.history ∧ t.cc = s.cc ∧
        t.dc.hit (lineOf a) = some l' ∧ (l'.state = .S ∨ l'.state = .E) ∧ updated l l' ∧
        SameOtherLines s t (lineOf a)) ∧
    (s.dc.hit (lineOf a) = none → s.runPopulated a.toNat w.bytes →
      ∃ t, memWrite w a v s = .next t ∧ written t ∧
        t.history = s.writeEvent a.toNat (bytesOf v w.bytes) :: s.history ∧ SameCaches s t) ∧
    ((s.dc.hit (lineOf a) = none ∨ ∃ l, s.dc.hit (lineOf a) = some l ∧ l.state = .S) →
      ¬s.runPopulated a.toNat w.bytes → MeetsHole s (memWrite w a v s))

/-- R79, R64 (a), R73, R51, R55: in disabled mode a write that misses both caches, misaligned or not, completes with
one bus write a part, the upper part first; memory takes the operand's bytes and changes nowhere else, and no cache
changes. With a byte of it at a hole the write is never answered (R48; the fault is the model's form, log 35). That
the LRU bits stay too is the model's choice (log 21). -/
def Obligations.WritesInDisabledModeGoToMemory : Prop :=
  ∀ (s : State) (w : Width) (a : Dword) (v : Qword), s.cd = true → s.nw = true → s.between = [] →
    a.toNat + w.bytes ≤ 4294967296 →
    (∀ i, i < w.bytes → s.codeRange (a.toNat + i) = false ∧
      s.cc.hit (lineOf (BitVec.ofNat 32 (a.toNat + i))) = none ∧
      s.dc.hit (lineOf (BitVec.ofNat 32 (a.toNat + i))) = none) →
    (s.runPopulated a.toNat w.bytes →
      ∃ t, memWrite w a v s = .next t ∧
        (∀ x, Memory.read t.mem x =
          if a.toNat ≤ x ∧ x < a.toNat + w.bytes then v.extractLsb' (8 * (x - a.toNat)) 8 else Memory.read s.mem x) ∧
        SameCaches s t ∧ t.pc = s.pc ∧ SameRegs s t ∧ SameSpecial s t ∧ SameIo s t ∧
        t.history = ((split a.toNat w).map (fun p =>
          s.writeEvent p.1 (((bytesOf v w.bytes).drop (p.1 - a.toNat)).take p.2))).reverse ++ s.history) ∧
    (¬s.runPopulated a.toNat w.bytes → MeetsHole s (memWrite w a v s))

/-- R79, R51, R84 (a): in either described mode a data write that R79 does not refuse, misaligned or not, completes when
its bytes lie in memory and no other master acts in between: a data read returns the operand's bytes there and what it
did elsewhere; the code cache and the registers stay. -/
def Obligations.DataWritesComplete : Prop :=
  ∀ (s : State) (w : Width) (a : Dword) (v : Qword), s.Inv → s.CleanLinesAgree → s.cd = s.nw → s.between = [] →
    a.toNat + w.bytes ≤ 4294967296 → s.runPopulated a.toNat w.bytes →
    (∀ i, i < w.bytes → s.codeRange (a.toNat + i) = false ∧
      s.cc.hit (lineOf (BitVec.ofNat 32 (a.toNat + i))) = none ∧
      (s.cd = true → s.dc.hit (lineOf (BitVec.ofNat 32 (a.toNat + i))) = none)) →
    ∃ t, memWrite w a v s = .next t ∧ (∀ i, i < w.bytes → t.view (a.toNat + i) = v.extractLsb' (8 * i) 8) ∧
      (∀ x, x < 4294967296 → x < a.toNat ∨ a.toNat + w.bytes ≤ x → t.view x = s.view x) ∧
      t.cc = s.cc ∧ t.pc = s.pc ∧ SameRegs s t ∧ SameSpecial s t

/-- R87: every address a run fetches from is program text, where a data write is refused. A step that fetches fetches
from program text, and no step of any agent changes what is program text, so an address that a later step fetches from
is program text now. How the model holds this is its own choice (log 11): it remembers the addresses fetched, which only
the processor's steps add to, and takes as text all that lies from pc up to where the run must end. -/
def Obligations.FetchedBytesAreProgramText : Prop :=
  (∀ s : State, s.platform.endPc ≠ some s.pc → s.pc.toNat + 2 < 4294967296 →
    s.codeRange s.pc.toNat = true ∧ s.codeRange (s.pc.toNat + 1) = true) ∧
  (∀ s t : State, step s = .next t →
    (∀ x, t.codeRange x = s.codeRange x) ∧
    (∀ x, s.fetched.contains x = true → t.fetched.contains x = true ∧ t.codeRange x = true) ∧
    ((nextMove s).1 = .processor →
      t.fetched.contains s.pc.toNat = true ∧ t.fetched.contains (s.pc.toNat + 1) = true) ∧
    ((nextMove s).1 ≠ .processor → t.fetched = s.fetched))

/-- R38, R72, R87: no data write of the processor changes a byte of a code-cache line or brings one in: each line after
it was there before, with the same data. -/
def Obligations.CodeCacheIsWriteProtected : Prop :=
  ∀ (s t : State) (w : Width) (a : Dword) (v : Qword), memWrite w a v s = .next t →
    ∀ x ∈ t.cc.lines, ∃ y ∈ s.cc.lines, y.set = x.set ∧ y.way = x.way ∧ y.tag = x.tag ∧ y.data = x.data

/-- R71: neither an access to I/O space nor a special cycle changes a cache or memory. R35: what a read returns is any
value (D23). The model's choices (log 32): a write gives the bytes of I/O space it names the operand's; a 64-bit access,
a width R49 does not give I/O, is refused as qwordIo, and an operand that runs past FFFFH as addressWrap. -/
def Obligations.IoAccessesAreNotCached : Prop :=
  ∀ (s : State) (w : Width) (p : BitVec 16) (v : Dword), s.between = [] →
    (w = .qword → ioRead w p s = .refused .qwordIo ∧ ioWrite w p v s = .refused .qwordIo) ∧
    (w ≠ .qword → p.toNat + w.bytes ≤ 65536 →
      (∃ x t, ioRead w p s = .next (x, t) ∧ SameCaches s t ∧ t.mem = s.mem ∧ t.io = s.io ∧ t.regs = s.regs) ∧
      (∃ t, ioWrite w p v s = .next t ∧ SameCaches s t ∧ t.mem = s.mem ∧ t.regs = s.regs ∧
        ∀ a, Memory.read t.io a = if p.toNat ≤ a ∧ a < p.toNat + w.bytes
          then v.extractLsb' (8 * (a - p.toNat)) 8 else Memory.read s.io a)) ∧
    (w ≠ .qword → 65536 < p.toNat + w.bytes →
      ioRead w p s = .refused .addressWrap ∧ ioWrite w p v s = .refused .addressWrap) ∧
    ∀ c, SameCaches s (s.specialCycle c) ∧ SameMem s (s.specialCycle c)

/-! ### Other bus masters and external hardware (20_memory.md R75, R76, 60_exceptions.md R105) -/

/-- R75, R64 (d): the inquire cycle for a read, with no move in between; a step whose next move it is makes it. That it
leaves the LRU bits, where SameCaches and the code cache's equality say so, is the model's choice (log 21). -/
def Obligations.InquireForAReadRule : Prop :=
  ∀ (s : State) (line : BitVec 27), s.Inv → s.between = [] →
    let answer := masterMove interleave (.inquireRead line) s
    let refused := s.cd = true ∧ s.anyLineValid
    (refused → answer = .refused .disabledModeWithValidLines) ∧
    (¬refused → s.dc.hit line = none →
      ∃ t, answer = .next t ∧ SameCaches s t ∧ SameMem s t ∧ t.pc = s.pc ∧ SameOutside s t ∧
        t.history = .inquire line false :: s.history) ∧
    (∀ l, ¬refused → s.dc.hit line = some l → (l.state = .M → s.runPopulated (32 * line.toNat) 32) →
      ∃ t, answer = .next t ∧
        (t.dc.hit line = none ∨ ∃ l', t.dc.hit line = some l' ∧ l'.state = .S ∧ l'.data = l.data) ∧
        SameOtherLines s t line ∧ t.cc = s.cc ∧ t.pc = s.pc ∧ SameOutside s t ∧
        (l.state = .M → LineInMemory s t line l.data ∧
          ∃ writes, LineWrites s line l.data writes ∧ t.history = writes ++ .inquire line false :: s.history) ∧
        (l.state ≠ .M → SameMem s t ∧ t.history = .inquire line false :: s.history)) ∧
    ∀ rest : List Move, s.cd = s.nw → s.schedule = .master (.inquireRead line) :: rest →
      step s = masterMove interleave (.inquireRead line) { s with schedule := rest }

/-- R76, R64 (d): the inquire cycle for a write, with no move in between; a modified line reaches memory before it
leaves the cache, by the spec's decision D15; every other line of either cache stays; a step whose next move it is makes
it. That a miss leaves the data cache's LRU bits is the model's choice (log 21). -/
def Obligations.InquireForAWriteRule : Prop :=
  ∀ (s : State) (line : BitVec 27), s.Inv → s.between = [] →
    let answer := masterMove interleave (.inquireWrite line) s
    let refused := s.cd = true ∧ s.anyLineValid
    (refused → answer = .refused .disabledModeWithValidLines) ∧
    (¬refused → s.dc.hit line = none →
      ∃ t, answer = .next t ∧ t.dc = s.dc ∧ t.cc.hit line = none ∧ SameOtherCodeLines s t line ∧ SameMem s t ∧
        t.pc = s.pc ∧ SameOutside s t ∧ t.history = .inquire line true :: s.history) ∧
    (∀ l, ¬refused → s.dc.hit line = some l → (l.state = .M → s.runPopulated (32 * line.toNat) 32) →
      ∃ t, answer = .next t ∧ t.dc.hit line = none ∧ t.cc.hit line = none ∧ SameOtherLines s t line ∧
        SameOtherCodeLines s t line ∧ t.pc = s.pc ∧ SameOutside s t ∧
        (l.state = .M → LineInMemory s t line l.data ∧
          ∃ writes, LineWrites s line l.data writes ∧ t.history = writes ++ .inquire line true :: s.history) ∧
        (l.state ≠ .M → SameMem s t ∧ t.history = .inquire line true :: s.history)) ∧
    ∀ rest : List Move, s.cd = s.nw → s.schedule = .master (.inquireWrite line) :: rest →
      step s = masterMove interleave (.inquireWrite line) { s with schedule := rest }

/-- R64 (d): in disabled mode with every line I an inquire cycle of either kind is admitted, and but for the event
itself changes nothing; that the LRU bits stay too is the model's choice (log 21). -/
def Obligations.InquireInDisabledEmptyModeChangesNothing : Prop :=
  ∀ (s : State) (line : BitVec 27), s.cd = true → s.dc.lines = [] → s.cc.lines = [] →
    masterMove interleave (.inquireRead line) s = .next (s.log (.inquire line false)) ∧
    masterMove interleave (.inquireWrite line) s = .next (s.log (.inquire line true))

/-- R105, R113: another master's write changes memory at its bytes and nothing of the processor; its read changes
nothing but the history; a step whose next move is one of another master makes it. An access at a hole moves nothing
(the model's choice, log 37). -/
def Obligations.MasterAccessesTouchMemoryOnly : Prop :=
  ∀ (s t : State) (point : State → Result State) (first : Dword) (count : Nat) (bytes : List Byte),
    (masterMove point (.read first count) s = .next t →
      t.mem = s.mem ∧ SameCaches s t ∧ t.pc = s.pc ∧ SameOutside s t) ∧
    (masterMove point (.write first bytes) s = .next t →
      SameCaches s t ∧ t.pc = s.pc ∧ SameOutside s t ∧
      (s.runPopulated first.toNat bytes.length →
        ∀ i (h : i < bytes.length), Memory.read t.mem (first.toNat + i) = bytes[i]) ∧
      (¬s.runPopulated first.toNat bytes.length → SameMem s t) ∧
      (∀ a, a < first.toNat ∨ first.toNat + bytes.length ≤ a → Memory.read t.mem a = Memory.read s.mem a)) ∧
    ∀ (move : MasterMove) (rest : List Move), s.cd = s.nw → s.schedule = .master move :: rest →
      step s = masterMove interleave move { s with schedule := rest }

/-- R106, R81: a place inside an instruction where other masters may act makes the next list of moves, and a writeback
that one of these moves causes has the remaining lists between its quadwords; with no list left nothing happens. That
the moves come as lists is the model's choice (log 19). -/
def Obligations.PointsInsideAnInteriorWriteback : Prop :=
  ∀ s : State,
    (s.between = [] → interleave s = .next s) ∧
    (∀ (ms : List MasterMove) (rest : List (List MasterMove)), s.between = ms :: rest →
      interleave s = masterMoves interleave ms { s with between := rest })

/-- R73, R74, R72: a valid line replaced without a fill leaves its cache; a modified one reaches memory first; every
line at another place of that cache, and the other cache, stay; a step whose next move it is makes it. That a line may
be replaced without a fill is an optional move of the model, which R73 allows (the model's choice, log 39). -/
def Obligations.ReplacementRule : Prop :=
  ∀ (s : State) (set : BitVec 7) (way : Way), s.Inv → s.between = [] → s.ModifiedLinesPopulated →
    (∃ t, replaceLine .data set way s = .next t ∧ dataStateAt t.dc set way = .I ∧
      SameOtherPlaces s.dc t.dc set way ∧ t.cc = s.cc ∧ t.pc = s.pc ∧ SameOutside s t ∧ VictimInMemory s t set way ∧
      ∃ writes, VictimWrites s set way writes ∧ t.history = writes ++ s.history) ∧
    (∃ t, replaceLine .code set way s = .next t ∧ codeStateAt t.cc set way = .I ∧
      SameOtherPlaces s.cc t.cc set way ∧ t.dc = s.dc ∧ SameMem s t ∧ t.pc = s.pc ∧ SameOutside s t ∧
      t.history = s.history) ∧
    ∀ (cache : CacheName) (rest : List Move), s.cd = s.nw → s.schedule = .replaceLine cache set way :: rest →
      step s = replaceLine cache set way { s with schedule := rest }

/-- R31, R105 (bit positions from general knowledge, as R31 marks them): after a page entry is written, the addresses
of its 4-Kbyte or 4-Mbyte page carry PWT = bit 3 and PCD = bit 4 of it, and other addresses what they did; no other
state changes; a step whose next move it is makes it. R105 has software or another master change the bits by writing
memory: that the move leaves memory, since the spec gives no place of the entry, and that the entry written last
decides alone, are the model's choices (log 10), and so is that it leaves every TLB entry as it was loaded (log 47). -/
def Obligations.PageEntryWriteSetsTheAttributes : Prop :=
  ∀ (s : State) (base a entry : Dword),
    (a.toNat / 4096 = base.toNat / 4096 →
      (s.setPage base .kb4 entry).pageAttr a = ⟨entry.getLsbD 3, entry.getLsbD 4⟩) ∧
    (a.toNat / 4096 ≠ base.toNat / 4096 → (s.setPage base .kb4 entry).pageAttr a = s.pageAttr a) ∧
    (a.toNat / 4194304 = base.toNat / 4194304 →
      (s.setPage base .mb4 entry).pageAttr a = ⟨entry.getLsbD 3, entry.getLsbD 4⟩) ∧
    (a.toNat / 4194304 ≠ base.toNat / 4194304 → (s.setPage base .mb4 entry).pageAttr a = s.pageAttr a) ∧
    ∀ size, let t := s.setPage base size entry
      SameRegs s t ∧ SameSpecial s t ∧ SameMem s t ∧ SameIo s t ∧ SameCaches s t ∧ t.tlbs = s.tlbs ∧
      t.history = s.history ∧ t.fetched = s.fetched ∧ t.pc = s.pc ∧ t.schedule = s.schedule ∧ t.between = s.between ∧
      t.platform = { s.platform with pages := t.platform.pages } ∧
      ∀ rest : List Move, s.cd = s.nw → s.schedule = .setPage base size entry :: rest →
        step s = .next ({ s with schedule := rest }.setPage base size entry)

/-! ### The whole machine -/

/-- R116: the cache mode bits come out of RESET as CD = NW = 1. -/
def Obligations.ResetDisablesTheCaches : Prop :=
  State.reset.cd = true ∧ State.reset.nw = true

/-- R44, R116, R117 (cache states and TLBs from general knowledge, as R44 marks them): after RESET CPL = 0, every
line of both caches is I and the TLBs hold nothing. -/
def Obligations.ResetValues : Prop :=
  State.reset.cpl = 0 ∧ AllInvalid State.reset ∧
    State.reset.tlbs.data4k.entries = [] ∧ State.reset.tlbs.data4m.entries = [] ∧ State.reset.tlbs.code.entries = []

/-- The invariant holds at reset. -/
def Obligations.InvariantAtReset : Prop :=
  State.reset.Inv ∧ State.reset.CleanLinesAgree ∧ State.reset.NoWriteBetween

/-- R62, R34, R35, R36, R41: every step keeps the canonical form of memory and I/O space, at most one line of a set with
a given tag in each cache, and the TLBs' identity entries. -/
def Obligations.StepKeepsTheInvariant : Prop :=
  ∀ s t : State, s.Inv → step s = .next t → t.Inv

/-- R70, R73: no step but a write of another master makes a line that is not modified differ from memory. The step keeps
the invariant, and no move that it leaves inside the coming instructions writes memory. -/
def Obligations.StepKeepsCleanLinesAgreeing : Prop :=
  ∀ s t : State, s.Inv → s.CleanLinesAgree → s.NoWriteBetween → (nextMove s).1.isMasterWrite = false →
    step s = .next t → t.Inv ∧ t.CleanLinesAgree ∧ t.NoWriteBetween

/-- R84, R88, R121: no step changes what a data read of any address returns, but a write of another master and an
INVD: fetches, fills, writebacks, WBINVD, FLUSH#, inquire cycles and replacements keep the one current copy. What the
statement asks of the state before holds of the state after. -/
def Obligations.OneCopyOfMemory : Prop :=
  ∀ s t : State, s.Inv → s.CleanLinesAgree → s.NoWriteBetween → (nextMove s).1.isMasterWrite = false →
    ((nextMove s).1 = .processor → ∀ u, fetchInstr (nextMove s).2 ≠ .next (.invd, u)) →
    step s = .next t →
    (∀ a, a < 4294967296 → t.view a = s.view a) ∧ t.Inv ∧ t.CleanLinesAgree ∧ t.NoWriteBetween

/-- R17, R27, R32, R96 to R99, R110: no step changes a model specific register, CPL, the floating-point state, or a
general register other than EAX and EDX; EAX, EDX and the pc change in the processor's own moves only, and the pc by
2. That MSR 00H and 01H never change rests on the assumption no_hardware_error, under which no step raises the machine
check that writes them (R101, R102; the model's choice, log 16). -/
def Obligations.WhatStepsNeverChange : Prop :=
  ∀ s t : State, step s = .next t →
    (∀ n, t.msr n = s.msr n) ∧ t.cpl = s.cpl ∧ t.fpu = s.fpu ∧
    (∀ r, r ≠ .eax → r ≠ .edx → t.reg r = s.reg r) ∧
    ((nextMove s).1 ≠ .processor → t.regs = s.regs ∧ t.pc = s.pc) ∧
    ((nextMove s).1 = .processor → t.pc = s.pc + 2)

/-- R21, R118, R119, R123: only the move that sets both bits changes CR0; it changes CD and NW together and no other
bit. So a step never leaves the described modes (R22). In a described mode that move completes, and it changes nothing
else: the caches keep their lines, memory and I/O space their bytes, and the bus sees nothing. That the move stands in
a schedule is the model's form (log 19, log 28), and that the TLBs and the LRU bits stay is its choice (log 23). -/
def Obligations.OnlyOneMoveChangesCr0 : Prop :=
  (∀ s t : State, step s = .next t →
    ((∀ value, (nextMove s).1 ≠ .setCacheBits value) → t.cr0 = s.cr0) ∧
    (∀ value, (nextMove s).1 = .setCacheBits value →
      t.cd = value ∧ t.nw = value ∧ ∀ i, i ≠ 29 → i ≠ 30 → t.cr0.getLsbD i = s.cr0.getLsbD i) ∧
    t.cd = t.nw) ∧
  ∀ (s : State) (value : Bool) (rest : List Move), s.cd = s.nw → s.schedule = .setCacheBits value :: rest →
    ∃ t, step s = .next t ∧ t = { s with schedule := rest }.setCacheBits value ∧ t.mem = s.mem ∧ t.io = s.io ∧
      SameCaches s t ∧ t.tlbs = s.tlbs ∧ t.history = s.history ∧ SameRegs s t ∧ t.pc = s.pc ∧ t.cpl = s.cpl ∧
      (∀ n, t.msr n = s.msr n) ∧ t.fpu = s.fpu ∧ t.fetched = s.fetched ∧ t.platform = s.platform ∧
      t.between = s.between ∧ t.schedule = rest

/-- R64 (a), R119: caches that are disabled and empty stay disabled and empty in every step that does not turn them
on. -/
def Obligations.DisabledEmptyCachesStayEmpty : Prop :=
  ∀ s t : State, s.cd = true → s.dc.lines = [] → s.cc.lines = [] → (nextMove s).1 ≠ .setCacheBits false →
    step s = .next t → t.cd = true ∧ t.dc.lines = [] ∧ t.cc.lines = []

/-- R41, R36: a fetch uses the code TLB and no other, for the two bytes at pc; a data read or write the data TLB for
the page's size of each of its parts, and not the code TLB; no instruction uses any beyond its fetch. What a use of a
TLB does: by its draw it may load the identity entry of the page into a line of the page's set, and it changes that
set's replacement bits; the other sets stay. The spec models no TLB (R41, R83): that a translation does this, that no
instruction changes a TLB, the page size where R36 leaves it open, and that the first translation takes the access's
first draw, are the model's choices (log 6, log 23, log 43, log 14). -/
def Obligations.EachAccessUsesItsOwnTlb : Prop :=
  (∀ (s u : State) (i : Instr), fetchInstr s = .next (i, u) →
    u.tlbs.data4k = s.tlbs.data4k ∧ u.tlbs.data4m = s.tlbs.data4m ∧
    ∃ draw, u.tlbs = s.codeTlbsAfter (s.pc + 1) draw (s.codeTlbsAfter s.pc s.drawValue s.tlbs)) ∧
  (∀ (s t : State) (w : Width) (a : Dword) (v : Qword), memRead w a s = .next (v, t) → t.tlbs.code = s.tlbs.code ∧
    ∃ draws : List Nat, draws.length = (split a.toNat w).length ∧ draws.head? = some s.drawValue ∧
      t.tlbs = s.dataTlbsAfterParts (split a.toNat w) draws s.tlbs) ∧
  (∀ (s t : State) (w : Width) (a : Dword) (v : Qword), memWrite w a v s = .next t → t.tlbs.code = s.tlbs.code ∧
    ∃ draws : List Nat, draws.length = (split a.toNat w).length ∧ draws.head? = some s.drawValue ∧
      t.tlbs = s.dataTlbsAfterParts (split a.toNat w) draws s.tlbs) ∧
  (∀ (s t : State) (i : Instr), exec i s = .next t → t.tlbs = s.tlbs) ∧
  (∀ (sets bits : Nat) (t : Tlb sets bits) (page : BitVec bits) (attr : PageAttr) (draw : Nat), 0 < sets →
    let u := t.load page attr draw
    let set := Config.tlbIndex sets page.toNat % sets
    u.replace[set]? = some (BitVec.ofNat 3 (draw / 8)) ∧
      (∀ other, other ≠ set → u.replace[other]? = t.replace[other]?) ∧
      (draw % 2 = 0 → u.entries = t.entries) ∧
      (draw % 2 = 1 → ∃ way, way < Config.tlbWays ∧ ∀ e, e ∈ u.entries ↔
        e = ⟨set, way, page, page, attr⟩ ∨ (e ∈ t.entries ∧ ¬(e.set = set ∧ e.way = way))))

/-- R101, R102, R25, R26: raising the machine check records the cycle's address in bits 31:0 of MSR 00H and a code of
its type in MSR 01H, changes no other register, and ends the run; the codes of the five kinds differ. The position of
the address is the spec's inference, the codes are opaque (log 31). -/
def Obligations.MachineCheckRecordsTheCycle : Prop :=
  (∀ k k' : CycleKind, Config.cycleTypeCode k = Config.cycleTypeCode k' → k = k') ∧
  ∀ (s : State) (a : Dword) (kind : CycleKind),
    let t := recordMachineCheck a kind s
    t.mcAddress.extractLsb' 0 32 = a ∧ t.mcType = Config.cycleTypeCode kind ∧ t.tr12 = s.tr12 ∧ SameRegs s t ∧
    t.pc = s.pc ∧ t.cr0 = s.cr0 ∧ t.mem = s.mem ∧ SameCaches s t ∧
    raiseMachineCheck a kind s = .fault (.machineCheck t.mcAddress t.mcType)
end

