-- ==== Sys2Proof/Laws/Result.lean ====
section
/-!
SUPPORT. What a sequence of operations answers.
-/

namespace Sys2Proof.Machine

@[simp] theorem andThen_next {α β : Type} (a : α) (f : α → Result β) : andThen (.next a) f = f a := rfl

@[simp] theorem andThen_fault {α β : Type} (x : Fault) (f : α → Result β) :
    andThen (.fault x) f = .fault x := rfl

@[simp] theorem andThen_refused {α β : Type} (x : Refusal) (f : α → Result β) :
    andThen (.refused x) f = .refused x := rfl

/-- A sequence answers a value exactly when both parts do. -/
theorem andThen_eq_next {α β : Type} {r : Result α} {f : α → Result β} {b : β} :
    andThen r f = .next b ↔ ∃ a, r = .next a ∧ f a = .next b := by
  cases r <;> simp [andThen]

/-- A sequence ends in a fault when a part does. -/
theorem andThen_eq_fault {α β : Type} {r : Result α} {f : α → Result β} {x : Fault} :
    andThen r f = .fault x ↔ r = .fault x ∨ ∃ a, r = .next a ∧ f a = .fault x := by
  cases r <;> simp [andThen]

end Sys2Proof.Machine
end

