-- ==== Sys2Proof/Laws/Memory.lean ====
section
/-!
SUPPORT. Memory: a read after a write, and the canonical form that every write keeps.
-/

namespace Sys2Proof.Machine

/-! ### Reads after writes -/

theorem Memory.read_filter_other (m : List Host.Cell) {a b : Nat} (h : a ≠ b) :
    Memory.read (m.filter (fun c => c.1 != b)) a = Memory.read m a := by
  induction m with
  | nil => rfl
  | cons c rest ih =>
    by_cases hb : c.1 = b
    · have ha : c.1 ≠ a := fun e => h (e.symm.trans hb)
      simp [Memory.read, hb, ih, show b ≠ a from fun e => h e.symm]
    · simp [Memory.read, hb, ih]

theorem Memory.read_filter_same (m : List Host.Cell) (a : Nat) :
    Memory.read (m.filter (fun c => c.1 != a)) a = Config.unlistedByte := by
  induction m with
  | nil => rfl
  | cons c rest ih =>
    by_cases hb : c.1 = a
    · simp [hb, ih]
    · simp [Memory.read, hb, ih]

theorem Memory.read_insert_other (c : Host.Cell) (m : List Host.Cell) {a : Nat} (h : c.1 ≠ a) :
    Memory.read (Memory.insert c m) a = Memory.read m a := by
  induction m with
  | nil => simp [Memory.insert, Memory.read, h]
  | cons d rest ih =>
    unfold Memory.insert
    split
    · simp [Memory.read, h]
    · simp [Memory.read, ih]

theorem Memory.read_insert_same (c : Host.Cell) (m : List Host.Cell) (h : ∀ d ∈ m, d.1 ≠ c.1) :
    Memory.read (Memory.insert c m) c.1 = c.2 := by
  induction m with
  | nil => simp [Memory.insert, Memory.read]
  | cons d rest ih =>
    unfold Memory.insert
    split
    · simp [Memory.read]
    · have hd := h d (by simp)
      simp [Memory.read, hd, ih (fun e he => h e (by simp [he]))]

/-- A read of the address written gives the byte written. -/
@[simp] theorem Memory.read_write_same (m : List Host.Cell) (a : Nat) (b : Byte) :
    Memory.read (Memory.write m a b) a = b := by
  unfold Memory.write
  split
  · next h => rw [Memory.read_filter_same, h]
  · exact Memory.read_insert_same (a, b) _ (by simp)

/-- A read of any other address gives what it gave. -/
theorem Memory.read_write_other (m : List Host.Cell) {a a' : Nat} (b : Byte) (h : a' ≠ a) :
    Memory.read (Memory.write m a b) a' = Memory.read m a' := by
  unfold Memory.write
  split
  · exact Memory.read_filter_other m h
  · rw [Memory.read_insert_other _ _ (fun e => h e.symm), Memory.read_filter_other m h]

/-- Outside the run, a run of writes changes nothing. -/
theorem Memory.read_writeRun_outside (bytes : List Byte) :
    ∀ (m : List Host.Cell) (a : Nat) {x : Nat}, x < a ∨ a + bytes.length ≤ x →
      Memory.read (Memory.writeRun m a bytes) x = Memory.read m x := by
  induction bytes with
  | nil => intros; rfl
  | cons b rest ih =>
    intro m a x h
    simp only [List.length_cons] at h
    rw [Memory.writeRun, ih _ _ (by omega), Memory.read_write_other _ _ (by omega)]

/-- Inside the run, a run of writes leaves its bytes. -/
theorem Memory.read_writeRun_inside (bytes : List Byte) :
    ∀ (m : List Host.Cell) (a i : Nat) (h : i < bytes.length),
      Memory.read (Memory.writeRun m a bytes) (a + i) = bytes[i] := by
  induction bytes with
  | nil => intro _ _ _ h; simp at h
  | cons b rest ih =>
    intro m a i h
    rw [Memory.writeRun]
    cases i with
    | zero => rw [Memory.read_writeRun_outside _ _ _ (by omega)]; simp
    | succ k =>
      have := ih (Memory.write m a b) (a + 1) k (by simpa using h)
      rw [show a + (k + 1) = a + 1 + k by omega, this]; rfl

@[simp] theorem Memory.length_readRun (m : List Host.Cell) (a n : Nat) :
    (Memory.readRun m a n).length = n := by
  simp [Memory.readRun]

@[simp] theorem Memory.getElem_readRun (m : List Host.Cell) (a n i : Nat)
    (h : i < (Memory.readRun m a n).length) : (Memory.readRun m a n)[i] = Memory.read m (a + i) := by
  simp [Memory.readRun]

/-! ### The canonical form -/

theorem Memory.mem_insert {c d : Host.Cell} {m : List Host.Cell} :
    d ∈ Memory.insert c m ↔ d = c ∨ d ∈ m := by
  induction m with
  | nil => simp [Memory.insert]
  | cons e rest ih =>
    unfold Memory.insert
    split
    · simp
    · simp only [List.mem_cons, ih]
      constructor
      · rintro (h | h | h) <;> simp [h]
      · rintro (h | h | h) <;> simp [h]

theorem Memory.pairwise_insert {c : Host.Cell} {m : List Host.Cell}
    (hs : m.Pairwise (fun x y => x.1 < y.1)) (hc : ∀ d ∈ m, d.1 ≠ c.1) :
    (Memory.insert c m).Pairwise (fun x y => x.1 < y.1) := by
  induction m with
  | nil => simp [Memory.insert]
  | cons d rest ih =>
    unfold Memory.insert
    obtain ⟨hd, hr⟩ := List.pairwise_cons.1 hs
    split
    · next h =>
      refine List.pairwise_cons.2 ⟨fun x hx => ?_, hs⟩
      rcases List.mem_cons.1 hx with rfl | hx
      · exact h
      · exact Nat.lt_trans h (hd x hx)
    · next h =>
      refine List.pairwise_cons.2 ⟨fun x hx => ?_, ih hr (fun e he => hc e (by simp [he]))⟩
      rcases Memory.mem_insert.1 hx with rfl | hx
      · have := hc d (by simp); omega
      · exact hd x hx

/-- A write inside the space keeps the canonical form. -/
theorem Memory.wf_write {size : Nat} {m : List Host.Cell} (hm : Memory.wf size m) {a : Nat} (b : Byte)
    (ha : a < size) : Memory.wf size (Memory.write m a b) := by
  have hf : (m.filter (fun c => c.1 != a)).Pairwise (fun c d => c.1 < d.1) := hm.1.filter _
  unfold Memory.write
  split
  · exact ⟨hf, fun c hc => hm.2 c (List.mem_filter.1 hc).1⟩
  · next hb =>
    refine ⟨Memory.pairwise_insert hf (by simp), fun c hc => ?_⟩
    rcases Memory.mem_insert.1 hc with rfl | hc
    · exact ⟨ha, hb⟩
    · exact hm.2 c (List.mem_filter.1 hc).1

/-- A run of writes inside the space keeps the canonical form. -/
theorem Memory.wf_writeRun {size : Nat} (bytes : List Byte) :
    ∀ {m : List Host.Cell}, Memory.wf size m → ∀ a, a + bytes.length ≤ size →
      Memory.wf size (Memory.writeRun m a bytes) := by
  induction bytes with
  | nil => intro m hm _ _; exact hm
  | cons b rest ih =>
    intro m hm a h
    simp only [List.length_cons] at h
    exact ih (Memory.wf_write hm b (by omega)) _ (by omega)

end Sys2Proof.Machine
end

