-- ==== Sys2Proof/Laws/Cache.lean ====
section
/-!
SUPPORT. The caches as lists of lines: the fields of an address, membership after each update, the canonical form,
hits.
-/

namespace Sys2Proof.Machine

/-! ### Address fields -/

@[simp] theorem lineSet_lineAddress (t : BitVec 20) (s : BitVec 7) : lineSet (lineAddress t s) = s := by
  apply BitVec.eq_of_toNat_eq
  simp only [lineSet, lineAddress, BitVec.extractLsb'_toNat, BitVec.toNat_append, Nat.shiftRight_zero]
  rw [Nat.shiftLeft_eq, Nat.or_comm, ← Nat.shiftLeft_eq, Nat.or_comm, ← Nat.shiftLeft_add_eq_or_of_lt s.isLt]
  rw [Nat.shiftLeft_eq]; have := s.isLt; omega

@[simp] theorem lineTag_lineAddress (t : BitVec 20) (s : BitVec 7) : lineTag (lineAddress t s) = t := by
  apply BitVec.eq_of_toNat_eq
  simp only [lineTag, lineAddress, BitVec.extractLsb'_toNat, BitVec.toNat_append]
  rw [← Nat.shiftLeft_add_eq_or_of_lt s.isLt, Nat.shiftLeft_eq, Nat.shiftRight_eq_div_pow]
  have := s.isLt; have := t.isLt; omega

theorem toNat_lineAddress (t : BitVec 20) (s : BitVec 7) :
    (lineAddress t s).toNat = 128 * t.toNat + s.toNat := by
  simp only [lineAddress, BitVec.toNat_append]
  rw [← Nat.shiftLeft_add_eq_or_of_lt s.isLt, Nat.shiftLeft_eq]; omega

theorem toNat_lineSet (l : BitVec 27) : (lineSet l).toNat = l.toNat % 128 := by
  simp [lineSet, BitVec.extractLsb'_toNat]

theorem toNat_lineTag (l : BitVec 27) : (lineTag l).toNat = l.toNat / 128 := by
  simp only [lineTag, BitVec.extractLsb'_toNat, Nat.shiftRight_eq_div_pow]
  have := l.isLt; omega

@[simp] theorem lineAddress_fields (l : BitVec 27) : lineAddress (lineTag l) (lineSet l) = l := by
  apply BitVec.eq_of_toNat_eq
  rw [toNat_lineAddress, toNat_lineTag, toNat_lineSet]; omega

theorem toNat_lineOf (a : Dword) : (lineOf a).toNat = a.toNat / 32 := by
  simp only [lineOf, BitVec.extractLsb'_toNat, Nat.shiftRight_eq_div_pow]
  have := a.isLt; omega

theorem offsetOf_eq (a : Dword) : offsetOf a = a.toNat % 32 := by
  simp [offsetOf, BitVec.extractLsb'_toNat]

theorem toNat_lineQuad (l : BitVec 27) {q : Nat} (h : q < 4) :
    (lineQuad l q).toNat = 32 * l.toNat + 8 * q := by
  have hl := l.isLt
  have h0 : (l ++ (0 : BitVec 5)).toNat = 32 * l.toNat := by
    simp only [BitVec.toNat_append]
    rw [← Nat.shiftLeft_add_eq_or_of_lt (by simp), Nat.shiftLeft_eq]; simp; omega
  simp only [lineQuad, BitVec.toNat_add, h0, BitVec.toNat_ofNat]
  omega

theorem lineOf_byteAddress (l : BitVec 27) {o : Nat} (h : o < 32) :
    lineOf (BitVec.ofNat 32 (32 * l.toNat + o)) = l := by
  apply BitVec.eq_of_toNat_eq
  have hl := l.isLt
  rw [toNat_lineOf, BitVec.toNat_ofNat]; omega

/-! ### Places -/

theorem place_eq_iff {σ τ : Type} (x : CacheLine σ) (y : CacheLine τ) :
    x.place = y.place ↔ x.set = y.set ∧ x.way = y.way := by
  unfold CacheLine.place
  rw [← BitVec.toNat_inj]
  cases hx : x.way <;> cases hy : y.way <;> simp [Way.number] <;> omega

theorem place_eq_number_iff {σ : Type} (x : CacheLine σ) (s : BitVec 7) (w : Way) :
    x.place = 2 * s.toNat + w.number ↔ x.set = s ∧ x.way = w := by
  unfold CacheLine.place
  rw [← BitVec.toNat_inj]
  cases hx : x.way <;> cases w <;> simp [Way.number] <;> omega

/-! ### Membership -/

theorem mem_insertLine {σ : Type} {l x : CacheLine σ} {ls : List (CacheLine σ)} :
    x ∈ insertLine l ls ↔ x = l ∨ x ∈ ls := by
  induction ls with
  | nil => simp [insertLine]
  | cons y rest ih =>
    unfold insertLine
    split
    · simp
    · simp only [List.mem_cons, ih]
      constructor <;> rintro (h | h | h) <;> simp [h]

theorem mem_put {σ : Type} {c : Cache σ} {l x : CacheLine σ} :
    x ∈ (c.put l).lines ↔ x = l ∨ (x ∈ c.lines ∧ x.place ≠ l.place) := by
  simp [Cache.put, mem_insertLine]

theorem mem_drop {σ : Type} {c : Cache σ} {s : BitVec 7} {w : Way} {x : CacheLine σ} :
    x ∈ (c.drop s w).lines ↔ x ∈ c.lines ∧ ¬(x.set = s ∧ x.way = w) := by
  simp [Cache.drop, place_eq_number_iff]

@[simp] theorem lines_setLru {σ : Type} (c : Cache σ) (s : BitVec 7) (b : Bool) :
    (c.setLru s b).lines = c.lines := rfl

@[simp] theorem lines_invalidate {σ : Type} (c : Cache σ) : c.invalidate.lines = [] := rfl

/-! ### The canonical form -/

theorem pairwise_insertLine {σ : Type} {l : CacheLine σ} {ls : List (CacheLine σ)}
    (hs : ls.Pairwise (fun x y => x.place < y.place)) (hl : ∀ x ∈ ls, x.place ≠ l.place) :
    (insertLine l ls).Pairwise (fun x y => x.place < y.place) := by
  induction ls with
  | nil => simp [insertLine]
  | cons d rest ih =>
    unfold insertLine
    obtain ⟨hd, hr⟩ := List.pairwise_cons.1 hs
    split
    · next h =>
      refine List.pairwise_cons.2 ⟨fun x hx => ?_, hs⟩
      rcases List.mem_cons.1 hx with rfl | hx
      · exact h
      · exact Nat.lt_trans h (hd x hx)
    · next h =>
      refine List.pairwise_cons.2 ⟨fun x hx => ?_, ih hr (fun e he => hl e (by simp [he]))⟩
      rcases mem_insertLine.1 hx with rfl | hx
      · have := hl d (by simp); omega
      · exact hd x hx

theorem distinct_insertLine {σ : Type} {l : CacheLine σ} {ls : List (CacheLine σ)}
    (hs : ls.Pairwise (fun x y => ¬(x.set = y.set ∧ x.tag = y.tag)))
    (hl : ∀ x ∈ ls, ¬(x.set = l.set ∧ x.tag = l.tag)) :
    (insertLine l ls).Pairwise (fun x y => ¬(x.set = y.set ∧ x.tag = y.tag)) := by
  induction ls with
  | nil => simp [insertLine]
  | cons d rest ih =>
    unfold insertLine
    obtain ⟨hd, hr⟩ := List.pairwise_cons.1 hs
    split
    · exact List.pairwise_cons.2 ⟨fun x hx e => hl x hx ⟨e.1.symm, e.2.symm⟩, hs⟩
    · refine List.pairwise_cons.2 ⟨fun x hx => ?_, ih hr (fun e he => hl e (by simp [he]))⟩
      rcases mem_insertLine.1 hx with rfl | hx
      · exact hl d (by simp)
      · exact hd x hx

theorem wf_drop {σ : Type} {c : Cache σ} (h : c.wf) (s : BitVec 7) (w : Way) : (c.drop s w).wf :=
  ⟨h.1.filter _, h.2.filter _⟩

theorem wf_setLru {σ : Type} {c : Cache σ} (h : c.wf) (s : BitVec 7) (b : Bool) : (c.setLru s b).wf := h

theorem wf_invalidate {σ : Type} (c : Cache σ) : c.invalidate.wf := ⟨.nil, .nil⟩

theorem wf_put {σ : Type} {c : Cache σ} {l : CacheLine σ} (h : c.wf)
    (hl : ∀ x ∈ c.lines, x.place ≠ l.place → ¬(x.set = l.set ∧ x.tag = l.tag)) : (c.put l).wf :=
  ⟨pairwise_insertLine (h.1.filter _) (by simp),
    distinct_insertLine (h.2.filter _) (fun x hx => by
      obtain ⟨hx, hp⟩ := List.mem_filter.1 hx
      exact hl x hx (by simpa using hp))⟩

/-! ### Hits -/

theorem address_eq_iff {σ : Type} (x : CacheLine σ) (line : BitVec 27) :
    x.address = line ↔ x.set = lineSet line ∧ x.tag = lineTag line := by
  constructor
  · rintro rfl; simp [CacheLine.address]
  · rintro ⟨h, h'⟩; simp [CacheLine.address, h, h']

/-- No line hits exactly when no line has the address. -/
theorem hit_eq_none {σ : Type} {c : Cache σ} {line : BitVec 27} :
    c.hit line = none ↔ ∀ x ∈ c.lines, x.address ≠ line := by
  simp only [Cache.hit, List.find?_eq_none, Ne, address_eq_iff]
  simp

/-- A line that hits is in the cache and has the address. -/
theorem hit_spec {σ : Type} {c : Cache σ} {line : BitVec 27} {l : CacheLine σ} (h : c.hit line = some l) :
    l ∈ c.lines ∧ l.address = line := by
  have h1 := List.find?_some h
  refine ⟨List.mem_of_find?_eq_some h, (address_eq_iff l line).2 ?_⟩
  simpa using h1

/-- Two members of a list whose elements are pairwise unrelated are equal if they are related. -/
theorem eq_of_pairwise_not {α : Type} {r : α → α → Prop} (hr : ∀ a b, r a b → r b a) {l : List α}
    (h : l.Pairwise (fun a b => ¬ r a b)) {x y : α} (hx : x ∈ l) (hy : y ∈ l) (e : r x y) : x = y := by
  induction l with
  | nil => simp at hx
  | cons d rest ih =>
    obtain ⟨hd, hrest⟩ := List.pairwise_cons.1 h
    rcases List.mem_cons.1 hx with hx | hx <;> rcases List.mem_cons.1 hy with hy | hy
    · rw [hx, hy]
    · exact absurd (hx ▸ e) (hd y hy)
    · exact absurd (hr _ _ (hy ▸ e)) (hd x hx)
    · exact ih hrest hx hy

theorem place_inj {σ : Type} {c : Cache σ} (h : c.wf) {x y : CacheLine σ} (hx : x ∈ c.lines)
    (hy : y ∈ c.lines) (e : x.place = y.place) : x = y :=
  eq_of_pairwise_not (r := fun a b : CacheLine σ => a.place = b.place) (fun _ _ h => h.symm)
    (h.1.imp (fun {_ _} h => Nat.ne_of_lt h)) hx hy e

theorem address_inj {σ : Type} {c : Cache σ} (h : c.wf) {x y : CacheLine σ} (hx : x ∈ c.lines)
    (hy : y ∈ c.lines) (e : x.address = y.address) : x = y := by
  have e' := (address_eq_iff x y.address).1 e
  have hy' := (address_eq_iff y y.address).1 rfl
  exact eq_of_pairwise_not (r := fun a b : CacheLine σ => a.set = b.set ∧ a.tag = b.tag)
    (fun _ _ h => ⟨h.1.symm, h.2.symm⟩) h.2 hx hy ⟨e'.1.trans hy'.1.symm, e'.2.trans hy'.2.symm⟩

/-- In a cache in canonical form a line hits its own address. -/
theorem hit_eq_some {σ : Type} {c : Cache σ} (h : c.wf) {line : BitVec 27} {l : CacheLine σ} :
    c.hit line = some l ↔ l ∈ c.lines ∧ l.address = line := by
  refine ⟨hit_spec, fun ⟨hm, ha⟩ => ?_⟩
  cases hc : c.hit line with
  | none => exact absurd ha (hit_eq_none.1 hc l hm)
  | some x =>
    obtain ⟨hx, hax⟩ := hit_spec hc
    rw [address_inj h hx hm (hax.trans ha.symm)]

theorem lineAt_eq_none {σ : Type} {c : Cache σ} {s : BitVec 7} {w : Way} :
    c.lineAt s w = none ↔ ∀ x ∈ c.lines, ¬(x.set = s ∧ x.way = w) := by
  simp [Cache.lineAt, List.find?_eq_none]

theorem lineAt_spec {σ : Type} {c : Cache σ} {s : BitVec 7} {w : Way} {l : CacheLine σ}
    (h : c.lineAt s w = some l) : l ∈ c.lines ∧ l.set = s ∧ l.way = w := by
  have h1 := List.find?_some h
  exact ⟨List.mem_of_find?_eq_some h, by simpa using h1⟩

/-! ### Places after an update -/

@[simp] theorem lineAt_setLru {σ : Type} (c : Cache σ) (s : BitVec 7) (b : Bool) (set : BitVec 7) (way : Way) :
    (c.setLru s b).lineAt set way = c.lineAt set way := rfl

@[simp] theorem lineAt_drop_same {σ : Type} (c : Cache σ) (set : BitVec 7) (way : Way) :
    (c.drop set way).lineAt set way = none :=
  lineAt_eq_none.2 fun _ hx e => (mem_drop.1 hx).2 e

theorem find?_insertLine_other {σ : Type} {l : CacheLine σ} {p : CacheLine σ → Bool} (h : p l = false) :
    ∀ ls : List (CacheLine σ), (insertLine l ls).find? p = ls.find? p
  | [] => by simp [insertLine, h]
  | x :: rest => by
    unfold insertLine
    split
    · simp [h]
    · simp only [List.find?_cons, find?_insertLine_other h rest]

theorem find?_insertLine_same {σ : Type} {l : CacheLine σ} {p : CacheLine σ → Bool} (h : p l = true) :
    ∀ ls : List (CacheLine σ), (∀ x ∈ ls, p x = false) → (insertLine l ls).find? p = some l
  | [], _ => by simp [insertLine, h]
  | x :: rest, hn => by
    unfold insertLine
    split
    · simp [h]
    · simp only [List.find?_cons, hn x (by simp)]
      exact find?_insertLine_same h rest fun y hy => hn y (by simp [hy])

theorem find?_filter_of {α : Type} {p q : α → Bool} (h : ∀ x, q x = true → p x = true) (ls : List α) :
    (ls.filter p).find? q = ls.find? q := by
  rw [List.find?_filter]
  congr 1
  funext x
  cases hq : q x with
  | false => simp
  | true => simp [h x hq]

/-- Dropping a line leaves the line at every other place. -/
theorem lineAt_drop_other {σ : Type} {c : Cache σ} {set set' : BitVec 7} {way way' : Way}
    (h : ¬(set' = set ∧ way' = way)) : (c.drop set way).lineAt set' way' = c.lineAt set' way' := by
  refine find?_filter_of (fun x hx => ?_) c.lines
  rw [bne_iff_ne, Ne, place_eq_number_iff]
  simp only [Bool.and_eq_true, beq_iff_eq] at hx
  rintro ⟨h1, h2⟩
  exact h ⟨hx.1.symm.trans h1, hx.2.symm.trans h2⟩

/-- A line put in its place is there. -/
theorem lineAt_put_same {σ : Type} (c : Cache σ) (l : CacheLine σ) : (c.put l).lineAt l.set l.way = some l := by
  refine find?_insertLine_same (by simp) _ fun x hx => ?_
  have := (List.mem_filter.1 hx).2
  rw [bne_iff_ne, Ne, place_eq_iff] at this
  simpa using this

/-- Putting a line leaves the line at every other place. -/
theorem lineAt_put_other {σ : Type} {c : Cache σ} {l : CacheLine σ} {set : BitVec 7} {way : Way}
    (h : ¬(set = l.set ∧ way = l.way)) : (c.put l).lineAt set way = c.lineAt set way := by
  refine (find?_insertLine_other ?_ _).trans (find?_filter_of (fun x hx => ?_) c.lines)
  · simp only [Bool.and_eq_false_iff, beq_eq_false_iff_ne, Ne]
    rcases Decidable.not_and_iff_or_not.1 h with h | h
    · exact .inl fun e => h e.symm
    · exact .inr fun e => h e.symm
  · rw [bne_iff_ne, Ne, place_eq_iff]
    simp only [Bool.and_eq_true, beq_iff_eq] at hx
    rintro ⟨h1, h2⟩
    exact h ⟨hx.1.symm.trans h1, hx.2.symm.trans h2⟩

theorem SameOtherPlaces.trans {σ : Type} {c d e : Cache σ} {set : BitVec 7} {way : Way}
    (h : SameOtherPlaces c d set way) (h' : SameOtherPlaces d e set way) : SameOtherPlaces c e set way :=
  fun s w hn => (h' s w hn).trans (h s w hn)

theorem sameOtherPlaces_drop {σ : Type} (c : Cache σ) (set : BitVec 7) (way : Way) :
    SameOtherPlaces c (c.drop set way) set way := fun _ _ => lineAt_drop_other

theorem sameOtherPlaces_put {σ : Type} (c : Cache σ) (l : CacheLine σ) : SameOtherPlaces c (c.put l) l.set l.way :=
  fun _ _ => lineAt_put_other

/-- In a cache in canonical form a line is found at its place. -/
theorem lineAt_eq_some {σ : Type} {c : Cache σ} (h : c.wf) {set : BitVec 7} {way : Way} {l : CacheLine σ} :
    c.lineAt set way = some l ↔ l ∈ c.lines ∧ l.set = set ∧ l.way = way := by
  refine ⟨lineAt_spec, fun ⟨hm, hs, hw⟩ => ?_⟩
  cases hc : c.lineAt set way with
  | none => exact absurd ⟨hs, hw⟩ (lineAt_eq_none.1 hc l hm)
  | some x =>
    obtain ⟨hx, hs', hw'⟩ := lineAt_spec hc
    rw [place_inj h hx hm ((place_eq_iff x l).2 ⟨hs'.trans hs.symm, hw'.trans hw.symm⟩)]

end Sys2Proof.Machine
end

