-- ==== Sys2Proof/Laws/State.lean ====
section
/-!
SUPPORT. What each update of the state does to each field: one lemma a field, so that no proof unfolds a record.
-/

namespace Sys2Proof.Machine

/-! ### setReg -/

@[simp] theorem setReg_regs (s : State) (r : Reg) (v : Dword) :
    (s.setReg r v).regs = s.regs.set r.index.val v := rfl

@[simp] theorem setReg_pc (s : State) (r : Reg) (v : Dword) :
    (s.setReg r v).pc = s.pc := rfl

@[simp] theorem setReg_cr0 (s : State) (r : Reg) (v : Dword) :
    (s.setReg r v).cr0 = s.cr0 := rfl

@[simp] theorem setReg_cpl (s : State) (r : Reg) (v : Dword) :
    (s.setReg r v).cpl = s.cpl := rfl

@[simp] theorem setReg_mcAddress (s : State) (r : Reg) (v : Dword) :
    (s.setReg r v).mcAddress = s.mcAddress := rfl

@[simp] theorem setReg_mcType (s : State) (r : Reg) (v : Dword) :
    (s.setReg r v).mcType = s.mcType := rfl

@[simp] theorem setReg_tr12 (s : State) (r : Reg) (v : Dword) :
    (s.setReg r v).tr12 = s.tr12 := rfl

@[simp] theorem setReg_fpu (s : State) (r : Reg) (v : Dword) :
    (s.setReg r v).fpu = s.fpu := rfl

@[simp] theorem setReg_mem (s : State) (r : Reg) (v : Dword) :
    (s.setReg r v).mem = s.mem := rfl

@[simp] theorem setReg_io (s : State) (r : Reg) (v : Dword) :
    (s.setReg r v).io = s.io := rfl

@[simp] theorem setReg_dc (s : State) (r : Reg) (v : Dword) :
    (s.setReg r v).dc = s.dc := rfl

@[simp] theorem setReg_cc (s : State) (r : Reg) (v : Dword) :
    (s.setReg r v).cc = s.cc := rfl

@[simp] theorem setReg_tlbs (s : State) (r : Reg) (v : Dword) :
    (s.setReg r v).tlbs = s.tlbs := rfl

@[simp] theorem setReg_history (s : State) (r : Reg) (v : Dword) :
    (s.setReg r v).history = s.history := rfl

@[simp] theorem setReg_schedule (s : State) (r : Reg) (v : Dword) :
    (s.setReg r v).schedule = s.schedule := rfl

@[simp] theorem setReg_between (s : State) (r : Reg) (v : Dword) :
    (s.setReg r v).between = s.between := rfl

@[simp] theorem setReg_script (s : State) (r : Reg) (v : Dword) :
    (s.setReg r v).script = s.script := rfl

@[simp] theorem setReg_drawCount (s : State) (r : Reg) (v : Dword) :
    (s.setReg r v).drawCount = s.drawCount := rfl

@[simp] theorem setReg_fetched (s : State) (r : Reg) (v : Dword) :
    (s.setReg r v).fetched = s.fetched := rfl

@[simp] theorem setReg_platform (s : State) (r : Reg) (v : Dword) :
    (s.setReg r v).platform = s.platform := rfl

/-! ### advance -/

@[simp] theorem advance_regs (s : State) :
    s.advance.regs = s.regs := rfl

@[simp] theorem advance_pc (s : State) :
    s.advance.pc = s.pc + 2 := rfl

@[simp] theorem advance_cr0 (s : State) :
    s.advance.cr0 = s.cr0 := rfl

@[simp] theorem advance_cpl (s : State) :
    s.advance.cpl = s.cpl := rfl

@[simp] theorem advance_mcAddress (s : State) :
    s.advance.mcAddress = s.mcAddress := rfl

@[simp] theorem advance_mcType (s : State) :
    s.advance.mcType = s.mcType := rfl

@[simp] theorem advance_tr12 (s : State) :
    s.advance.tr12 = s.tr12 := rfl

@[simp] theorem advance_fpu (s : State) :
    s.advance.fpu = s.fpu := rfl

@[simp] theorem advance_mem (s : State) :
    s.advance.mem = s.mem := rfl

@[simp] theorem advance_io (s : State) :
    s.advance.io = s.io := rfl

@[simp] theorem advance_dc (s : State) :
    s.advance.dc = s.dc := rfl

@[simp] theorem advance_cc (s : State) :
    s.advance.cc = s.cc := rfl

@[simp] theorem advance_tlbs (s : State) :
    s.advance.tlbs = s.tlbs := rfl

@[simp] theorem advance_history (s : State) :
    s.advance.history = s.history := rfl

@[simp] theorem advance_schedule (s : State) :
    s.advance.schedule = s.schedule := rfl

@[simp] theorem advance_between (s : State) :
    s.advance.between = s.between := rfl

@[simp] theorem advance_script (s : State) :
    s.advance.script = s.script := rfl

@[simp] theorem advance_drawCount (s : State) :
    s.advance.drawCount = s.drawCount := rfl

@[simp] theorem advance_fetched (s : State) :
    s.advance.fetched = s.fetched := rfl

@[simp] theorem advance_platform (s : State) :
    s.advance.platform = s.platform := rfl

/-! ### setCacheBits -/

@[simp] theorem setCacheBits_regs (s : State) (v : Bool) :
    (s.setCacheBits v).regs = s.regs := rfl

@[simp] theorem setCacheBits_pc (s : State) (v : Bool) :
    (s.setCacheBits v).pc = s.pc := rfl

@[simp] theorem setCacheBits_cr0 (s : State) (v : Bool) :
    (s.setCacheBits v).cr0 = if v then s.cr0 ||| 0x60000000 else s.cr0 &&& 0x9FFFFFFF := rfl

@[simp] theorem setCacheBits_cpl (s : State) (v : Bool) :
    (s.setCacheBits v).cpl = s.cpl := rfl

@[simp] theorem setCacheBits_mcAddress (s : State) (v : Bool) :
    (s.setCacheBits v).mcAddress = s.mcAddress := rfl

@[simp] theorem setCacheBits_mcType (s : State) (v : Bool) :
    (s.setCacheBits v).mcType = s.mcType := rfl

@[simp] theorem setCacheBits_tr12 (s : State) (v : Bool) :
    (s.setCacheBits v).tr12 = s.tr12 := rfl

@[simp] theorem setCacheBits_fpu (s : State) (v : Bool) :
    (s.setCacheBits v).fpu = s.fpu := rfl

@[simp] theorem setCacheBits_mem (s : State) (v : Bool) :
    (s.setCacheBits v).mem = s.mem := rfl

@[simp] theorem setCacheBits_io (s : State) (v : Bool) :
    (s.setCacheBits v).io = s.io := rfl

@[simp] theorem setCacheBits_dc (s : State) (v : Bool) :
    (s.setCacheBits v).dc = s.dc := rfl

@[simp] theorem setCacheBits_cc (s : State) (v : Bool) :
    (s.setCacheBits v).cc = s.cc := rfl

@[simp] theorem setCacheBits_tlbs (s : State) (v : Bool) :
    (s.setCacheBits v).tlbs = s.tlbs := rfl

@[simp] theorem setCacheBits_history (s : State) (v : Bool) :
    (s.setCacheBits v).history = s.history := rfl

@[simp] theorem setCacheBits_schedule (s : State) (v : Bool) :
    (s.setCacheBits v).schedule = s.schedule := rfl

@[simp] theorem setCacheBits_between (s : State) (v : Bool) :
    (s.setCacheBits v).between = s.between := rfl

@[simp] theorem setCacheBits_script (s : State) (v : Bool) :
    (s.setCacheBits v).script = s.script := rfl

@[simp] theorem setCacheBits_drawCount (s : State) (v : Bool) :
    (s.setCacheBits v).drawCount = s.drawCount := rfl

@[simp] theorem setCacheBits_fetched (s : State) (v : Bool) :
    (s.setCacheBits v).fetched = s.fetched := rfl

@[simp] theorem setCacheBits_platform (s : State) (v : Bool) :
    (s.setCacheBits v).platform = s.platform := rfl

/-! ### afterDraw -/

@[simp] theorem afterDraw_regs (s : State) :
    s.afterDraw.regs = s.regs := rfl

@[simp] theorem afterDraw_pc (s : State) :
    s.afterDraw.pc = s.pc := rfl

@[simp] theorem afterDraw_cr0 (s : State) :
    s.afterDraw.cr0 = s.cr0 := rfl

@[simp] theorem afterDraw_cpl (s : State) :
    s.afterDraw.cpl = s.cpl := rfl

@[simp] theorem afterDraw_mcAddress (s : State) :
    s.afterDraw.mcAddress = s.mcAddress := rfl

@[simp] theorem afterDraw_mcType (s : State) :
    s.afterDraw.mcType = s.mcType := rfl

@[simp] theorem afterDraw_tr12 (s : State) :
    s.afterDraw.tr12 = s.tr12 := rfl

@[simp] theorem afterDraw_fpu (s : State) :
    s.afterDraw.fpu = s.fpu := rfl

@[simp] theorem afterDraw_mem (s : State) :
    s.afterDraw.mem = s.mem := rfl

@[simp] theorem afterDraw_io (s : State) :
    s.afterDraw.io = s.io := rfl

@[simp] theorem afterDraw_dc (s : State) :
    s.afterDraw.dc = s.dc := rfl

@[simp] theorem afterDraw_cc (s : State) :
    s.afterDraw.cc = s.cc := rfl

@[simp] theorem afterDraw_tlbs (s : State) :
    s.afterDraw.tlbs = s.tlbs := rfl

@[simp] theorem afterDraw_history (s : State) :
    s.afterDraw.history = s.history := rfl

@[simp] theorem afterDraw_schedule (s : State) :
    s.afterDraw.schedule = s.schedule := rfl

@[simp] theorem afterDraw_between (s : State) :
    s.afterDraw.between = s.between := rfl

@[simp] theorem afterDraw_script (s : State) :
    s.afterDraw.script = s.script.tail := rfl

@[simp] theorem afterDraw_drawCount (s : State) :
    s.afterDraw.drawCount = s.drawCount + 1 := rfl

@[simp] theorem afterDraw_fetched (s : State) :
    s.afterDraw.fetched = s.fetched := rfl

@[simp] theorem afterDraw_platform (s : State) :
    s.afterDraw.platform = s.platform := rfl

/-! ### log -/

@[simp] theorem log_regs (s : State) (e : BusEvent) :
    (s.log e).regs = s.regs := rfl

@[simp] theorem log_pc (s : State) (e : BusEvent) :
    (s.log e).pc = s.pc := rfl

@[simp] theorem log_cr0 (s : State) (e : BusEvent) :
    (s.log e).cr0 = s.cr0 := rfl

@[simp] theorem log_cpl (s : State) (e : BusEvent) :
    (s.log e).cpl = s.cpl := rfl

@[simp] theorem log_mcAddress (s : State) (e : BusEvent) :
    (s.log e).mcAddress = s.mcAddress := rfl

@[simp] theorem log_mcType (s : State) (e : BusEvent) :
    (s.log e).mcType = s.mcType := rfl

@[simp] theorem log_tr12 (s : State) (e : BusEvent) :
    (s.log e).tr12 = s.tr12 := rfl

@[simp] theorem log_fpu (s : State) (e : BusEvent) :
    (s.log e).fpu = s.fpu := rfl

@[simp] theorem log_mem (s : State) (e : BusEvent) :
    (s.log e).mem = s.mem := rfl

@[simp] theorem log_io (s : State) (e : BusEvent) :
    (s.log e).io = s.io := rfl

@[simp] theorem log_dc (s : State) (e : BusEvent) :
    (s.log e).dc = s.dc := rfl

@[simp] theorem log_cc (s : State) (e : BusEvent) :
    (s.log e).cc = s.cc := rfl

@[simp] theorem log_tlbs (s : State) (e : BusEvent) :
    (s.log e).tlbs = s.tlbs := rfl

@[simp] theorem log_history (s : State) (e : BusEvent) :
    (s.log e).history = e :: s.history := rfl

@[simp] theorem log_schedule (s : State) (e : BusEvent) :
    (s.log e).schedule = s.schedule := rfl

@[simp] theorem log_between (s : State) (e : BusEvent) :
    (s.log e).between = s.between := rfl

@[simp] theorem log_script (s : State) (e : BusEvent) :
    (s.log e).script = s.script := rfl

@[simp] theorem log_drawCount (s : State) (e : BusEvent) :
    (s.log e).drawCount = s.drawCount := rfl

@[simp] theorem log_fetched (s : State) (e : BusEvent) :
    (s.log e).fetched = s.fetched := rfl

@[simp] theorem log_platform (s : State) (e : BusEvent) :
    (s.log e).platform = s.platform := rfl

/-! ### specialCycle -/

@[simp] theorem specialCycle_regs (s : State) (c : SpecialCycle) :
    (s.specialCycle c).regs = s.regs := rfl

@[simp] theorem specialCycle_pc (s : State) (c : SpecialCycle) :
    (s.specialCycle c).pc = s.pc := rfl

@[simp] theorem specialCycle_cr0 (s : State) (c : SpecialCycle) :
    (s.specialCycle c).cr0 = s.cr0 := rfl

@[simp] theorem specialCycle_cpl (s : State) (c : SpecialCycle) :
    (s.specialCycle c).cpl = s.cpl := rfl

@[simp] theorem specialCycle_mcAddress (s : State) (c : SpecialCycle) :
    (s.specialCycle c).mcAddress = s.mcAddress := rfl

@[simp] theorem specialCycle_mcType (s : State) (c : SpecialCycle) :
    (s.specialCycle c).mcType = s.mcType := rfl

@[simp] theorem specialCycle_tr12 (s : State) (c : SpecialCycle) :
    (s.specialCycle c).tr12 = s.tr12 := rfl

@[simp] theorem specialCycle_fpu (s : State) (c : SpecialCycle) :
    (s.specialCycle c).fpu = s.fpu := rfl

@[simp] theorem specialCycle_mem (s : State) (c : SpecialCycle) :
    (s.specialCycle c).mem = s.mem := rfl

@[simp] theorem specialCycle_io (s : State) (c : SpecialCycle) :
    (s.specialCycle c).io = s.io := rfl

@[simp] theorem specialCycle_dc (s : State) (c : SpecialCycle) :
    (s.specialCycle c).dc = s.dc := rfl

@[simp] theorem specialCycle_cc (s : State) (c : SpecialCycle) :
    (s.specialCycle c).cc = s.cc := rfl

@[simp] theorem specialCycle_tlbs (s : State) (c : SpecialCycle) :
    (s.specialCycle c).tlbs = s.tlbs := rfl

@[simp] theorem specialCycle_history (s : State) (c : SpecialCycle) :
    (s.specialCycle c).history = .special c :: s.history := rfl

@[simp] theorem specialCycle_schedule (s : State) (c : SpecialCycle) :
    (s.specialCycle c).schedule = s.schedule := rfl

@[simp] theorem specialCycle_between (s : State) (c : SpecialCycle) :
    (s.specialCycle c).between = s.between := rfl

@[simp] theorem specialCycle_script (s : State) (c : SpecialCycle) :
    (s.specialCycle c).script = s.script := rfl

@[simp] theorem specialCycle_drawCount (s : State) (c : SpecialCycle) :
    (s.specialCycle c).drawCount = s.drawCount := rfl

@[simp] theorem specialCycle_fetched (s : State) (c : SpecialCycle) :
    (s.specialCycle c).fetched = s.fetched := rfl

@[simp] theorem specialCycle_platform (s : State) (c : SpecialCycle) :
    (s.specialCycle c).platform = s.platform := rfl

/-! ### recordMachineCheck -/

@[simp] theorem recordMachineCheck_regs (s : State) (a : Dword) (k : CycleKind) :
    (recordMachineCheck a k s).regs = s.regs := rfl

@[simp] theorem recordMachineCheck_pc (s : State) (a : Dword) (k : CycleKind) :
    (recordMachineCheck a k s).pc = s.pc := rfl

@[simp] theorem recordMachineCheck_cr0 (s : State) (a : Dword) (k : CycleKind) :
    (recordMachineCheck a k s).cr0 = s.cr0 := rfl

@[simp] theorem recordMachineCheck_cpl (s : State) (a : Dword) (k : CycleKind) :
    (recordMachineCheck a k s).cpl = s.cpl := rfl

@[simp] theorem recordMachineCheck_mcAddress (s : State) (a : Dword) (k : CycleKind) :
    (recordMachineCheck a k s).mcAddress = BitVec.ofNat 32 s.drawValue ++ a := rfl

@[simp] theorem recordMachineCheck_mcType (s : State) (a : Dword) (k : CycleKind) :
    (recordMachineCheck a k s).mcType = Config.cycleTypeCode k := rfl

@[simp] theorem recordMachineCheck_tr12 (s : State) (a : Dword) (k : CycleKind) :
    (recordMachineCheck a k s).tr12 = s.tr12 := rfl

@[simp] theorem recordMachineCheck_fpu (s : State) (a : Dword) (k : CycleKind) :
    (recordMachineCheck a k s).fpu = s.fpu := rfl

@[simp] theorem recordMachineCheck_mem (s : State) (a : Dword) (k : CycleKind) :
    (recordMachineCheck a k s).mem = s.mem := rfl

@[simp] theorem recordMachineCheck_io (s : State) (a : Dword) (k : CycleKind) :
    (recordMachineCheck a k s).io = s.io := rfl

@[simp] theorem recordMachineCheck_dc (s : State) (a : Dword) (k : CycleKind) :
    (recordMachineCheck a k s).dc = s.dc := rfl

@[simp] theorem recordMachineCheck_cc (s : State) (a : Dword) (k : CycleKind) :
    (recordMachineCheck a k s).cc = s.cc := rfl

@[simp] theorem recordMachineCheck_tlbs (s : State) (a : Dword) (k : CycleKind) :
    (recordMachineCheck a k s).tlbs = s.tlbs := rfl

@[simp] theorem recordMachineCheck_history (s : State) (a : Dword) (k : CycleKind) :
    (recordMachineCheck a k s).history = s.history := rfl

@[simp] theorem recordMachineCheck_schedule (s : State) (a : Dword) (k : CycleKind) :
    (recordMachineCheck a k s).schedule = s.schedule := rfl

@[simp] theorem recordMachineCheck_between (s : State) (a : Dword) (k : CycleKind) :
    (recordMachineCheck a k s).between = s.between := rfl

@[simp] theorem recordMachineCheck_script (s : State) (a : Dword) (k : CycleKind) :
    (recordMachineCheck a k s).script = s.script.tail := rfl

@[simp] theorem recordMachineCheck_drawCount (s : State) (a : Dword) (k : CycleKind) :
    (recordMachineCheck a k s).drawCount = s.drawCount + 1 := rfl

@[simp] theorem recordMachineCheck_fetched (s : State) (a : Dword) (k : CycleKind) :
    (recordMachineCheck a k s).fetched = s.fetched := rfl

@[simp] theorem recordMachineCheck_platform (s : State) (a : Dword) (k : CycleKind) :
    (recordMachineCheck a k s).platform = s.platform := rfl

/-! ### setEdxEax -/

@[simp] theorem setEdxEax_regs (s : State) (v : Qword) :
    (s.setEdxEax v).regs = (s.regs.set 2 (v.extractLsb' 32 32)).set 0 (v.extractLsb' 0 32) := rfl

@[simp] theorem setEdxEax_pc (s : State) (v : Qword) :
    (s.setEdxEax v).pc = s.pc := rfl

@[simp] theorem setEdxEax_cr0 (s : State) (v : Qword) :
    (s.setEdxEax v).cr0 = s.cr0 := rfl

@[simp] theorem setEdxEax_cpl (s : State) (v : Qword) :
    (s.setEdxEax v).cpl = s.cpl := rfl

@[simp] theorem setEdxEax_mcAddress (s : State) (v : Qword) :
    (s.setEdxEax v).mcAddress = s.mcAddress := rfl

@[simp] theorem setEdxEax_mcType (s : State) (v : Qword) :
    (s.setEdxEax v).mcType = s.mcType := rfl

@[simp] theorem setEdxEax_tr12 (s : State) (v : Qword) :
    (s.setEdxEax v).tr12 = s.tr12 := rfl

@[simp] theorem setEdxEax_fpu (s : State) (v : Qword) :
    (s.setEdxEax v).fpu = s.fpu := rfl

@[simp] theorem setEdxEax_mem (s : State) (v : Qword) :
    (s.setEdxEax v).mem = s.mem := rfl

@[simp] theorem setEdxEax_io (s : State) (v : Qword) :
    (s.setEdxEax v).io = s.io := rfl

@[simp] theorem setEdxEax_dc (s : State) (v : Qword) :
    (s.setEdxEax v).dc = s.dc := rfl

@[simp] theorem setEdxEax_cc (s : State) (v : Qword) :
    (s.setEdxEax v).cc = s.cc := rfl

@[simp] theorem setEdxEax_tlbs (s : State) (v : Qword) :
    (s.setEdxEax v).tlbs = s.tlbs := rfl

@[simp] theorem setEdxEax_history (s : State) (v : Qword) :
    (s.setEdxEax v).history = s.history := rfl

@[simp] theorem setEdxEax_schedule (s : State) (v : Qword) :
    (s.setEdxEax v).schedule = s.schedule := rfl

@[simp] theorem setEdxEax_between (s : State) (v : Qword) :
    (s.setEdxEax v).between = s.between := rfl

@[simp] theorem setEdxEax_script (s : State) (v : Qword) :
    (s.setEdxEax v).script = s.script := rfl

@[simp] theorem setEdxEax_drawCount (s : State) (v : Qword) :
    (s.setEdxEax v).drawCount = s.drawCount := rfl

@[simp] theorem setEdxEax_fetched (s : State) (v : Qword) :
    (s.setEdxEax v).fetched = s.fetched := rfl

@[simp] theorem setEdxEax_platform (s : State) (v : Qword) :
    (s.setEdxEax v).platform = s.platform := rfl

/-! ### touchData -/

@[simp] theorem touchData_regs (s : State) (x : BitVec 7) :
    (s.touchData x).regs = s.regs := rfl

@[simp] theorem touchData_pc (s : State) (x : BitVec 7) :
    (s.touchData x).pc = s.pc := rfl

@[simp] theorem touchData_cr0 (s : State) (x : BitVec 7) :
    (s.touchData x).cr0 = s.cr0 := rfl

@[simp] theorem touchData_cpl (s : State) (x : BitVec 7) :
    (s.touchData x).cpl = s.cpl := rfl

@[simp] theorem touchData_mcAddress (s : State) (x : BitVec 7) :
    (s.touchData x).mcAddress = s.mcAddress := rfl

@[simp] theorem touchData_mcType (s : State) (x : BitVec 7) :
    (s.touchData x).mcType = s.mcType := rfl

@[simp] theorem touchData_tr12 (s : State) (x : BitVec 7) :
    (s.touchData x).tr12 = s.tr12 := rfl

@[simp] theorem touchData_fpu (s : State) (x : BitVec 7) :
    (s.touchData x).fpu = s.fpu := rfl

@[simp] theorem touchData_mem (s : State) (x : BitVec 7) :
    (s.touchData x).mem = s.mem := rfl

@[simp] theorem touchData_io (s : State) (x : BitVec 7) :
    (s.touchData x).io = s.io := rfl

@[simp] theorem touchData_dc (s : State) (x : BitVec 7) :
    (s.touchData x).dc = s.dc.setLru x s.drawBit := rfl

@[simp] theorem touchData_cc (s : State) (x : BitVec 7) :
    (s.touchData x).cc = s.cc := rfl

@[simp] theorem touchData_tlbs (s : State) (x : BitVec 7) :
    (s.touchData x).tlbs = s.tlbs := rfl

@[simp] theorem touchData_history (s : State) (x : BitVec 7) :
    (s.touchData x).history = s.history := rfl

@[simp] theorem touchData_schedule (s : State) (x : BitVec 7) :
    (s.touchData x).schedule = s.schedule := rfl

@[simp] theorem touchData_between (s : State) (x : BitVec 7) :
    (s.touchData x).between = s.between := rfl

@[simp] theorem touchData_script (s : State) (x : BitVec 7) :
    (s.touchData x).script = s.script.tail := rfl

@[simp] theorem touchData_drawCount (s : State) (x : BitVec 7) :
    (s.touchData x).drawCount = s.drawCount + 1 := rfl

@[simp] theorem touchData_fetched (s : State) (x : BitVec 7) :
    (s.touchData x).fetched = s.fetched := rfl

@[simp] theorem touchData_platform (s : State) (x : BitVec 7) :
    (s.touchData x).platform = s.platform := rfl

/-! ### touchCode -/

@[simp] theorem touchCode_regs (s : State) (x : BitVec 7) :
    (s.touchCode x).regs = s.regs := rfl

@[simp] theorem touchCode_pc (s : State) (x : BitVec 7) :
    (s.touchCode x).pc = s.pc := rfl

@[simp] theorem touchCode_cr0 (s : State) (x : BitVec 7) :
    (s.touchCode x).cr0 = s.cr0 := rfl

@[simp] theorem touchCode_cpl (s : State) (x : BitVec 7) :
    (s.touchCode x).cpl = s.cpl := rfl

@[simp] theorem touchCode_mcAddress (s : State) (x : BitVec 7) :
    (s.touchCode x).mcAddress = s.mcAddress := rfl

@[simp] theorem touchCode_mcType (s : State) (x : BitVec 7) :
    (s.touchCode x).mcType = s.mcType := rfl

@[simp] theorem touchCode_tr12 (s : State) (x : BitVec 7) :
    (s.touchCode x).tr12 = s.tr12 := rfl

@[simp] theorem touchCode_fpu (s : State) (x : BitVec 7) :
    (s.touchCode x).fpu = s.fpu := rfl

@[simp] theorem touchCode_mem (s : State) (x : BitVec 7) :
    (s.touchCode x).mem = s.mem := rfl

@[simp] theorem touchCode_io (s : State) (x : BitVec 7) :
    (s.touchCode x).io = s.io := rfl

@[simp] theorem touchCode_dc (s : State) (x : BitVec 7) :
    (s.touchCode x).dc = s.dc := rfl

@[simp] theorem touchCode_cc (s : State) (x : BitVec 7) :
    (s.touchCode x).cc = s.cc.setLru x s.drawBit := rfl

@[simp] theorem touchCode_tlbs (s : State) (x : BitVec 7) :
    (s.touchCode x).tlbs = s.tlbs := rfl

@[simp] theorem touchCode_history (s : State) (x : BitVec 7) :
    (s.touchCode x).history = s.history := rfl

@[simp] theorem touchCode_schedule (s : State) (x : BitVec 7) :
    (s.touchCode x).schedule = s.schedule := rfl

@[simp] theorem touchCode_between (s : State) (x : BitVec 7) :
    (s.touchCode x).between = s.between := rfl

@[simp] theorem touchCode_script (s : State) (x : BitVec 7) :
    (s.touchCode x).script = s.script.tail := rfl

@[simp] theorem touchCode_drawCount (s : State) (x : BitVec 7) :
    (s.touchCode x).drawCount = s.drawCount + 1 := rfl

@[simp] theorem touchCode_fetched (s : State) (x : BitVec 7) :
    (s.touchCode x).fetched = s.fetched := rfl

@[simp] theorem touchCode_platform (s : State) (x : BitVec 7) :
    (s.touchCode x).platform = s.platform := rfl

/-! ### loadCodeTlb -/

@[simp] theorem loadCodeTlb_regs (s : State) (a : Dword) :
    (s.loadCodeTlb a).regs = s.regs := rfl

@[simp] theorem loadCodeTlb_pc (s : State) (a : Dword) :
    (s.loadCodeTlb a).pc = s.pc := rfl

@[simp] theorem loadCodeTlb_cr0 (s : State) (a : Dword) :
    (s.loadCodeTlb a).cr0 = s.cr0 := rfl

@[simp] theorem loadCodeTlb_cpl (s : State) (a : Dword) :
    (s.loadCodeTlb a).cpl = s.cpl := rfl

@[simp] theorem loadCodeTlb_mcAddress (s : State) (a : Dword) :
    (s.loadCodeTlb a).mcAddress = s.mcAddress := rfl

@[simp] theorem loadCodeTlb_mcType (s : State) (a : Dword) :
    (s.loadCodeTlb a).mcType = s.mcType := rfl

@[simp] theorem loadCodeTlb_tr12 (s : State) (a : Dword) :
    (s.loadCodeTlb a).tr12 = s.tr12 := rfl

@[simp] theorem loadCodeTlb_fpu (s : State) (a : Dword) :
    (s.loadCodeTlb a).fpu = s.fpu := rfl

@[simp] theorem loadCodeTlb_mem (s : State) (a : Dword) :
    (s.loadCodeTlb a).mem = s.mem := rfl

@[simp] theorem loadCodeTlb_io (s : State) (a : Dword) :
    (s.loadCodeTlb a).io = s.io := rfl

@[simp] theorem loadCodeTlb_dc (s : State) (a : Dword) :
    (s.loadCodeTlb a).dc = s.dc := rfl

@[simp] theorem loadCodeTlb_cc (s : State) (a : Dword) :
    (s.loadCodeTlb a).cc = s.cc := rfl

@[simp] theorem loadCodeTlb_history (s : State) (a : Dword) :
    (s.loadCodeTlb a).history = s.history := rfl

@[simp] theorem loadCodeTlb_schedule (s : State) (a : Dword) :
    (s.loadCodeTlb a).schedule = s.schedule := rfl

@[simp] theorem loadCodeTlb_between (s : State) (a : Dword) :
    (s.loadCodeTlb a).between = s.between := rfl

@[simp] theorem loadCodeTlb_script (s : State) (a : Dword) :
    (s.loadCodeTlb a).script = s.script.tail := rfl

@[simp] theorem loadCodeTlb_drawCount (s : State) (a : Dword) :
    (s.loadCodeTlb a).drawCount = s.drawCount + 1 := rfl

@[simp] theorem loadCodeTlb_fetched (s : State) (a : Dword) :
    (s.loadCodeTlb a).fetched = s.fetched := rfl

@[simp] theorem loadCodeTlb_platform (s : State) (a : Dword) :
    (s.loadCodeTlb a).platform = s.platform := rfl

/-! ### loadDataTlb -/

@[simp] theorem loadDataTlb_regs (s : State) (a : Dword) :
    (s.loadDataTlb a).regs = s.regs := rfl

@[simp] theorem loadDataTlb_pc (s : State) (a : Dword) :
    (s.loadDataTlb a).pc = s.pc := rfl

@[simp] theorem loadDataTlb_cr0 (s : State) (a : Dword) :
    (s.loadDataTlb a).cr0 = s.cr0 := rfl

@[simp] theorem loadDataTlb_cpl (s : State) (a : Dword) :
    (s.loadDataTlb a).cpl = s.cpl := rfl

@[simp] theorem loadDataTlb_mcAddress (s : State) (a : Dword) :
    (s.loadDataTlb a).mcAddress = s.mcAddress := rfl

@[simp] theorem loadDataTlb_mcType (s : State) (a : Dword) :
    (s.loadDataTlb a).mcType = s.mcType := rfl

@[simp] theorem loadDataTlb_tr12 (s : State) (a : Dword) :
    (s.loadDataTlb a).tr12 = s.tr12 := rfl

@[simp] theorem loadDataTlb_fpu (s : State) (a : Dword) :
    (s.loadDataTlb a).fpu = s.fpu := rfl

@[simp] theorem loadDataTlb_mem (s : State) (a : Dword) :
    (s.loadDataTlb a).mem = s.mem := rfl

@[simp] theorem loadDataTlb_io (s : State) (a : Dword) :
    (s.loadDataTlb a).io = s.io := rfl

@[simp] theorem loadDataTlb_dc (s : State) (a : Dword) :
    (s.loadDataTlb a).dc = s.dc := rfl

@[simp] theorem loadDataTlb_cc (s : State) (a : Dword) :
    (s.loadDataTlb a).cc = s.cc := rfl

@[simp] theorem loadDataTlb_history (s : State) (a : Dword) :
    (s.loadDataTlb a).history = s.history := rfl

@[simp] theorem loadDataTlb_schedule (s : State) (a : Dword) :
    (s.loadDataTlb a).schedule = s.schedule := rfl

@[simp] theorem loadDataTlb_between (s : State) (a : Dword) :
    (s.loadDataTlb a).between = s.between := rfl

@[simp] theorem loadDataTlb_script (s : State) (a : Dword) :
    (s.loadDataTlb a).script = s.script.tail := rfl

@[simp] theorem loadDataTlb_drawCount (s : State) (a : Dword) :
    (s.loadDataTlb a).drawCount = s.drawCount + 1 := rfl

@[simp] theorem loadDataTlb_fetched (s : State) (a : Dword) :
    (s.loadDataTlb a).fetched = s.fetched := rfl

@[simp] theorem loadDataTlb_platform (s : State) (a : Dword) :
    (s.loadDataTlb a).platform = s.platform := rfl

/-! ### invalidateCaches -/

@[simp] theorem invalidateCaches_regs (s : State) :
    s.invalidateCaches.regs = s.regs := rfl

@[simp] theorem invalidateCaches_pc (s : State) :
    s.invalidateCaches.pc = s.pc := rfl

@[simp] theorem invalidateCaches_cr0 (s : State) :
    s.invalidateCaches.cr0 = s.cr0 := rfl

@[simp] theorem invalidateCaches_cpl (s : State) :
    s.invalidateCaches.cpl = s.cpl := rfl

@[simp] theorem invalidateCaches_mcAddress (s : State) :
    s.invalidateCaches.mcAddress = s.mcAddress := rfl

@[simp] theorem invalidateCaches_mcType (s : State) :
    s.invalidateCaches.mcType = s.mcType := rfl

@[simp] theorem invalidateCaches_tr12 (s : State) :
    s.invalidateCaches.tr12 = s.tr12 := rfl

@[simp] theorem invalidateCaches_fpu (s : State) :
    s.invalidateCaches.fpu = s.fpu := rfl

@[simp] theorem invalidateCaches_mem (s : State) :
    s.invalidateCaches.mem = s.mem := rfl

@[simp] theorem invalidateCaches_io (s : State) :
    s.invalidateCaches.io = s.io := rfl

@[simp] theorem invalidateCaches_dc (s : State) :
    s.invalidateCaches.dc = s.dc.invalidate := rfl

@[simp] theorem invalidateCaches_cc (s : State) :
    s.invalidateCaches.cc = s.cc.invalidate := rfl

@[simp] theorem invalidateCaches_tlbs (s : State) :
    s.invalidateCaches.tlbs = s.tlbs := rfl

@[simp] theorem invalidateCaches_history (s : State) :
    s.invalidateCaches.history = s.history := rfl

@[simp] theorem invalidateCaches_schedule (s : State) :
    s.invalidateCaches.schedule = s.schedule := rfl

@[simp] theorem invalidateCaches_between (s : State) :
    s.invalidateCaches.between = s.between := rfl

@[simp] theorem invalidateCaches_script (s : State) :
    s.invalidateCaches.script = s.script := rfl

@[simp] theorem invalidateCaches_drawCount (s : State) :
    s.invalidateCaches.drawCount = s.drawCount := rfl

@[simp] theorem invalidateCaches_fetched (s : State) :
    s.invalidateCaches.fetched = s.fetched := rfl

@[simp] theorem invalidateCaches_platform (s : State) :
    s.invalidateCaches.platform = s.platform := rfl

/-! ### evictCode -/

@[simp] theorem evictCode_regs (s : State) (x : BitVec 7) (w : Way) :
    (evictCode x w s).regs = s.regs := rfl

@[simp] theorem evictCode_pc (s : State) (x : BitVec 7) (w : Way) :
    (evictCode x w s).pc = s.pc := rfl

@[simp] theorem evictCode_cr0 (s : State) (x : BitVec 7) (w : Way) :
    (evictCode x w s).cr0 = s.cr0 := rfl

@[simp] theorem evictCode_cpl (s : State) (x : BitVec 7) (w : Way) :
    (evictCode x w s).cpl = s.cpl := rfl

@[simp] theorem evictCode_mcAddress (s : State) (x : BitVec 7) (w : Way) :
    (evictCode x w s).mcAddress = s.mcAddress := rfl

@[simp] theorem evictCode_mcType (s : State) (x : BitVec 7) (w : Way) :
    (evictCode x w s).mcType = s.mcType := rfl

@[simp] theorem evictCode_tr12 (s : State) (x : BitVec 7) (w : Way) :
    (evictCode x w s).tr12 = s.tr12 := rfl

@[simp] theorem evictCode_fpu (s : State) (x : BitVec 7) (w : Way) :
    (evictCode x w s).fpu = s.fpu := rfl

@[simp] theorem evictCode_mem (s : State) (x : BitVec 7) (w : Way) :
    (evictCode x w s).mem = s.mem := rfl

@[simp] theorem evictCode_io (s : State) (x : BitVec 7) (w : Way) :
    (evictCode x w s).io = s.io := rfl

@[simp] theorem evictCode_dc (s : State) (x : BitVec 7) (w : Way) :
    (evictCode x w s).dc = s.dc := rfl

@[simp] theorem evictCode_cc (s : State) (x : BitVec 7) (w : Way) :
    (evictCode x w s).cc = s.cc.drop x w := rfl

@[simp] theorem evictCode_tlbs (s : State) (x : BitVec 7) (w : Way) :
    (evictCode x w s).tlbs = s.tlbs := rfl

@[simp] theorem evictCode_history (s : State) (x : BitVec 7) (w : Way) :
    (evictCode x w s).history = s.history := rfl

@[simp] theorem evictCode_schedule (s : State) (x : BitVec 7) (w : Way) :
    (evictCode x w s).schedule = s.schedule := rfl

@[simp] theorem evictCode_between (s : State) (x : BitVec 7) (w : Way) :
    (evictCode x w s).between = s.between := rfl

@[simp] theorem evictCode_script (s : State) (x : BitVec 7) (w : Way) :
    (evictCode x w s).script = s.script := rfl

@[simp] theorem evictCode_drawCount (s : State) (x : BitVec 7) (w : Way) :
    (evictCode x w s).drawCount = s.drawCount := rfl

@[simp] theorem evictCode_fetched (s : State) (x : BitVec 7) (w : Way) :
    (evictCode x w s).fetched = s.fetched := rfl

@[simp] theorem evictCode_platform (s : State) (x : BitVec 7) (w : Way) :
    (evictCode x w s).platform = s.platform := rfl

/-! ### afterReadSnoop -/

@[simp] theorem afterReadSnoop_regs (s : State) (l : BitVec 27) :
    (s.afterReadSnoop l).regs = s.regs := rfl

@[simp] theorem afterReadSnoop_pc (s : State) (l : BitVec 27) :
    (s.afterReadSnoop l).pc = s.pc := rfl

@[simp] theorem afterReadSnoop_cr0 (s : State) (l : BitVec 27) :
    (s.afterReadSnoop l).cr0 = s.cr0 := rfl

@[simp] theorem afterReadSnoop_cpl (s : State) (l : BitVec 27) :
    (s.afterReadSnoop l).cpl = s.cpl := rfl

@[simp] theorem afterReadSnoop_mcAddress (s : State) (l : BitVec 27) :
    (s.afterReadSnoop l).mcAddress = s.mcAddress := rfl

@[simp] theorem afterReadSnoop_mcType (s : State) (l : BitVec 27) :
    (s.afterReadSnoop l).mcType = s.mcType := rfl

@[simp] theorem afterReadSnoop_tr12 (s : State) (l : BitVec 27) :
    (s.afterReadSnoop l).tr12 = s.tr12 := rfl

@[simp] theorem afterReadSnoop_fpu (s : State) (l : BitVec 27) :
    (s.afterReadSnoop l).fpu = s.fpu := rfl

@[simp] theorem afterReadSnoop_mem (s : State) (l : BitVec 27) :
    (s.afterReadSnoop l).mem = s.mem := rfl

@[simp] theorem afterReadSnoop_io (s : State) (l : BitVec 27) :
    (s.afterReadSnoop l).io = s.io := rfl

@[simp] theorem afterReadSnoop_dc (s : State) (l : BitVec 27) :
    (s.afterReadSnoop l).dc = if s.drawBit then s.dc.setHit l .S else s.dc.dropHit l := rfl

@[simp] theorem afterReadSnoop_cc (s : State) (l : BitVec 27) :
    (s.afterReadSnoop l).cc = s.cc := rfl

@[simp] theorem afterReadSnoop_tlbs (s : State) (l : BitVec 27) :
    (s.afterReadSnoop l).tlbs = s.tlbs := rfl

@[simp] theorem afterReadSnoop_history (s : State) (l : BitVec 27) :
    (s.afterReadSnoop l).history = s.history := rfl

@[simp] theorem afterReadSnoop_schedule (s : State) (l : BitVec 27) :
    (s.afterReadSnoop l).schedule = s.schedule := rfl

@[simp] theorem afterReadSnoop_between (s : State) (l : BitVec 27) :
    (s.afterReadSnoop l).between = s.between := rfl

@[simp] theorem afterReadSnoop_script (s : State) (l : BitVec 27) :
    (s.afterReadSnoop l).script = s.script.tail := rfl

@[simp] theorem afterReadSnoop_drawCount (s : State) (l : BitVec 27) :
    (s.afterReadSnoop l).drawCount = s.drawCount + 1 := rfl

@[simp] theorem afterReadSnoop_fetched (s : State) (l : BitVec 27) :
    (s.afterReadSnoop l).fetched = s.fetched := rfl

@[simp] theorem afterReadSnoop_platform (s : State) (l : BitVec 27) :
    (s.afterReadSnoop l).platform = s.platform := rfl

/-! ### afterWriteSnoop -/

@[simp] theorem afterWriteSnoop_regs (s : State) (l : BitVec 27) :
    (s.afterWriteSnoop l).regs = s.regs := rfl

@[simp] theorem afterWriteSnoop_pc (s : State) (l : BitVec 27) :
    (s.afterWriteSnoop l).pc = s.pc := rfl

@[simp] theorem afterWriteSnoop_cr0 (s : State) (l : BitVec 27) :
    (s.afterWriteSnoop l).cr0 = s.cr0 := rfl

@[simp] theorem afterWriteSnoop_cpl (s : State) (l : BitVec 27) :
    (s.afterWriteSnoop l).cpl = s.cpl := rfl

@[simp] theorem afterWriteSnoop_mcAddress (s : State) (l : BitVec 27) :
    (s.afterWriteSnoop l).mcAddress = s.mcAddress := rfl

@[simp] theorem afterWriteSnoop_mcType (s : State) (l : BitVec 27) :
    (s.afterWriteSnoop l).mcType = s.mcType := rfl

@[simp] theorem afterWriteSnoop_tr12 (s : State) (l : BitVec 27) :
    (s.afterWriteSnoop l).tr12 = s.tr12 := rfl

@[simp] theorem afterWriteSnoop_fpu (s : State) (l : BitVec 27) :
    (s.afterWriteSnoop l).fpu = s.fpu := rfl

@[simp] theorem afterWriteSnoop_mem (s : State) (l : BitVec 27) :
    (s.afterWriteSnoop l).mem = s.mem := rfl

@[simp] theorem afterWriteSnoop_io (s : State) (l : BitVec 27) :
    (s.afterWriteSnoop l).io = s.io := rfl

@[simp] theorem afterWriteSnoop_dc (s : State) (l : BitVec 27) :
    (s.afterWriteSnoop l).dc = s.dc.dropHit l := rfl

@[simp] theorem afterWriteSnoop_cc (s : State) (l : BitVec 27) :
    (s.afterWriteSnoop l).cc = s.cc.dropHit l := rfl

@[simp] theorem afterWriteSnoop_tlbs (s : State) (l : BitVec 27) :
    (s.afterWriteSnoop l).tlbs = s.tlbs := rfl

@[simp] theorem afterWriteSnoop_history (s : State) (l : BitVec 27) :
    (s.afterWriteSnoop l).history = s.history := rfl

@[simp] theorem afterWriteSnoop_schedule (s : State) (l : BitVec 27) :
    (s.afterWriteSnoop l).schedule = s.schedule := rfl

@[simp] theorem afterWriteSnoop_between (s : State) (l : BitVec 27) :
    (s.afterWriteSnoop l).between = s.between := rfl

@[simp] theorem afterWriteSnoop_script (s : State) (l : BitVec 27) :
    (s.afterWriteSnoop l).script = s.script := rfl

@[simp] theorem afterWriteSnoop_drawCount (s : State) (l : BitVec 27) :
    (s.afterWriteSnoop l).drawCount = s.drawCount := rfl

@[simp] theorem afterWriteSnoop_fetched (s : State) (l : BitVec 27) :
    (s.afterWriteSnoop l).fetched = s.fetched := rfl

@[simp] theorem afterWriteSnoop_platform (s : State) (l : BitVec 27) :
    (s.afterWriteSnoop l).platform = s.platform := rfl

/-! ### setPage -/

@[simp] theorem setPage_regs (s : State) (b : Dword) (z : PageSize) (e : Dword) :
    (s.setPage b z e).regs = s.regs := rfl

@[simp] theorem setPage_pc (s : State) (b : Dword) (z : PageSize) (e : Dword) :
    (s.setPage b z e).pc = s.pc := rfl

@[simp] theorem setPage_cr0 (s : State) (b : Dword) (z : PageSize) (e : Dword) :
    (s.setPage b z e).cr0 = s.cr0 := rfl

@[simp] theorem setPage_cpl (s : State) (b : Dword) (z : PageSize) (e : Dword) :
    (s.setPage b z e).cpl = s.cpl := rfl

@[simp] theorem setPage_mcAddress (s : State) (b : Dword) (z : PageSize) (e : Dword) :
    (s.setPage b z e).mcAddress = s.mcAddress := rfl

@[simp] theorem setPage_mcType (s : State) (b : Dword) (z : PageSize) (e : Dword) :
    (s.setPage b z e).mcType = s.mcType := rfl

@[simp] theorem setPage_tr12 (s : State) (b : Dword) (z : PageSize) (e : Dword) :
    (s.setPage b z e).tr12 = s.tr12 := rfl

@[simp] theorem setPage_fpu (s : State) (b : Dword) (z : PageSize) (e : Dword) :
    (s.setPage b z e).fpu = s.fpu := rfl

@[simp] theorem setPage_mem (s : State) (b : Dword) (z : PageSize) (e : Dword) :
    (s.setPage b z e).mem = s.mem := rfl

@[simp] theorem setPage_io (s : State) (b : Dword) (z : PageSize) (e : Dword) :
    (s.setPage b z e).io = s.io := rfl

@[simp] theorem setPage_dc (s : State) (b : Dword) (z : PageSize) (e : Dword) :
    (s.setPage b z e).dc = s.dc := rfl

@[simp] theorem setPage_cc (s : State) (b : Dword) (z : PageSize) (e : Dword) :
    (s.setPage b z e).cc = s.cc := rfl

@[simp] theorem setPage_tlbs (s : State) (b : Dword) (z : PageSize) (e : Dword) :
    (s.setPage b z e).tlbs = s.tlbs := rfl

@[simp] theorem setPage_history (s : State) (b : Dword) (z : PageSize) (e : Dword) :
    (s.setPage b z e).history = s.history := rfl

@[simp] theorem setPage_schedule (s : State) (b : Dword) (z : PageSize) (e : Dword) :
    (s.setPage b z e).schedule = s.schedule := rfl

@[simp] theorem setPage_between (s : State) (b : Dword) (z : PageSize) (e : Dword) :
    (s.setPage b z e).between = s.between := rfl

@[simp] theorem setPage_script (s : State) (b : Dword) (z : PageSize) (e : Dword) :
    (s.setPage b z e).script = s.script := rfl

@[simp] theorem setPage_drawCount (s : State) (b : Dword) (z : PageSize) (e : Dword) :
    (s.setPage b z e).drawCount = s.drawCount := rfl

@[simp] theorem setPage_fetched (s : State) (b : Dword) (z : PageSize) (e : Dword) :
    (s.setPage b z e).fetched = s.fetched := rfl

/-! ### readyToFetch -/

@[simp] theorem readyToFetch_regs (s : State) :
    (readyToFetch s).regs = s.regs := rfl

@[simp] theorem readyToFetch_pc (s : State) :
    (readyToFetch s).pc = s.pc := rfl

@[simp] theorem readyToFetch_cr0 (s : State) :
    (readyToFetch s).cr0 = s.cr0 := rfl

@[simp] theorem readyToFetch_cpl (s : State) :
    (readyToFetch s).cpl = s.cpl := rfl

@[simp] theorem readyToFetch_mcAddress (s : State) :
    (readyToFetch s).mcAddress = s.mcAddress := rfl

@[simp] theorem readyToFetch_mcType (s : State) :
    (readyToFetch s).mcType = s.mcType := rfl

@[simp] theorem readyToFetch_tr12 (s : State) :
    (readyToFetch s).tr12 = s.tr12 := rfl

@[simp] theorem readyToFetch_fpu (s : State) :
    (readyToFetch s).fpu = s.fpu := rfl

@[simp] theorem readyToFetch_mem (s : State) :
    (readyToFetch s).mem = s.mem := rfl

@[simp] theorem readyToFetch_io (s : State) :
    (readyToFetch s).io = s.io := rfl

@[simp] theorem readyToFetch_dc (s : State) :
    (readyToFetch s).dc = s.dc := rfl

@[simp] theorem readyToFetch_cc (s : State) :
    (readyToFetch s).cc = s.cc := rfl

@[simp] theorem readyToFetch_tlbs (s : State) :
    (readyToFetch s).tlbs = s.tlbs := rfl

@[simp] theorem readyToFetch_history (s : State) :
    (readyToFetch s).history = s.history := rfl

@[simp] theorem readyToFetch_schedule (s : State) :
    (readyToFetch s).schedule = [] := rfl

@[simp] theorem readyToFetch_between (s : State) :
    (readyToFetch s).between = [] := rfl

@[simp] theorem readyToFetch_script (s : State) :
    (readyToFetch s).script = s.script := rfl

@[simp] theorem readyToFetch_drawCount (s : State) :
    (readyToFetch s).drawCount = s.drawCount := rfl

@[simp] theorem readyToFetch_fetched (s : State) :
    (readyToFetch s).fetched = s.fetched := rfl

/-! ### markFetched -/

@[simp] theorem markFetched_regs (s : State) (pc : Dword) :
    (s.markFetched pc).regs = s.regs := rfl

@[simp] theorem markFetched_pc (s : State) (pc : Dword) :
    (s.markFetched pc).pc = s.pc := rfl

@[simp] theorem markFetched_cr0 (s : State) (pc : Dword) :
    (s.markFetched pc).cr0 = s.cr0 := rfl

@[simp] theorem markFetched_cpl (s : State) (pc : Dword) :
    (s.markFetched pc).cpl = s.cpl := rfl

@[simp] theorem markFetched_mcAddress (s : State) (pc : Dword) :
    (s.markFetched pc).mcAddress = s.mcAddress := rfl

@[simp] theorem markFetched_mcType (s : State) (pc : Dword) :
    (s.markFetched pc).mcType = s.mcType := rfl

@[simp] theorem markFetched_tr12 (s : State) (pc : Dword) :
    (s.markFetched pc).tr12 = s.tr12 := rfl

@[simp] theorem markFetched_fpu (s : State) (pc : Dword) :
    (s.markFetched pc).fpu = s.fpu := rfl

@[simp] theorem markFetched_mem (s : State) (pc : Dword) :
    (s.markFetched pc).mem = s.mem := rfl

@[simp] theorem markFetched_io (s : State) (pc : Dword) :
    (s.markFetched pc).io = s.io := rfl

@[simp] theorem markFetched_dc (s : State) (pc : Dword) :
    (s.markFetched pc).dc = s.dc := rfl

@[simp] theorem markFetched_cc (s : State) (pc : Dword) :
    (s.markFetched pc).cc = s.cc := rfl

@[simp] theorem markFetched_tlbs (s : State) (pc : Dword) :
    (s.markFetched pc).tlbs = s.tlbs := rfl

@[simp] theorem markFetched_history (s : State) (pc : Dword) :
    (s.markFetched pc).history = s.history := rfl

@[simp] theorem markFetched_schedule (s : State) (pc : Dword) :
    (s.markFetched pc).schedule = s.schedule := rfl

@[simp] theorem markFetched_between (s : State) (pc : Dword) :
    (s.markFetched pc).between = s.between := rfl

@[simp] theorem markFetched_script (s : State) (pc : Dword) :
    (s.markFetched pc).script = s.script := rfl

@[simp] theorem markFetched_drawCount (s : State) (pc : Dword) :
    (s.markFetched pc).drawCount = s.drawCount := rfl

@[simp] theorem markFetched_platform (s : State) (pc : Dword) :
    (s.markFetched pc).platform = s.platform := rfl

@[simp] theorem markFetched_fetched (s : State) (pc : Dword) :
    (s.markFetched pc).fetched = insertAddress pc.toNat (insertAddress (pc.toNat + 1) s.fetched) := rfl

end Sys2Proof.Machine
end

