-- ==== Sys2Proof/Laws/Bus.lean ====
section
/-!
SUPPORT. What bus activity can do. `Closed P` says that a relation between states is kept by each elementary thing a
transfer, an inquire cycle or another master does; then it is kept by every operation built from them.
-/

namespace Sys2Proof.Machine

/-- The operation only makes moves the relation allows. -/
def Keeps (P : State → State → Prop) (f : State → Result State) : Prop :=
  ∀ s t, f s = .next t → P s t

/-! ### Single cycles -/

/-- All a read cycle can answer. -/
theorem busRead_eq_next {a : Dword} {n : Nat} {s : State} {r : List Byte × State} :
    busRead a n s = .next r ↔ s.firstHole a.toNat n = none ∧
      r = (Memory.readRun s.mem a.toNat n, s.log (.memRead (quadOf a) (byteEnables a n) (s.pageAttr a)
        (Memory.readRun s.mem a.toNat n))) := by
  unfold busRead
  cases s.firstHole a.toNat n <;> simp [eq_comm]

/-- All a write cycle can answer. -/
theorem busWrite_eq_next {a : Dword} {bytes : List Byte} {s t : State} :
    busWrite a bytes s = .next t ↔ s.firstHole a.toNat bytes.length = none ∧
      t = { s.log (.memWrite (quadOf a) (byteEnables a bytes.length) (s.pageAttr a) bytes) with
        mem := Memory.writeRun s.mem a.toNat bytes } := by
  unfold busWrite
  cases s.firstHole a.toNat bytes.length <;> simp [eq_comm]

theorem firstHole_eq_none {s : State} {a n : Nat} :
    s.firstHole a n = none ↔ ∀ i, i < n → s.populated (a + i) = true := by
  simp [State.firstHole, List.find?_eq_none]

theorem length_lineBytes (data : Vector Byte 32) (o n : Nat) : (lineBytes data o n).length = min n (32 - o) := by
  simp [lineBytes]

/-! ### Permutations -/

theorem insertNth_perm {α : Type} (x : α) : ∀ (k : Nat) (l : List α), (insertNth x k l).Perm (x :: l)
  | 0, _ => .refl _
  | _ + 1, [] => .refl _
  | k + 1, y :: l => ((insertNth_perm x k l).cons y).trans (.swap x y l)

/-- A drawn order is an order of the same elements. -/
theorem permute_perm {α : Type} : ∀ (d : Nat) (l : List α), (permute d l).Perm l
  | _, [] => .refl _
  | d, x :: l => (insertNth_perm x _ _).trans ((permute_perm (d / (l.length + 1)) l).cons x)

theorem insertNth_map {α β : Type} (f : α → β) (x : α) : ∀ (k : Nat) (l : List α),
    insertNth (f x) k (l.map f) = (insertNth x k l).map f
  | 0, _ => rfl
  | _ + 1, [] => rfl
  | k + 1, y :: l => congrArg (f y :: ·) (insertNth_map f x k l)

theorem permute_map {α β : Type} (f : α → β) : ∀ (d : Nat) (l : List α), permute d (l.map f) = (permute d l).map f
  | _, [] => rfl
  | d, x :: l => by simp only [List.map_cons, permute, List.length_map, permute_map f, insertNth_map]

theorem mem_quadOrder {d q : Nat} : q ∈ quadOrder d ↔ q < 4 := by
  rw [quadOrder, (permute_perm d _).mem_iff]
  simp only [List.mem_cons, List.not_mem_nil, or_false]
  omega

/-! ### Relations kept by bus activity -/

/-- The relation is kept by everything that bus activity is made of. -/
structure Closed (P : State → State → Prop) : Prop where
  refl : ∀ s, P s s
  trans : ∀ {s t u}, P s t → P t u → P s u
  draw : ∀ s, P s s.afterDraw
  log : ∀ s e, P s (s.log e)
  quad : ∀ {s t line q data}, q < 4 → busWrite (lineQuad line q) (lineBytes data (8 * q) 8) s = .next t → P s t
  drop : ∀ s set way, P s { s with dc := s.dc.drop set way }
  readSnoop : ∀ s line, P s (s.afterReadSnoop line)
  writeSnoop : ∀ s line, P s (s.afterWriteSnoop line)
  masterWrite : ∀ (s : State) (first : Dword) (bytes : List Byte), busRunWf first.toNat bytes.length = true →
    s.firstHole first.toNat bytes.length = none →
    P s { s.log (.masterWrite first bytes) with mem := Memory.writeRun s.mem first.toNat bytes }
  between : ∀ (s : State) ms rest, s.between = ms :: rest → P s { s with between := rest }

variable {P : State → State → Prop}

theorem Closed.point (h : Closed P) : Keeps P .next := fun s t e => by cases e; exact h.refl s

theorem Closed.writeQuads (h : Closed P) {point : State → Result State} (hp : Keeps P point) (line : BitVec 27)
    (data : Vector Byte 32) : ∀ qs : List Nat, (∀ q ∈ qs, q < 4) → Keeps P (writeQuads point line data qs)
  | [], _, s, t, e => by cases e; exact h.refl s
  | [q], hq, s, t, e => h.quad (hq q (by simp)) e
  | q :: q' :: rest, hq, s, t, e => by
    obtain ⟨u, hu, e⟩ := andThen_eq_next.1 e
    obtain ⟨v, hv, e⟩ := andThen_eq_next.1 e
    exact h.trans (h.quad (hq q (by simp)) hu) (h.trans (hp _ _ hv)
      (Closed.writeQuads h hp line data (q' :: rest) (fun x hx => hq x (by simp [hx])) _ _ e))

theorem Closed.writeback (h : Closed P) {point : State → Result State} (hp : Keeps P point)
    (l : CacheLine DataState) : Keeps P (writeback point l) := fun s _ e =>
  h.trans (h.draw s) (h.writeQuads hp _ _ _ (fun _ => mem_quadOrder.1) _ _ e)

theorem Closed.readQuads (h : Closed P) {point : State → Result State} (hp : Keeps P point) (line : BitVec 27) :
    ∀ (qs : List Nat) (data : Vector Byte 32) (s : State) (r : Vector Byte 32 × State),
      readQuads point line qs data s = .next r → P s r.2
  | [], data, s, r, e => by cases e; exact h.refl s
  | [q], data, s, r, e => by
    obtain ⟨u, hu, e⟩ := andThen_eq_next.1 e
    cases e
    obtain ⟨-, rfl⟩ := busRead_eq_next.1 hu
    exact h.log _ _
  | q :: q' :: rest, data, s, r, e => by
    obtain ⟨u, hu, e⟩ := andThen_eq_next.1 e
    obtain ⟨v, hv, e⟩ := andThen_eq_next.1 e
    obtain ⟨-, rfl⟩ := busRead_eq_next.1 hu
    exact h.trans (h.log _ _) (h.trans (hp _ _ hv) (Closed.readQuads h hp line (q' :: rest) _ _ _ e))

theorem Closed.readLine (h : Closed P) {point : State → Result State} (hp : Keeps P point) {line : BitVec 27}
    {s : State} {r : Vector Byte 32 × State} (e : readLine point line s = .next r) : P s r.2 :=
  h.trans (h.draw s) (h.readQuads hp _ _ _ _ _ e)

theorem Closed.evictData (h : Closed P) {point : State → Result State} (hp : Keeps P point) (set : BitVec 7)
    (way : Way) : Keeps P (evictData point set way) := fun s t e => by
  unfold Machine.evictData at e
  split at e
  · cases e; exact h.refl s
  · split at e
    · obtain ⟨u, hu, e⟩ := andThen_eq_next.1 e
      cases e
      exact h.trans (h.writeback hp _ _ _ hu) (h.drop _ _ _)
    · cases e; exact h.drop _ _ _
    · cases e; exact h.drop _ _ _

theorem Closed.inquireRead (h : Closed P) {point : State → Result State} (hp : Keeps P point) (line : BitVec 27) :
    Keeps P (inquireRead point line) := fun s t e => by
  unfold Machine.inquireRead at e
  split at e
  · cases e
  · dsimp only at e
    split at e
    · cases e; exact h.log _ _
    · split at e
      · obtain ⟨u, hu, e⟩ := andThen_eq_next.1 e
        cases e
        exact h.trans (h.log _ _) (h.trans (h.writeback hp _ _ _ hu) (h.readSnoop _ _))
      · cases e; exact h.trans (h.log _ _) (h.readSnoop _ _)
      · cases e; exact h.trans (h.log _ _) (h.readSnoop _ _)

theorem Closed.inquireWrite (h : Closed P) {point : State → Result State} (hp : Keeps P point) (line : BitVec 27) :
    Keeps P (inquireWrite point line) := fun s t e => by
  unfold Machine.inquireWrite at e
  split at e
  · cases e
  · dsimp only at e
    split at e
    · cases e; exact h.trans (h.log _ _) (h.writeSnoop _ _)
    · split at e
      · obtain ⟨u, hu, e⟩ := andThen_eq_next.1 e
        cases e
        exact h.trans (h.log _ _) (h.trans (h.writeback hp _ _ _ hu) (h.writeSnoop _ _))
      · cases e; exact h.trans (h.log _ _) (h.writeSnoop _ _)
      · cases e; exact h.trans (h.log _ _) (h.writeSnoop _ _)

theorem Closed.masterMove (h : Closed P) {point : State → Result State} (hp : Keeps P point) (m : MasterMove) :
    Keeps P (masterMove point m) := fun s t e => by
  unfold Machine.masterMove at e
  split at e
  · split at e
    · split at e
      · cases e; exact h.refl s
      · cases e; exact h.log _ _
    · cases e
  · split at e
    · next hw =>
      split at e
      · cases e; exact h.refl s
      · next hh => cases e; exact h.masterWrite _ _ _ hw hh
    · cases e
  · exact h.inquireRead hp _ _ _ e
  · exact h.inquireWrite hp _ _ _ e

theorem Closed.masterMoves (h : Closed P) {point : State → Result State} (hp : Keeps P point) :
    ∀ ms : List MasterMove, Keeps P (masterMoves point ms)
  | [], s, t, e => by cases e; exact h.refl s
  | m :: rest, s, t, e => by
    obtain ⟨u, hu, e⟩ := andThen_eq_next.1 e
    exact h.trans (h.masterMove hp m _ _ hu) (Closed.masterMoves h hp rest _ _ e)

theorem Closed.interleaveWith (h : Closed P) : ∀ fuel, Keeps P (interleaveWith fuel)
  | 0, s, t, e => by cases e; exact h.refl s
  | fuel + 1, s, t, e => by
    unfold Machine.interleaveWith at e
    split at e
    · cases e; exact h.refl s
    · next hb => exact h.trans (h.between s _ _ hb) (h.masterMoves (h.interleaveWith fuel) _ _ _ e)

/-- Whatever another master does inside an instruction keeps the relation. -/
theorem Closed.interleave (h : Closed P) : Keeps P interleave := fun s t e => h.interleaveWith _ s t e

theorem Closed.writebackIfModified (h : Closed P) {point : State → Result State} (hp : Keeps P point)
    (line : BitVec 27) : Keeps P (writebackIfModified point line) := fun s t e => by
  unfold Machine.writebackIfModified at e
  split at e
  · cases e; exact h.refl s
  · split at e
    · exact h.writeback hp _ _ _ e
    · cases e; exact h.refl s
    · cases e; exact h.refl s

theorem Closed.writebackLines (h : Closed P) {point : State → Result State} (hp : Keeps P point) :
    ∀ ls : List (BitVec 27), Keeps P (writebackLines point ls)
  | [], s, t, e => by cases e; exact h.refl s
  | [line], s, t, e => h.writebackIfModified hp line _ _ e
  | line :: line' :: rest, s, t, e => by
    obtain ⟨u, hu, e⟩ := andThen_eq_next.1 e
    obtain ⟨v, hv, e⟩ := andThen_eq_next.1 e
    exact h.trans (h.writebackIfModified hp _ _ _ hu) (h.trans (hp _ _ hv)
      (Closed.writebackLines h hp (line' :: rest) _ _ e))

/-- Writing back every modified line keeps the relation. -/
theorem Closed.writebackAll (h : Closed P) : Keeps P (writebackAll Machine.interleave) := fun s _ e =>
  h.trans (h.draw s) (h.writebackLines h.interleave _ _ _ e)

/-! ### What bus activity never touches -/

/-- The two states agree on the registers, I/O space, the TLBs, the parameters and the schedule. -/
structure SameCore (s t : State) : Prop where
  regs : t.regs = s.regs
  pc : t.pc = s.pc
  cr0 : t.cr0 = s.cr0
  cpl : t.cpl = s.cpl
  mcAddress : t.mcAddress = s.mcAddress
  mcType : t.mcType = s.mcType
  tr12 : t.tr12 = s.tr12
  fpu : t.fpu = s.fpu
  io : t.io = s.io
  tlbs : t.tlbs = s.tlbs
  schedule : t.schedule = s.schedule
  platform : t.platform = s.platform
  fetched : t.fetched = s.fetched

theorem SameCore.refl (s : State) : SameCore s s := by constructor <;> rfl

theorem SameCore.trans {s t u : State} (h : SameCore s t) (h' : SameCore t u) : SameCore s u :=
  ⟨h'.1.trans h.1, h'.2.trans h.2, h'.3.trans h.3, h'.4.trans h.4, h'.5.trans h.5, h'.6.trans h.6, h'.7.trans h.7,
    h'.8.trans h.8, h'.9.trans h.9, h'.10.trans h.10, h'.11.trans h.11, h'.12.trans h.12, h'.13.trans h.13⟩

end Sys2Proof.Machine
end

