-- ==== Sys2Proof/Laws/Invariant.lean ====
section
/-!
SUPPORT. The invariant: bus activity keeps it and brings no line into a cache; fills, translations, fetches and data
accesses keep it.
-/

namespace Sys2Proof.Machine

theorem sameCore_closed : Closed SameCore where
  refl := SameCore.refl
  trans := SameCore.trans
  draw s := by constructor <;> rfl
  log s e := by constructor <;> rfl
  quad _ e := by obtain ⟨-, rfl⟩ := busWrite_eq_next.1 e; constructor <;> rfl
  drop s set way := by constructor <;> rfl
  readSnoop s line := by constructor <;> rfl
  writeSnoop s line := by constructor <;> rfl
  masterWrite s first bytes _ _ := by constructor <;> rfl
  between s _ rest _ := by constructor <;> rfl

/-! ### Caches that only lose lines -/

/-- Every line of the second cache was in the first, at its place, with its tag and its bytes. -/
def Shrinks {σ : Type} (c d : Cache σ) : Prop :=
  ∀ x ∈ d.lines, ∃ y ∈ c.lines, y.place = x.place ∧ y.tag = x.tag ∧ y.data = x.data

theorem Shrinks.refl {σ : Type} (c : Cache σ) : Shrinks c c := fun x h => ⟨x, h, rfl, rfl, rfl⟩

theorem Shrinks.trans {σ : Type} {c d e : Cache σ} (h : Shrinks c d) (h' : Shrinks d e) : Shrinks c e := fun x hx => by
  obtain ⟨y, hy, a⟩ := h' x hx
  obtain ⟨z, hz, b⟩ := h y hy
  exact ⟨z, hz, b.1.trans a.1, b.2.1.trans a.2.1, b.2.2.trans a.2.2⟩

theorem shrinks_drop {σ : Type} (c : Cache σ) (set : BitVec 7) (way : Way) : Shrinks c (c.drop set way) := fun x hx =>
  ⟨x, (mem_drop.1 hx).1, rfl, rfl, rfl⟩

theorem shrinks_dropHit {σ : Type} (c : Cache σ) (line : BitVec 27) : Shrinks c (c.dropHit line) := by
  unfold Cache.dropHit
  split
  · exact .refl c
  · exact shrinks_drop _ _ _

theorem shrinks_setHit {σ : Type} (c : Cache σ) (line : BitVec 27) (state : σ) : Shrinks c (c.setHit line state) := by
  unfold Cache.setHit
  split
  · exact .refl c
  · next l h =>
    intro x hx
    rcases mem_put.1 hx with rfl | hx
    · exact ⟨l, (hit_spec h).1, rfl, rfl, rfl⟩
    · exact ⟨x, hx.1, rfl, rfl, rfl⟩

theorem wf_dropHit {σ : Type} {c : Cache σ} (h : c.wf) (line : BitVec 27) : (c.dropHit line).wf := by
  unfold Cache.dropHit
  split
  · exact h
  · exact wf_drop h _ _

/-- Changing what a line of the cache holds, not where it is, keeps the canonical form. -/
theorem wf_put_same {σ : Type} {c : Cache σ} (h : c.wf) {l l' : CacheLine σ} (hl : l ∈ c.lines) (hp : l'.place = l.place)
    (ht : l'.tag = l.tag) : (c.put l').wf := by
  refine wf_put h fun x hx hne e => hne ?_
  have hs := ((place_eq_iff l' l).1 hp).1
  have : x = l := address_inj h hx hl ((address_eq_iff x _).2 (by simp [CacheLine.address, e.1, e.2, hs, ht]))
  rw [this, hp]

theorem wf_setHit {σ : Type} {c : Cache σ} (h : c.wf) (line : BitVec 27) (state : σ) : (c.setHit line state).wf := by
  unfold Cache.setHit
  split
  · exact h
  · next l hl => exact wf_put_same h (hit_spec hl).1 rfl rfl

/-- A line address that misses goes on missing while the cache only loses lines. -/
theorem hit_none_of_shrinks {σ : Type} {c d : Cache σ} (h : Shrinks c d) {line : BitVec 27} (hc : c.hit line = none) :
    d.hit line = none := by
  refine hit_eq_none.2 fun x hx e => ?_
  obtain ⟨y, hy, hp, ht, -⟩ := h x hx
  refine hit_eq_none.1 hc y hy ((address_eq_iff y line).2 ?_)
  have := (address_eq_iff x line).1 e
  exact ⟨((place_eq_iff y x).1 hp).1.trans this.1, ht.trans this.2⟩

/-! ### Bus activity keeps the invariant -/

/-- The invariant is kept and no line enters a cache. -/
structure Tame (s t : State) : Prop where
  inv : s.Inv → t.Inv
  dc : Shrinks s.dc t.dc
  cc : Shrinks s.cc t.cc

theorem busRun_lt {first : Dword} {n : Nat} (h : busRunWf first.toNat n = true) :
    first.toNat + n ≤ Config.memorySize := by
  simp only [busRunWf, Bool.and_eq_true, decide_eq_true_eq] at h
  have := first.isLt
  simp only [Config.memorySize]; omega

theorem State.Inv.withMem {s t : State} (h : s.Inv) (hm : Memory.wf Config.memorySize t.mem) (hio : t.io = s.io)
    (hdc : t.dc = s.dc) (hcc : t.cc = s.cc) (ht : t.tlbs = s.tlbs) : t.Inv :=
  ⟨hm, hio ▸ h.io, hdc ▸ h.dc, hcc ▸ h.cc, ht ▸ h.data4k, ht ▸ h.data4m, ht ▸ h.code⟩

theorem quadWrite_lt (line : BitVec 27) {q : Nat} (hq : q < 4) (data : Vector Byte 32) :
    (lineQuad line q).toNat + (lineBytes data (8 * q) 8).length ≤ Config.memorySize := by
  rw [toNat_lineQuad line hq, length_lineBytes]
  have := line.isLt
  simp only [Config.memorySize]; omega

theorem tame_closed : Closed Tame where
  refl s := ⟨id, .refl _, .refl _⟩
  trans h h' := ⟨fun i => h'.inv (h.inv i), h.dc.trans h'.dc, h.cc.trans h'.cc⟩
  draw s := ⟨fun i => i.withMem i.mem rfl rfl rfl rfl, .refl _, .refl _⟩
  log s e := ⟨fun i => i.withMem i.mem rfl rfl rfl rfl, .refl _, .refl _⟩
  quad hq e := by
    obtain ⟨-, rfl⟩ := busWrite_eq_next.1 e
    exact ⟨fun i => i.withMem (Memory.wf_writeRun _ i.mem _ (quadWrite_lt _ hq _)) rfl rfl rfl rfl, .refl _, .refl _⟩
  drop s set way := ⟨fun i => ⟨i.mem, i.io, wf_drop i.dc _ _, i.cc, i.data4k, i.data4m, i.code⟩,
    shrinks_drop _ _ _, .refl _⟩
  readSnoop s line := by
    refine ⟨fun i => ⟨i.mem, i.io, ?_, i.cc, i.data4k, i.data4m, i.code⟩, ?_, .refl _⟩
    · rw [afterReadSnoop_dc]; split
      · exact wf_setHit i.dc _ _
      · exact wf_dropHit i.dc _
    · rw [afterReadSnoop_dc]; split
      · exact shrinks_setHit _ _ _
      · exact shrinks_dropHit _ _
  writeSnoop s line := ⟨fun i => ⟨i.mem, i.io, wf_dropHit i.dc _, wf_dropHit i.cc _, i.data4k, i.data4m, i.code⟩,
    shrinks_dropHit _ _, shrinks_dropHit _ _⟩
  masterWrite s first bytes hw _ :=
    ⟨fun i => i.withMem (Memory.wf_writeRun _ i.mem _ (busRun_lt hw)) rfl rfl rfl rfl, .refl _, .refl _⟩
  between s _ rest _ := ⟨fun i => i.withMem i.mem rfl rfl rfl rfl, .refl _, .refl _⟩

/-! ### Fills -/

/-- After an eviction no line is at the place. -/
theorem evictData_place {point : State → Result State} {set : BitVec 7} {way : Way} {s t : State}
    (h : evictData point set way s = .next t) : ∀ x ∈ t.dc.lines, ¬(x.set = set ∧ x.way = way) := by
  unfold evictData at h
  split at h
  · next hn => cases h; exact lineAt_eq_none.1 hn
  · split at h
    · obtain ⟨u, -, h⟩ := andThen_eq_next.1 h
      cases h
      exact fun x hx => (mem_drop.1 hx).2
    · cases h; exact fun x hx => (mem_drop.1 hx).2
    · cases h; exact fun x hx => (mem_drop.1 hx).2

/-- A line may enter a cache at a place that holds none, when its address misses. -/
theorem wf_put_new {σ : Type} {c : Cache σ} (h : c.wf) {l : CacheLine σ} {line : BitVec 27} (hl : l.address = line)
    (hm : c.hit line = none) : (c.put l).wf :=
  wf_put h fun x hx _ e => hit_eq_none.1 hm x hx ((address_eq_iff x line).2
    (by have := (address_eq_iff l line).1 hl; exact ⟨e.1.trans this.1, e.2.trans this.2⟩))

/-- All a data-cache fill can answer: the line that was fetched sits in the cache, which otherwise only lost lines. -/
structure FilledData (line : BitVec 27) (s : State) (r : CacheLine DataState × State) (u : State)
    (data : Vector Byte 32) : Prop where
  tame : Tame s u
  core : SameCore s u
  vacant : ∀ x ∈ u.dc.lines, ¬(x.set = r.1.set ∧ x.way = r.1.way)
  address : r.1.address = line
  data : r.1.data = data
  clean : r.1.state ≠ .M
  state : r.2 = State.touchData { u.afterDraw with dc := u.dc.put r.1 } (lineSet line)

theorem fillData_spec {line : BitVec 27} {s : State} {r : CacheLine DataState × State}
    (h : fillData interleave line s = .next r) : ∃ u data, FilledData line s r u data := by
  obtain ⟨e, he, h⟩ := andThen_eq_next.1 h
  obtain ⟨f, hf, h⟩ := andThen_eq_next.1 h
  cases h
  have hit := tame_closed.interleave
  have hio := sameCore_closed.interleave
  have t1 := tame_closed.trans (tame_closed.draw s) (tame_closed.evictData hit _ _ _ _ he)
  have t2 := tame_closed.readLine hit hf
  refine ⟨f.2, f.1, tame_closed.trans t1 t2, ?_, ?_, ?_, rfl, ?_, rfl⟩
  · exact sameCore_closed.trans (sameCore_closed.trans (sameCore_closed.draw s)
      (sameCore_closed.evictData hio _ _ _ _ he)) (sameCore_closed.readLine hio hf)
  · intro x hx e
    obtain ⟨y, hy, hp, -⟩ := t2.dc x hx
    exact evictData_place he y hy (by
      have := (place_eq_iff y x).1 hp
      exact ⟨this.1.trans e.1, this.2.trans e.2⟩)
  · simp [CacheLine.address]
  · dsimp only; split <;> simp

theorem fillData_inv {line : BitVec 27} {s : State} {r : CacheLine DataState × State}
    (h : fillData interleave line s = .next r) (hm : s.dc.hit line = none) (i : s.Inv) : r.2.Inv := by
  obtain ⟨u, data, f⟩ := fillData_spec h
  have iu := f.tame.inv i
  rw [f.state]
  exact ⟨iu.mem, iu.io, wf_setLru (wf_put_new iu.dc f.address (hit_none_of_shrinks f.tame.dc hm)) _ _, iu.cc,
    iu.data4k, iu.data4m, iu.code⟩

/-- All a code-cache fill can answer. -/
structure FilledCode (line : BitVec 27) (s : State) (r : CacheLine CodeState × State) (u : State)
    (data : Vector Byte 32) : Prop where
  tame : Tame s u
  core : SameCore s u
  address : r.1.address = line
  data : r.1.data = data
  state : r.2 = State.touchCode { u with cc := u.cc.put r.1 } (lineSet line)

theorem evictCode_tame (set : BitVec 7) (way : Way) (s : State) : Tame s (evictCode set way s) :=
  ⟨fun i => ⟨i.mem, i.io, i.dc, wf_drop i.cc _ _, i.data4k, i.data4m, i.code⟩, .refl _, shrinks_drop _ _ _⟩

theorem evictCode_core (set : BitVec 7) (way : Way) (s : State) : SameCore s (evictCode set way s) := by
  constructor <;> rfl

theorem fillCode_spec {line : BitVec 27} {s : State} {r : CacheLine CodeState × State}
    (h : fillCode interleave line s = .next r) : ∃ u data, FilledCode line s r u data := by
  obtain ⟨f, hf, h⟩ := andThen_eq_next.1 h
  cases h
  refine ⟨f.2, f.1, ?_, ?_, ?_, rfl, rfl⟩
  · exact tame_closed.trans (tame_closed.trans (tame_closed.draw s) (evictCode_tame _ _ _))
      (tame_closed.readLine tame_closed.interleave hf)
  · exact sameCore_closed.trans (sameCore_closed.trans (sameCore_closed.draw s) (evictCode_core _ _ _))
      (sameCore_closed.readLine sameCore_closed.interleave hf)
  · simp [CacheLine.address]

theorem fillCode_inv {line : BitVec 27} {s : State} {r : CacheLine CodeState × State}
    (h : fillCode interleave line s = .next r) (hm : s.cc.hit line = none) (i : s.Inv) : r.2.Inv := by
  obtain ⟨u, data, f⟩ := fillCode_spec h
  have iu := f.tame.inv i
  rw [f.state]
  exact ⟨iu.mem, iu.io, iu.dc, wf_setLru (wf_put_new iu.cc f.address (hit_none_of_shrinks f.tame.cc hm)) _ _,
    iu.data4k, iu.data4m, iu.code⟩

/-! ### Translation -/

theorem wf_load {sets w : Nat} {t : Tlb sets w} (h : t.wf) (hs : 0 < sets) (page : BitVec w) (attr : PageAttr)
    (d : Nat) : (t.load page attr d).wf := by
  unfold Tlb.load
  dsimp only [Tlb.wf]
  split
  · refine ⟨fun e he => ?_, List.pairwise_cons.2 ⟨fun x hx e => ?_, h.2.filter _⟩⟩
    · rcases List.mem_cons.1 he with rfl | he
      · exact ⟨Nat.mod_lt _ hs, Nat.mod_lt _ (by decide), rfl⟩
      · exact h.1 e (List.mem_filter.1 he).1
    · have := (List.mem_filter.1 hx).2
      simp [← e.1, ← e.2] at this
  · exact h

theorem loadCodeTlb_inv {s : State} (i : s.Inv) (a : Dword) : (s.loadCodeTlb a).Inv :=
  ⟨i.mem, i.io, i.dc, i.cc, i.data4k, i.data4m, wf_load i.code (by decide) _ _ _⟩

theorem loadDataTlb_inv {s : State} (i : s.Inv) (a : Dword) : (s.loadDataTlb a).Inv := by
  refine ⟨i.mem, i.io, i.dc, i.cc, ?_, ?_, ?_⟩ <;> unfold State.loadDataTlb <;> dsimp only <;> split
  · exact wf_load i.data4k (by decide) _ _ _
  · exact i.data4k
  · exact i.data4m
  · exact wf_load i.data4m (by decide) _ _ _
  · exact i.code
  · exact i.code

/-! ### Fetches -/

theorem fetchByte_inv {a : Dword} {s : State} {r : Byte × State} (h : fetchByte a s = .next r) (i : s.Inv) : r.2.Inv := by
  have i1 := loadCodeTlb_inv i a
  unfold fetchByte at h
  dsimp only [translate] at h
  split at h
  · cases h
    exact ⟨i1.mem, i1.io, i1.dc, wf_setLru i1.cc _ _, i1.data4k, i1.data4m, i1.code⟩
  · next hm =>
    have i2 := (tame_closed.draw _).inv i1
    split at h
    · obtain ⟨f, hf, h⟩ := andThen_eq_next.1 h
      cases h
      exact fillCode_inv hf hm i2
    · obtain ⟨f, hf, h⟩ := andThen_eq_next.1 h
      cases h
      obtain ⟨-, rfl⟩ := busRead_eq_next.1 hf
      exact (tame_closed.log _ _).inv i2

/-- All the fetch of one step can answer. -/
theorem fetchInstr_spec {s : State} {r : Instr × State} (h : fetchInstr s = .next r) :
    s.platform.endPc ≠ some s.pc ∧ s.pc.toNat + 2 < Config.memorySize ∧
      ∃ r0 r1 rest, fetchByte s.pc s = .next r0 ∧ fetchByte (s.pc + 1) r0.2 = .next r1 ∧
        decode [r0.1, r1.1] = .ok (r.1, rest) ∧ r1.2.markFetched s.pc = r.2 := by
  unfold fetchInstr at h
  split at h
  · cases h
  · next h1 =>
    split at h
    · cases h
    · next h2 =>
      obtain ⟨r0, e0, h⟩ := andThen_eq_next.1 h
      obtain ⟨r1, e1, h⟩ := andThen_eq_next.1 h
      split at h
      · next i rest hd => cases h; exact ⟨h1, by omega, r0, r1, rest, e0, e1, hd, rfl⟩
      · cases h

theorem fetchInstr_inv {s : State} {r : Instr × State} (h : fetchInstr s = .next r) (i : s.Inv) : r.2.Inv := by
  obtain ⟨-, -, r0, r1, -, e0, e1, -, e2⟩ := fetchInstr_spec h
  have i1 := fetchByte_inv e1 (fetchByte_inv e0 i)
  exact e2 ▸ ⟨i1.mem, i1.io, i1.dc, i1.cc, i1.data4k, i1.data4m, i1.code⟩

/-! ### Frames of a fetch -/

/-- A fetch changes no register, no byte of I/O space, no parameter and no move to come; only the code TLB. -/
structure SameFetch (s t : State) : Prop where
  regs : t.regs = s.regs
  pc : t.pc = s.pc
  cr0 : t.cr0 = s.cr0
  cpl : t.cpl = s.cpl
  mcAddress : t.mcAddress = s.mcAddress
  mcType : t.mcType = s.mcType
  tr12 : t.tr12 = s.tr12
  fpu : t.fpu = s.fpu
  io : t.io = s.io
  data4k : t.tlbs.data4k = s.tlbs.data4k
  data4m : t.tlbs.data4m = s.tlbs.data4m
  schedule : t.schedule = s.schedule
  platform : t.platform = s.platform

theorem SameFetch.trans {s t u : State} (h : SameFetch s t) (h' : SameFetch t u) : SameFetch s u :=
  ⟨h'.1.trans h.1, h'.2.trans h.2, h'.3.trans h.3, h'.4.trans h.4, h'.5.trans h.5, h'.6.trans h.6, h'.7.trans h.7,
    h'.8.trans h.8, h'.9.trans h.9, h'.10.trans h.10, h'.11.trans h.11, h'.12.trans h.12, h'.13.trans h.13⟩

theorem SameCore.toFetch {s t : State} (h : SameCore s t) : SameFetch s t :=
  ⟨h.1, h.2, h.3, h.4, h.5, h.6, h.7, h.8, h.9, by rw [h.tlbs], by rw [h.tlbs], h.11, h.12⟩

theorem fetchByte_frame {a : Dword} {s : State} {r : Byte × State} (h : fetchByte a s = .next r) : SameFetch s r.2 := by
  have h1 : SameFetch s (s.loadCodeTlb a).afterDraw := by constructor <;> rfl
  unfold fetchByte at h
  dsimp only [translate] at h
  split at h
  · cases h; constructor <;> rfl
  · split at h
    · obtain ⟨f, hf, h⟩ := andThen_eq_next.1 h
      cases h
      obtain ⟨u, data, fu⟩ := fillCode_spec hf
      refine h1.trans (fu.core.toFetch.trans ?_)
      rw [fu.state]; constructor <;> rfl
    · obtain ⟨f, hf, h⟩ := andThen_eq_next.1 h
      cases h
      obtain ⟨-, rfl⟩ := busRead_eq_next.1 hf
      constructor <;> rfl

theorem fetchInstr_frame {s : State} {r : Instr × State} (h : fetchInstr s = .next r) : SameFetch s r.2 := by
  obtain ⟨-, -, r0, r1, -, e0, e1, -, e2⟩ := fetchInstr_spec h
  have h := (fetchByte_frame e0).trans (fetchByte_frame e1)
  exact e2 ▸ h.trans (by constructor <;> rfl)

/-- A byte fetched adds no program text by itself. -/
theorem fetchByte_fetched {a : Dword} {s : State} {r : Byte × State} (h : fetchByte a s = .next r) :
    r.2.fetched = s.fetched := by
  unfold fetchByte at h
  dsimp only [translate] at h
  split at h
  · cases h; rfl
  · split at h
    · obtain ⟨f, hf, h⟩ := andThen_eq_next.1 h
      cases h
      obtain ⟨u, data, fu⟩ := fillCode_spec hf
      rw [fu.state]
      exact fu.core.fetched
    · obtain ⟨f, hf, h⟩ := andThen_eq_next.1 h
      cases h
      obtain ⟨-, rfl⟩ := busRead_eq_next.1 hf
      rfl

/-- After a fetch the two addresses at pc are program text, and nothing else is new. -/
theorem fetchInstr_fetched {s : State} {r : Instr × State} (h : fetchInstr s = .next r) :
    r.2.fetched = (s.markFetched s.pc).fetched := by
  obtain ⟨-, -, r0, r1, -, e0, e1, -, e2⟩ := fetchInstr_spec h
  rw [← e2, markFetched_fetched, markFetched_fetched, fetchByte_fetched e1, fetchByte_fetched e0]

theorem mem_insertAddress {a b : Nat} {l : List Nat} : b ∈ insertAddress a l ↔ b = a ∨ b ∈ l := by
  unfold insertAddress
  split
  · next h => exact ⟨.inr, fun h' => h'.elim (fun e => e ▸ List.contains_iff_mem.1 h) id⟩
  · exact List.mem_cons

theorem mem_markFetched {s : State} {pc : Dword} {b : Nat} :
    b ∈ (s.markFetched pc).fetched ↔ b = pc.toNat ∨ b = pc.toNat + 1 ∨ b ∈ s.fetched := by
  rw [markFetched_fetched, mem_insertAddress, mem_insertAddress]

/-- An address is ahead when it lies from pc up to the end of the text. -/
theorem holds_textAhead {s : State} {a : Nat} :
    s.textAhead.holds a = true ↔ s.pc.toNat ≤ a ∧ a < s.textEnd := by
  have h1 : s.textAhead.first = s.pc.toNat := rfl
  have h2 : s.textAhead.count = s.textEnd - s.pc.toNat := rfl
  rw [AddrRange.holds, Bool.and_eq_true, decide_eq_true_eq, decide_eq_true_eq, h1, h2]
  omega

/-- An instruction that is not at the end lies wholly before it. -/
theorem textEnd_ge {s : State} (h : s.platform.endPc ≠ some s.pc) (hw : s.pc.toNat + 2 < Config.memorySize) :
    s.pc.toNat + 2 ≤ s.textEnd := by
  unfold State.textEnd
  cases he : s.platform.endPc with
  | none => dsimp only; omega
  | some e =>
    have : e.toNat ≠ s.pc.toNat := fun c => h (by rw [he, BitVec.eq_of_toNat_eq c])
    dsimp only; split <;> omega

/-- Moving past an instruction does not move the end of the text. -/
theorem textEnd_advance {s t : State} (h : s.platform.endPc ≠ some s.pc) (he : t.platform.endPc = s.platform.endPc)
    (hp : t.pc.toNat = s.pc.toNat + 2) : t.textEnd = s.textEnd := by
  unfold State.textEnd
  rw [he, hp]
  cases hc : s.platform.endPc with
  | none => rfl
  | some e =>
    have : e.toNat ≠ s.pc.toNat := fun c => h (by rw [hc, BitVec.eq_of_toNat_eq c])
    dsimp only; split <;> split <;> first | rfl | omega

/-- An address the run has fetched from is program text. -/
theorem codeRange_of_fetched {s : State} {a : Nat} (h : a ∈ s.fetched) : s.codeRange a = true := by
  simp [State.codeRange, h]

/-- What is program text depends on the launch, the addresses fetched and the pc alone. -/
theorem codeRange_congr {s t : State} (hp : t.platform.codeRanges = s.platform.codeRanges)
    (he : t.platform.endPc = s.platform.endPc) (hpc : t.pc = s.pc) (hf : t.fetched = s.fetched) (a : Nat) :
    t.codeRange a = s.codeRange a := by
  simp only [State.codeRange, State.textAhead, State.textEnd, hp, he, hpc, hf]

/-- The bytes at a pc where a fetch is made are program text. -/
theorem codeRange_at_pc {s : State} (h : s.platform.endPc ≠ some s.pc) (hw : s.pc.toNat + 2 < Config.memorySize)
    {a : Nat} (h1 : s.pc.toNat ≤ a) (h2 : a < s.pc.toNat + 2) : s.codeRange a = true := by
  have := textEnd_ge h hw
  simp only [State.codeRange, Bool.or_eq_true]
  exact .inr (holds_textAhead.2 ⟨h1, by omega⟩)

/-- Fetching an instruction and moving past it leaves the program text as it was: its bytes were ahead and are now among
those fetched. -/
theorem codeRange_advance {s t : State} (h : s.platform.endPc ≠ some s.pc) (hw : s.pc.toNat + 2 < Config.memorySize)
    (hp : t.platform = s.platform) (hpc : t.pc.toNat = s.pc.toNat + 2) (hf : t.fetched = (s.markFetched s.pc).fetched)
    (a : Nat) : t.codeRange a = s.codeRange a := by
  have hend : t.textEnd = s.textEnd := textEnd_advance h (by rw [hp]) hpc
  have hge := textEnd_ge h hw
  rw [Bool.eq_iff_iff]
  simp only [State.codeRange, Bool.or_eq_true, holds_textAhead, hf, List.contains_iff_mem, mem_markFetched, hend, hpc, hp]
  constructor
  · rintro ((h | h | h | h) | h)
    · exact .inl (.inl h)
    · exact .inr (by omega)
    · exact .inr (by omega)
    · exact .inl (.inr h)
    · exact .inr (by omega)
  · rintro ((h | h) | h)
    · exact .inl (.inl h)
    · exact .inl (.inr (.inr (.inr h)))
    · by_cases c : a < s.pc.toNat + 2
      · exact .inl (.inr (by omega))
      · exact .inr (by omega)

end Sys2Proof.Machine
end

