-- ==== Sys2Proof/Laws/View.lean ====
section
/-!
SUPPORT. Data cache and memory as one copy: while no other master writes memory, nothing but a store of the processor
and INVD changes what a data read returns.
-/

namespace Sys2Proof.Machine

/-! ### Bytes of lines -/

theorem lineByte_lt {data : Vector Byte 32} {o : Nat} (h : o < 32) : lineByte data o = data[o] := by
  simp [lineByte, h]

theorem lineByte_putLineBytes (bytes : List Byte) : ∀ (data : Vector Byte 32) (k : Nat) {o : Nat}, o < 32 →
    lineByte (putLineBytes data k bytes) o =
      if h : k ≤ o ∧ o < k + bytes.length then bytes[o - k]'(by omega) else lineByte data o := by
  induction bytes with
  | nil => intro data k o _; rw [dif_neg (fun h => by simp at h; omega)]; rfl
  | cons b rest ih =>
    intro data k o ho
    rw [putLineBytes, ih _ _ ho]
    simp only [List.length_cons]
    by_cases h1 : o = k
    · subst h1
      rw [dif_neg (by omega), dif_pos (by omega), lineByte_lt ho, Vector.getElem_setIfInBounds_self]
      simp
    · by_cases h2 : k + 1 ≤ o ∧ o < k + 1 + rest.length
      · rw [dif_pos h2, dif_pos (by omega)]
        have : o - k = (o - (k + 1)) + 1 := by omega
        simp [this]
      · rw [dif_neg h2, dif_neg (by omega), lineByte_lt ho, lineByte_lt ho,
          Vector.getElem_setIfInBounds_ne _ (by omega)]

theorem getElem_lineBytes {data : Vector Byte 32} {k n i : Nat} (h : i < (lineBytes data k n).length) :
    (lineBytes data k n)[i] = lineByte data (k + i) := by
  have := length_lineBytes data k n
  simp [lineBytes, lineByte, List.getElem_take, List.getElem_drop, show k + i < 32 by omega]

/-! ### What a data read returns -/

theorem view_hit {s : State} (i : s.Inv) {l : CacheLine DataState} (hl : l ∈ s.dc.lines) {a : Nat}
    (ha : l.address = lineOf (BitVec.ofNat 32 a)) : s.view a = lineByte l.data (a % 32) := by
  unfold State.view
  rw [(hit_eq_some i.dc).2 ⟨hl, ha⟩]

theorem view_miss {s : State} {a : Nat} (h : s.dc.hit (lineOf (BitVec.ofNat 32 a)) = none) :
    s.view a = Memory.read s.mem a := by
  unfold State.view
  rw [h]

theorem view_byteAddress {s : State} (i : s.Inv) {l : CacheLine DataState} (hl : l ∈ s.dc.lines) {o : Nat}
    (ho : o < 32) : s.view (l.byteAddress o) = lineByte l.data o := by
  rw [view_hit i hl (a := l.byteAddress o) (lineOf_byteAddress _ ho).symm]
  congr 1
  simp only [CacheLine.byteAddress]; omega

/-- Memory holds the byte that a data read returns. -/
def State.Settled (s : State) (a : Nat) : Prop :=
  Memory.read s.mem a = s.view a

/-- The invariant holds, lines that are not modified agree with memory, and no coming move of another master inside an
instruction writes memory. -/
structure State.Good (s : State) : Prop where
  inv : s.Inv
  clean : s.CleanLinesAgree
  between : s.NoWriteBetween

/-- Every byte of a line that is not modified is settled. -/
theorem State.Good.settled {s : State} (g : s.Good) {l : CacheLine DataState} (hl : l ∈ s.dc.lines)
    (hs : l.state ≠ .M) {o : Nat} (ho : o < 32) : s.Settled (l.byteAddress o) := by
  rw [State.Settled, view_byteAddress g.inv hl ho, g.clean l hl hs o ho]

/-- The second state is good, data reads return what they did, and a settled byte stays settled. -/
structure Quiet (s t : State) : Prop where
  good : t.Good
  view : ∀ a, a < Config.memorySize → t.view a = s.view a
  settled : ∀ a, a < Config.memorySize → s.Settled a → t.Settled a

theorem Quiet.refl {s : State} (g : s.Good) : Quiet s s := ⟨g, fun _ _ => rfl, fun _ _ h => h⟩

theorem Quiet.trans {s t u : State} (h : Quiet s t) (h' : Quiet t u) : Quiet s u :=
  ⟨h'.good, fun a ha => (h'.view a ha).trans (h.view a ha), fun a ha hs => h'.settled a ha (h.settled a ha hs)⟩

theorem byteAddress_lt {σ : Type} (l : CacheLine σ) {o : Nat} (h : o < 32) :
    l.byteAddress o < Config.memorySize := by
  have := l.address.isLt
  simp only [CacheLine.byteAddress, Config.memorySize]; omega

/-! ### Elementary changes -/

theorem hit_congr {c d : Cache DataState} (h : d.lines = c.lines) (line : BitVec 27) : d.hit line = c.hit line := by
  simp only [Cache.hit, h]

/-- Memory may take bytes that data reads already return. -/
theorem quiet_mem {s t : State} (g : s.Good) (hi : t.Inv) (hb : t.NoWriteBetween) (hl : t.dc.lines = s.dc.lines)
    (hm : ∀ a, a < Config.memorySize → Memory.read t.mem a = Memory.read s.mem a ∨ Memory.read t.mem a = s.view a) :
    Quiet s t := by
  have hv : ∀ a, a < Config.memorySize → t.view a = s.view a := fun a ha => by
    unfold State.view
    rw [hit_congr hl]
    split
    · rfl
    · next h => rcases hm a ha with h' | h'
                · exact h'
                · rw [h', view_miss h]
  have hs : ∀ a, a < Config.memorySize → s.Settled a → t.Settled a := fun a ha h => by
    unfold State.Settled at h ⊢
    rw [hv a ha]
    rcases hm a ha with h' | h' <;> rw [h']
    exact h
  refine ⟨⟨hi, fun l hl' hne o ho => ?_, hb⟩, hv, hs⟩
  have hl'' : l ∈ s.dc.lines := hl ▸ hl'
  have := hs _ (byteAddress_lt l ho) (g.settled hl'' hne ho)
  rw [State.Settled, view_byteAddress hi hl' ho] at this
  exact this

theorem quiet_same {s t : State} (g : s.Good) (hi : t.Inv) (hb : t.between = s.between) (hl : t.dc.lines = s.dc.lines)
    (hm : t.mem = s.mem) : Quiet s t :=
  quiet_mem g hi (fun ms h => g.between ms (hb ▸ h)) hl fun a _ => .inl (by rw [hm])

theorem quiet_draw {s : State} (g : s.Good) : Quiet s s.afterDraw :=
  quiet_same g ((tame_closed.draw s).inv g.inv) rfl rfl rfl

theorem quiet_log {s : State} (g : s.Good) (e : BusEvent) : Quiet s (s.log e) :=
  quiet_same g ((tame_closed.log s e).inv g.inv) rfl rfl rfl

/-- A line all of whose bytes are settled may leave the data cache. -/
theorem quiet_drop {s t : State} (g : s.Good) (hi : t.Inv) (hb : t.between = s.between) (set : BitVec 7) (way : Way)
    (hl : t.dc = s.dc.drop set way) (hm : t.mem = s.mem)
    (h : ∀ x ∈ s.dc.lines, x.set = set → x.way = way → ∀ o, o < 32 → s.Settled (x.byteAddress o)) : Quiet s t := by
  have hv : ∀ a, a < Config.memorySize → t.view a = s.view a := fun a ha => by
    cases hh : s.dc.hit (lineOf (BitVec.ofNat 32 a)) with
    | none =>
      rw [view_miss hh, view_miss, hm]
      rw [hl]; exact hit_none_of_shrinks (shrinks_drop _ _ _) hh
    | some x =>
      obtain ⟨hx, hax⟩ := hit_spec hh
      by_cases hp : x.set = set ∧ x.way = way
      · have haddr : x.byteAddress (a % 32) = a := by
          have := congrArg BitVec.toNat hax
          rw [toNat_lineOf, BitVec.toNat_ofNat] at this
          simp only [CacheLine.byteAddress, Config.memorySize] at *; omega
        have := h x hx hp.1 hp.2 (a % 32) (by omega)
        rw [haddr, State.Settled] at this
        rw [← this, view_miss, hm]
        refine hit_eq_none.2 fun y hy e => ?_
        rw [hl] at hy
        obtain ⟨hy, hny⟩ := mem_drop.1 hy
        exact hny (address_inj g.inv.dc hy hx (e.trans hax.symm) ▸ hp)
      · rw [view_hit g.inv hx hax, view_hit hi (hl ▸ mem_drop.2 ⟨hx, hp⟩) hax]
  have hs : ∀ a, a < Config.memorySize → s.Settled a → t.Settled a := fun a ha h => by
    rw [State.Settled, hv a ha, hm]; exact h
  refine ⟨⟨hi, fun l hl' hne o ho => ?_, fun ms h => g.between ms (hb ▸ h)⟩, hv, hs⟩
  have := hs _ (byteAddress_lt l ho) (g.settled (mem_drop.1 (hl ▸ hl')).1 hne ho)
  rw [State.Settled, view_byteAddress hi hl' ho] at this
  exact this

/-- A line all of whose bytes are settled may change to any state. -/
theorem quiet_setState {s t : State} (g : s.Good) (hi : t.Inv) (hb : t.between = s.between) {l : CacheLine DataState}
    (hl : l ∈ s.dc.lines) (state : DataState) (hd : t.dc = s.dc.put { l with state := state }) (hm : t.mem = s.mem)
    (h : ∀ o, o < 32 → s.Settled (l.byteAddress o)) : Quiet s t := by
  have hmem : ∀ x, x ∈ t.dc.lines ↔ x = { l with state := state } ∨ (x ∈ s.dc.lines ∧ x.place ≠ l.place) := fun x => by
    rw [hd]; exact mem_put
  have hv : ∀ a, a < Config.memorySize → t.view a = s.view a := fun a ha => by
    cases hh : s.dc.hit (lineOf (BitVec.ofNat 32 a)) with
    | none =>
      rw [view_miss hh, view_miss, hm]
      refine hit_eq_none.2 fun y hy e => ?_
      rcases (hmem y).1 hy with rfl | hy
      · exact hit_eq_none.1 hh l hl e
      · exact hit_eq_none.1 hh y hy.1 e
    | some x =>
      obtain ⟨hx, hax⟩ := hit_spec hh
      rw [view_hit g.inv hx hax]
      by_cases hp : x.place = l.place
      · have : x = l := place_inj g.inv.dc hx hl hp
        subst this
        exact view_hit hi ((hmem _).2 (.inl rfl)) hax
      · exact view_hit hi ((hmem _).2 (.inr ⟨hx, hp⟩)) hax
  have hs : ∀ a, a < Config.memorySize → s.Settled a → t.Settled a := fun a ha h => by
    rw [State.Settled, hv a ha, hm]; exact h
  refine ⟨⟨hi, fun x hx hne o ho => ?_, fun ms h => g.between ms (hb ▸ h)⟩, hv, hs⟩
  have : t.Settled (x.byteAddress o) := by
    apply hs _ (byteAddress_lt x ho)
    rcases (hmem x).1 hx with rfl | hx
    · exact h o ho
    · exact g.settled hx.1 hne ho
  rw [State.Settled, view_byteAddress hi hx ho] at this
  exact this

/-! ### Whole-line transfers -/

/-- What another master may do at a point, as far as a claim without its writes goes. -/
def QuietPoint (point : State → Result State) : Prop :=
  ∀ s t, s.Good → point s = .next t → Quiet s t

theorem quietPoint_next : QuietPoint .next := fun s t g e => by cases e; exact .refl g

/-- Writing a quadword that data reads already return settles it. -/
theorem quiet_quad {s t : State} (g : s.Good) {line : BitVec 27} {data : Vector Byte 32} {q : Nat} (hq : q < 4)
    (hd : ∀ o, o < 32 → s.view (32 * line.toNat + o) = lineByte data o)
    (e : busWrite (lineQuad line q) (lineBytes data (8 * q) 8) s = .next t) :
    Quiet s t ∧ ∀ o, 8 * q ≤ o → o < 8 * q + 8 → t.Settled (32 * line.toNat + o) := by
  have hti := (tame_closed.quad hq e).inv g.inv
  obtain ⟨-, rfl⟩ := busWrite_eq_next.1 e
  have hlen := length_lineBytes data (8 * q) 8
  have hin : ∀ o, 8 * q ≤ o → o < 8 * q + 8 →
      Memory.read (Memory.writeRun s.mem (lineQuad line q).toNat (lineBytes data (8 * q) 8)) (32 * line.toNat + o) =
        lineByte data o := fun o h1 h2 => by
    rw [toNat_lineQuad line hq, show 32 * line.toNat + o = 32 * line.toNat + 8 * q + (o - 8 * q) by omega,
      Memory.read_writeRun_inside _ _ _ _ (by omega), getElem_lineBytes]
    congr 1; omega
  have hquiet := quiet_mem (t := { s.log (.memWrite (quadOf (lineQuad line q))
      (byteEnables (lineQuad line q) (lineBytes data (8 * q) 8).length) (s.pageAttr (lineQuad line q))
      (lineBytes data (8 * q) 8)) with
      mem := Memory.writeRun s.mem (lineQuad line q).toNat (lineBytes data (8 * q) 8) }) g hti g.between rfl
    (fun a _ => by
      by_cases ha : 32 * line.toNat + 8 * q ≤ a ∧ a < 32 * line.toNat + 8 * q + 8
      · refine .inr ?_
        have := hin (a - 32 * line.toNat) (by omega) (by omega)
        rw [show 32 * line.toNat + (a - 32 * line.toNat) = a by omega] at this
        rw [this, ← hd _ (by omega)]
        congr 1; omega
      · refine .inl (Memory.read_writeRun_outside _ _ _ ?_)
        rw [toNat_lineQuad line hq]; omega)
  refine ⟨hquiet, fun o h1 h2 => ?_⟩
  have hlt := line.isLt
  rw [State.Settled, hquiet.view _ (by simp only [Config.memorySize]; omega), hd o (by omega)]
  exact hin o h1 h2

theorem quiet_writeQuads {point : State → Result State} (hp : QuietPoint point) (line : BitVec 27)
    (data : Vector Byte 32) : ∀ (qs : List Nat) (s t : State), (∀ q ∈ qs, q < 4) → s.Good →
      (∀ o, o < 32 → s.view (32 * line.toNat + o) = lineByte data o) → writeQuads point line data qs s = .next t →
      Quiet s t ∧ ∀ q ∈ qs, ∀ o, 8 * q ≤ o → o < 8 * q + 8 → t.Settled (32 * line.toNat + o)
  | [], s, t, _, g, _, e => by cases e; exact ⟨.refl g, by simp⟩
  | [q], s, t, hq, g, hd, e => by
    obtain ⟨h, h'⟩ := quiet_quad g (hq q (by simp)) hd e
    exact ⟨h, by simpa using h'⟩
  | q :: q' :: rest, s, t, hq, g, hd, e => by
    obtain ⟨u, hu, e⟩ := andThen_eq_next.1 e
    obtain ⟨v, hv, e⟩ := andThen_eq_next.1 e
    obtain ⟨h1, h1'⟩ := quiet_quad g (hq q (by simp)) hd hu
    have h12 := h1.trans (hp _ _ h1.good hv)
    have hlt := line.isLt
    obtain ⟨h3, h3'⟩ := quiet_writeQuads hp line data (q' :: rest) v t (fun x hx => hq x (by simp [hx])) h12.good
      (fun o ho => (h12.view _ (by simp only [Config.memorySize]; omega)).trans (hd o ho)) e
    refine ⟨h12.trans h3, fun x hx o ho ho' => ?_⟩
    rcases List.mem_cons.1 hx with rfl | hx
    · have hx4 := hq x (by simp)
      have hlt' : 32 * line.toNat + o < Config.memorySize := by simp only [Config.memorySize]; omega
      exact h3.settled _ hlt' ((hp _ _ h1.good hv).settled _ hlt' (h1' o ho ho'))
    · exact h3' x hx o ho ho'

/-- A writeback leaves every byte of the line settled. -/
theorem quiet_writeback {point : State → Result State} (hp : QuietPoint point) {l : CacheLine DataState} {s t : State}
    (g : s.Good) (hl : l ∈ s.dc.lines) (e : writeback point l s = .next t) :
    Quiet s t ∧ ∀ o, o < 32 → t.Settled (l.byteAddress o) := by
  have h0 := quiet_draw g
  obtain ⟨h, h'⟩ := quiet_writeQuads hp l.address l.data _ _ _ (fun _ => mem_quadOrder.1) h0.good
    (fun o ho => (h0.view _ (byteAddress_lt l ho)).trans (view_byteAddress g.inv hl ho)) e
  exact ⟨h0.trans h, fun o ho => h' (o / 8) (mem_quadOrder.2 (by omega)) o (by omega) (by omega)⟩

/-- After a writeback with `tame` points a line still at the place of the one written back is that line. -/
theorem same_line_of_shrinks {c d : Cache DataState} (hc : c.wf) (h : Shrinks c d) {l x : CacheLine DataState}
    (hl : l ∈ c.lines) (hx : x ∈ d.lines) (hp : x.place = l.place) : x.address = l.address ∧ x.data = l.data := by
  obtain ⟨y, hy, hyp, hyt, hyd⟩ := h x hx
  have : y = l := place_inj hc hy hl (hyp.trans hp)
  subst this
  have := (place_eq_iff y x).1 hyp
  exact ⟨by simp [CacheLine.address, this.1, hyt], hyd.symm⟩

theorem byteAddress_congr {x l : CacheLine DataState} (h : x.address = l.address) (o : Nat) :
    x.byteAddress o = l.byteAddress o := by
  simp only [CacheLine.byteAddress, h]

theorem quiet_evictData {point : State → Result State} (hp : QuietPoint point) (ht : Keeps Tame point) {set : BitVec 7}
    {way : Way} {s t : State} (g : s.Good) (e : evictData point set way s = .next t) : Quiet s t := by
  have hti := (tame_closed.evictData ht _ _ _ _ e).inv g.inv
  unfold evictData at e
  split at e
  · cases e; exact .refl g
  · next l hl =>
    obtain ⟨hm, hset, hway⟩ := lineAt_spec hl
    have hclean : l.state ≠ .M → ∀ x ∈ s.dc.lines, x.set = set → x.way = way → ∀ o, o < 32 →
        s.Settled (x.byteAddress o) := fun hne x hx h1 h2 o ho => by
      have : x = l := place_inj g.inv.dc hx hm ((place_eq_iff x l).2 ⟨h1.trans hset.symm, h2.trans hway.symm⟩)
      exact g.settled hx (this ▸ hne) ho
    split at e
    · obtain ⟨u, hu, e⟩ := andThen_eq_next.1 e
      cases e
      obtain ⟨h, h'⟩ := quiet_writeback hp g hm hu
      refine h.trans (quiet_drop h.good hti rfl set way rfl rfl fun x hx h1 h2 o ho => ?_)
      have hs := (tame_closed.writeback ht l _ _ hu).dc
      have := same_line_of_shrinks g.inv.dc hs hm hx ((place_eq_iff x l).2 ⟨h1.trans hset.symm, h2.trans hway.symm⟩)
      rw [byteAddress_congr this.1]; exact h' o ho
    · next hst => cases e; exact quiet_drop g hti rfl set way rfl rfl (hclean (by simp [hst]))
    · next hst => cases e; exact quiet_drop g hti rfl set way rfl rfl (hclean (by simp [hst]))

/-! ### Inquire cycles and other masters -/

/-- A line address all of whose bytes in the cache are settled may change state or leave the data cache. -/
theorem quiet_readSnoop {s : State} (g : s.Good) (line : BitVec 27)
    (h : ∀ l ∈ s.dc.lines, l.address = line → ∀ o, o < 32 → s.Settled (l.byteAddress o)) :
    Quiet s (s.afterReadSnoop line) := by
  have hti := (tame_closed.readSnoop s line).inv g.inv
  cases hh : s.dc.hit line with
  | none =>
    refine quiet_same g hti rfl ?_ rfl
    simp [Cache.setHit, Cache.dropHit, hh]
  | some l =>
    obtain ⟨hl, ha⟩ := hit_spec hh
    cases hb : s.drawBit
    · refine quiet_drop g hti rfl l.set l.way (by simp [Cache.dropHit, hh, hb]) rfl fun x hx h1 h2 o ho => ?_
      have : x = l := place_inj g.inv.dc hx hl ((place_eq_iff x l).2 ⟨h1, h2⟩)
      exact h x hx (this ▸ ha) o ho
    · exact quiet_setState g hti rfl hl .S (by simp [Cache.setHit, hh, hb]) rfl (h l hl ha)

theorem quiet_writeSnoop {s : State} (g : s.Good) (line : BitVec 27)
    (h : ∀ l ∈ s.dc.lines, l.address = line → ∀ o, o < 32 → s.Settled (l.byteAddress o)) :
    Quiet s (s.afterWriteSnoop line) := by
  have hti := (tame_closed.writeSnoop s line).inv g.inv
  cases hh : s.dc.hit line with
  | none =>
    refine quiet_same g hti rfl ?_ rfl
    simp [Cache.dropHit, hh]
  | some l =>
    obtain ⟨hl, ha⟩ := hit_spec hh
    refine quiet_drop g hti rfl l.set l.way (by simp [Cache.dropHit, hh]) rfl fun x hx h1 h2 o ho => ?_
    have : x = l := place_inj g.inv.dc hx hl ((place_eq_iff x l).2 ⟨h1, h2⟩)
    exact h x hx (this ▸ ha) o ho

/-- The bytes of a line that hits are settled once it is written back, or if it is not modified. -/
theorem settled_after_writeback {point : State → Result State} (hp : QuietPoint point)
    {s t : State} (g : s.Good) {line : BitVec 27} {l : CacheLine DataState} (hh : s.dc.hit line = some l)
    (e : writeback point l s = .next t) :
    Quiet s t ∧ ∀ x ∈ t.dc.lines, x.address = line → ∀ o, o < 32 → t.Settled (x.byteAddress o) := by
  obtain ⟨hl, ha⟩ := hit_spec hh
  obtain ⟨h, h'⟩ := quiet_writeback hp g hl e
  exact ⟨h, fun x _ hxa o ho => by rw [byteAddress_congr (hxa.trans ha.symm)]; exact h' o ho⟩

theorem settled_of_clean {s : State} (g : s.Good) {line : BitVec 27} {l : CacheLine DataState}
    (hh : s.dc.hit line = some l) (hne : l.state ≠ .M) :
    ∀ x ∈ s.dc.lines, x.address = line → ∀ o, o < 32 → s.Settled (x.byteAddress o) := fun x hx hxa o ho => by
  obtain ⟨hl, ha⟩ := hit_spec hh
  have : x = l := address_inj g.inv.dc hx hl (hxa.trans ha.symm)
  exact g.settled hx (this ▸ hne) ho

theorem quiet_inquireRead {point : State → Result State} (hp : QuietPoint point)
    {line : BitVec 27} {s t : State} (g : s.Good) (e : inquireRead point line s = .next t) : Quiet s t := by
  have h0 := quiet_log g (.inquire line false)
  unfold inquireRead at e
  split at e
  · cases e
  · dsimp only at e
    split at e
    · cases e; exact h0
    · next l hh =>
      split at e
      · obtain ⟨u, hu, e⟩ := andThen_eq_next.1 e
        cases e
        obtain ⟨h, h'⟩ := settled_after_writeback hp h0.good hh hu
        exact h0.trans (h.trans (quiet_readSnoop h.good line h'))
      · next hst => cases e; exact h0.trans (quiet_readSnoop h0.good line (settled_of_clean h0.good hh (by simp [hst])))
      · next hst => cases e; exact h0.trans (quiet_readSnoop h0.good line (settled_of_clean h0.good hh (by simp [hst])))

theorem quiet_inquireWrite {point : State → Result State} (hp : QuietPoint point)
    {line : BitVec 27} {s t : State} (g : s.Good) (e : inquireWrite point line s = .next t) : Quiet s t := by
  have h0 := quiet_log g (.inquire line true)
  unfold inquireWrite at e
  split at e
  · cases e
  · dsimp only at e
    split at e
    · next hh =>
      cases e
      exact h0.trans (quiet_writeSnoop h0.good line fun x hx hxa => absurd hxa (hit_eq_none.1 hh x hx))
    · next l hh =>
      split at e
      · obtain ⟨u, hu, e⟩ := andThen_eq_next.1 e
        cases e
        obtain ⟨h, h'⟩ := settled_after_writeback hp h0.good hh hu
        exact h0.trans (h.trans (quiet_writeSnoop h.good line h'))
      · next hst => cases e; exact h0.trans (quiet_writeSnoop h0.good line (settled_of_clean h0.good hh (by simp [hst])))
      · next hst => cases e; exact h0.trans (quiet_writeSnoop h0.good line (settled_of_clean h0.good hh (by simp [hst])))

/-- A move of another master that is not a write changes nothing that data reads return. -/
theorem quiet_masterMove {point : State → Result State} (hp : QuietPoint point)
    {m : MasterMove} (hm : m.isWrite = false) {s t : State} (g : s.Good) (e : masterMove point m s = .next t) :
    Quiet s t := by
  unfold masterMove at e
  split at e
  · split at e
    · split at e
      · cases e; exact .refl g
      · cases e; exact quiet_log g _
    · cases e
  · simp [MasterMove.isWrite] at hm
  · exact quiet_inquireRead hp g e
  · exact quiet_inquireWrite hp g e

theorem quiet_masterMoves {point : State → Result State} (hp : QuietPoint point) :
    ∀ (ms : List MasterMove) (s t : State), (∀ m ∈ ms, m.isWrite = false) → s.Good →
      masterMoves point ms s = .next t → Quiet s t
  | [], s, t, _, g, e => by cases e; exact .refl g
  | m :: rest, s, t, hm, g, e => by
    obtain ⟨u, hu, e⟩ := andThen_eq_next.1 e
    have h1 := quiet_masterMove hp (hm m (by simp)) g hu
    exact h1.trans (quiet_masterMoves hp rest u t (fun x hx => hm x (by simp [hx])) h1.good e)

theorem quiet_interleaveWith : ∀ fuel, QuietPoint (interleaveWith fuel)
  | 0, s, t, g, e => by cases e; exact .refl g
  | fuel + 1, s, t, g, e => by
    unfold interleaveWith at e
    split at e
    · cases e; exact .refl g
    · next ms rest hb =>
      have h0 : Quiet s { s with between := rest } :=
        quiet_mem g ((tame_closed.between s ms rest hb).inv g.inv) (fun x hx => g.between x (by rw [hb]; simp [hx])) rfl
          fun _ _ => .inl rfl
      exact h0.trans (quiet_masterMoves (quiet_interleaveWith fuel) ms _ _
        (fun m hm => g.between ms (by rw [hb]; simp) m hm) h0.good e)

/-- Whatever another master does inside an instruction, but for writes of memory, changes nothing that data reads
return. -/
theorem quiet_interleave : QuietPoint interleave := fun s t g e => quiet_interleaveWith _ s t g e

theorem tame_interleave : Keeps Tame interleave := tame_closed.interleave

/-! ### Flushing -/

/-- When its turn comes, a line that was modified ends with every byte settled. -/
theorem quiet_writebackIfModified {line : BitVec 27} {s t : State} (g : s.Good)
    (e : writebackIfModified interleave line s = .next t) :
    Quiet s t ∧ ∀ o, o < 32 → t.Settled (32 * line.toNat + o) := by
  have hlt := line.isLt
  have hmiss : s.dc.hit line = none → ∀ o, o < 32 → s.Settled (32 * line.toNat + o) := fun hh o ho => by
    rw [State.Settled, view_miss (by rw [lineOf_byteAddress line ho]; exact hh)]
  have hclean : ∀ l, s.dc.hit line = some l → l.state ≠ .M → ∀ o, o < 32 → s.Settled (32 * line.toNat + o) :=
    fun l hh hne o ho => by
      have := g.settled (hit_spec hh).1 hne ho
      rwa [CacheLine.byteAddress, (hit_spec hh).2] at this
  unfold writebackIfModified at e
  split at e
  · next hh => cases e; exact ⟨.refl g, hmiss hh⟩
  · next l hh =>
    split at e
    · obtain ⟨h, h'⟩ := quiet_writeback quiet_interleave g (hit_spec hh).1 e
      refine ⟨h, fun o ho => ?_⟩
      have := h' o ho
      rwa [CacheLine.byteAddress, (hit_spec hh).2] at this
    · next hst => cases e; exact ⟨.refl g, hclean l hh (by simp [hst])⟩
    · next hst => cases e; exact ⟨.refl g, hclean l hh (by simp [hst])⟩

theorem quiet_writebackLines : ∀ (ls : List (BitVec 27)) (s t : State), s.Good →
    writebackLines interleave ls s = .next t →
    Quiet s t ∧ ∀ line ∈ ls, ∀ o, o < 32 → t.Settled (32 * line.toNat + o)
  | [], s, t, g, e => by cases e; exact ⟨.refl g, by simp⟩
  | [line], s, t, g, e => by
    obtain ⟨h, h'⟩ := quiet_writebackIfModified g e
    exact ⟨h, by simpa using h'⟩
  | line :: line' :: rest, s, t, g, e => by
    obtain ⟨u, hu, e⟩ := andThen_eq_next.1 e
    obtain ⟨v, hv, e⟩ := andThen_eq_next.1 e
    obtain ⟨h1, h1'⟩ := quiet_writebackIfModified g hu
    have h2 := quiet_interleave _ _ h1.good hv
    obtain ⟨h3, h3'⟩ := quiet_writebackLines (line' :: rest) v t h2.good e
    refine ⟨h1.trans (h2.trans h3), fun x hx o ho => ?_⟩
    rcases List.mem_cons.1 hx with rfl | hx
    · have hlt : 32 * x.toNat + o < Config.memorySize := by
        have := x.isLt; simp only [Config.memorySize]; omega
      exact h3.settled _ hlt (h2.settled _ hlt (h1' o ho))
    · exact h3' x hx o ho

/-- Writing back every modified line leaves memory holding what data reads return. -/
theorem quiet_writebackAll {s t : State} (g : s.Good) (e : writebackAll interleave s = .next t) :
    Quiet s t ∧ ∀ a, a < Config.memorySize → t.Settled a := by
  have h0 := quiet_draw g
  obtain ⟨h, h'⟩ := quiet_writebackLines _ _ _ h0.good e
  have ht : Quiet s t := h0.trans h
  refine ⟨ht, fun a ha => ?_⟩
  cases hh : t.dc.hit (lineOf (BitVec.ofNat 32 a)) with
  | none => rw [State.Settled, view_miss hh]
  | some x =>
    obtain ⟨hx, hax⟩ := hit_spec hh
    have haddr : x.byteAddress (a % 32) = a := by
      have := congrArg BitVec.toNat hax
      rw [toNat_lineOf, BitVec.toNat_ofNat] at this
      simp only [CacheLine.byteAddress, Config.memorySize] at *; omega
    obtain ⟨y, hy, hp, htag, -⟩ := (tame_closed.writebackAll _ _ e).dc x hx
    have hxy : y.address = x.address := by simp [CacheLine.address, ((place_eq_iff y x).1 hp).1, htag]
    rw [← haddr]
    cases hst : y.state with
    | M =>
      have hmem : y.address ∈ permute s.drawValue (modifiedLines s.dc) := by
        rw [(permute_perm _ _).mem_iff, modifiedLines, List.mem_map]
        exact ⟨y, List.mem_filter.2 ⟨hy, by simp [hst]⟩, rfl⟩
      have := h' _ hmem (a % 32) (by omega)
      rwa [hxy] at this
    | E =>
      have := ht.settled _ (byteAddress_lt y (by omega)) (g.settled hy (by simp [hst]) (o := a % 32) (by omega))
      rwa [byteAddress_congr hxy] at this
    | S =>
      have := ht.settled _ (byteAddress_lt y (by omega)) (g.settled hy (by simp [hst]) (o := a % 32) (by omega))
      rwa [byteAddress_congr hxy] at this

end Sys2Proof.Machine
end

