-- ==== Sys2Proof/Laws/Access.lean ====
section
/-!
SUPPORT. Fills, fetches and data accesses: what a fill brings is what data reads return, a read returns it, a write
changes it at the bytes written.
-/

namespace Sys2Proof.Machine

/-! ### Fills -/

theorem readQuads_quiet {point : State → Result State} (hp : QuietPoint point) (ht : Keeps Tame point)
    (line : BitVec 27) : ∀ (qs : List Nat) (data : Vector Byte 32) (s : State) (r : Vector Byte 32 × State),
      (∀ q ∈ qs, q < 4) → s.Good → s.dc.hit line = none → readQuads point line qs data s = .next r →
      Quiet s r.2 ∧ ∀ o, o < 32 →
        lineByte r.1 o = if o / 8 ∈ qs then s.view (32 * line.toNat + o) else lineByte data o
  | [], data, s, r, _, g, _, e => by cases e; exact ⟨.refl g, by simp⟩
  | q :: rest, data, s, r, hq, g, hm, e => by
    have hq4 := hq q (by simp)
    have hlt := line.isLt
    have key : ∀ u, busRead (lineQuad line q) 8 s = .next u → Quiet s u.2 ∧ u.2.dc = s.dc ∧ Tame s u.2 ∧
        ∀ o, o < 32 → lineByte (putLineBytes data (8 * q) u.1) o =
          if o / 8 = q then s.view (32 * line.toNat + o) else lineByte data o := fun u hu => by
      obtain ⟨-, rfl⟩ := busRead_eq_next.1 hu
      refine ⟨quiet_log g _, rfl, tame_closed.log _ _, fun o ho => ?_⟩
      rw [lineByte_putLineBytes _ _ _ ho]
      simp only [Memory.length_readRun, Memory.getElem_readRun]
      by_cases h : o / 8 = q
      · rw [dif_pos (by omega), if_pos h, toNat_lineQuad line hq4, view_miss (by rw [lineOf_byteAddress line ho]; exact hm)]
        congr 1; omega
      · rw [dif_neg (by omega), if_neg h]
    cases rest with
    | nil =>
      obtain ⟨u, hu, e⟩ := andThen_eq_next.1 e
      cases e
      obtain ⟨h, -, -, h'⟩ := key u hu
      exact ⟨h, fun o ho => by rw [h' o ho]; simp⟩
    | cons q' rest =>
      obtain ⟨u, hu, e⟩ := andThen_eq_next.1 e
      obtain ⟨v, hv, e⟩ := andThen_eq_next.1 e
      obtain ⟨h, hdc, ht1, h'⟩ := key u hu
      have h2 := hp _ _ h.good hv
      have hm' := hit_none_of_shrinks (ht1.dc.trans (ht _ _ hv).dc) hm
      obtain ⟨h3, h3'⟩ := readQuads_quiet hp ht line (q' :: rest) _ v r (fun x hx => hq x (by simp [hx])) h2.good hm' e
      refine ⟨h.trans (h2.trans h3), fun o ho => ?_⟩
      rw [h3' o ho, h' o ho, (h.trans h2).view _ (by simp only [Config.memorySize]; omega)]
      simp only [List.mem_cons]
      by_cases h1 : o / 8 = q' ∨ o / 8 ∈ rest
      · rw [if_pos h1, if_pos (.inr h1)]
      · rw [if_neg h1]
        by_cases h2 : o / 8 = q
        · rw [if_pos h2, if_pos (.inl h2)]
        · rw [if_neg h2, if_neg (by simp only [h2, false_or]; exact h1)]

/-- The bytes a line transfer reads at an address that misses are the bytes data reads return. -/
theorem readLine_quiet {point : State → Result State} (hp : QuietPoint point) (ht : Keeps Tame point)
    {line : BitVec 27} {s : State} {r : Vector Byte 32 × State} (g : s.Good) (hm : s.dc.hit line = none)
    (e : readLine point line s = .next r) :
    Quiet s r.2 ∧ ∀ o, o < 32 → lineByte r.1 o = s.view (32 * line.toNat + o) := by
  have h0 := quiet_draw g
  have hlt := line.isLt
  obtain ⟨h, h'⟩ := readQuads_quiet hp ht line _ _ _ _ (fun _ => mem_quadOrder.1) h0.good hm e
  refine ⟨h0.trans h, fun o ho => ?_⟩
  rw [h' o ho, if_pos (mem_quadOrder.2 (by omega)), h0.view _ (by simp only [Config.memorySize]; omega)]

/-- A line whose bytes are what data reads return may enter the data cache where its address misses. -/
theorem quiet_putNew {s t : State} (g : s.Good) (hi : t.Inv) (hb : t.between = s.between) {l : CacheLine DataState}
    (hm : s.dc.hit l.address = none) (hv : ∀ x ∈ s.dc.lines, ¬(x.set = l.set ∧ x.way = l.way))
    (hl : t.dc.lines = (s.dc.put l).lines) (hmem : t.mem = s.mem)
    (hd : ∀ o, o < 32 → lineByte l.data o = s.view (32 * l.address.toNat + o)) : Quiet s t := by
  have hin : ∀ x, x ∈ t.dc.lines ↔ x = l ∨ x ∈ s.dc.lines := fun x => by
    rw [hl, mem_put]
    refine or_congr Iff.rfl ⟨fun h => h.1, fun h => ⟨h, fun e => hv x h ((place_eq_iff x l).1 e)⟩⟩
  have hview : ∀ a, a < Config.memorySize → t.view a = s.view a := fun a ha => by
    by_cases hla : l.address = lineOf (BitVec.ofNat 32 a)
    · rw [view_hit hi ((hin l).2 (.inl rfl)) hla, hd _ (by omega)]
      congr 1
      have := congrArg BitVec.toNat hla
      rw [toNat_lineOf, BitVec.toNat_ofNat] at this
      simp only [Config.memorySize] at ha; omega
    · cases hh : s.dc.hit (lineOf (BitVec.ofNat 32 a)) with
      | none =>
        rw [view_miss hh, view_miss, hmem]
        refine hit_eq_none.2 fun x hx e => ?_
        rcases (hin x).1 hx with rfl | hx
        · exact hla e
        · exact hit_eq_none.1 hh x hx e
      | some x =>
        obtain ⟨hx, hax⟩ := hit_spec hh
        rw [view_hit g.inv hx hax, view_hit hi ((hin x).2 (.inr hx)) hax]
  have hs : ∀ a, a < Config.memorySize → s.Settled a → t.Settled a := fun a ha h => by
    rw [State.Settled, hview a ha, hmem]; exact h
  refine ⟨⟨hi, fun x hx hne o ho => ?_, fun ms h => g.between ms (hb ▸ h)⟩, hview, hs⟩
  rcases (hin x).1 hx with rfl | hx'
  · rw [hmem, hd o ho, view_miss (by rw [lineOf_byteAddress _ ho]; exact hm)]; rfl
  · rw [hmem]; exact g.clean x hx' hne o ho

/-- A data-cache fill changes nothing that data reads return, and the line it brings holds it. -/
theorem quiet_fillData {line : BitVec 27} {s : State} {r : CacheLine DataState × State} (g : s.Good)
    (hm : s.dc.hit line = none) (e : fillData interleave line s = .next r) :
    Quiet s r.2 ∧ ∀ o, o < 32 → lineByte r.1.data o = s.view (32 * line.toNat + o) := by
  have hri := fillData_inv e hm g.inv
  obtain ⟨w, hw, e⟩ := andThen_eq_next.1 e
  obtain ⟨f, hf, e⟩ := andThen_eq_next.1 e
  cases e
  have h1 := (quiet_draw g).trans (quiet_evictData quiet_interleave tame_interleave (quiet_draw g).good hw)
  have t1 := tame_closed.evictData tame_interleave _ _ _ _ hw
  have hm1 : w.dc.hit line = none := hit_none_of_shrinks t1.dc hm
  obtain ⟨h2, h2'⟩ := readLine_quiet quiet_interleave tame_interleave h1.good hm1 hf
  have t2 := tame_closed.readLine tame_interleave hf
  have h12 := h1.trans h2
  have hlt := line.isLt
  have hd : ∀ o, o < 32 → lineByte f.1 o = s.view (32 * line.toNat + o) := fun o ho => by
    rw [h2' o ho, h1.view _ (by simp only [Config.memorySize]; omega)]
  have haddr : (⟨lineSet line, s.dc.victim (lineSet line) s.drawBit, lineTag line,
      if f.2.drawBit then .E else .S, f.1⟩ : CacheLine DataState).address = line := by simp [CacheLine.address]
  refine ⟨h12.trans (quiet_putNew h12.good hri rfl ?_ ?_ rfl rfl fun o ho => ?_), hd⟩
  · rw [haddr]; exact hit_none_of_shrinks t2.dc hm1
  · intro x hx e
    obtain ⟨y, hy, hyp, -⟩ := t2.dc x hx
    have := (place_eq_iff y x).1 hyp
    exact evictData_place hw y hy ⟨this.1.trans e.1, this.2.trans e.2⟩
  · rw [haddr, h12.view _ (by simp only [Config.memorySize]; omega)]; exact hd o ho

/-! ### Fetches -/

theorem quiet_fillCode {line : BitVec 27} {s : State} {r : CacheLine CodeState × State} (g : s.Good)
    (hm : s.cc.hit line = none) (e : fillCode interleave line s = .next r) : Quiet s r.2 := by
  have hri := fillCode_inv e hm g.inv
  obtain ⟨f, hf, e⟩ := andThen_eq_next.1 e
  cases e
  have h0 := quiet_draw g
  have h1 : Quiet s.afterDraw (evictCode (lineSet line) (s.cc.victim (lineSet line) s.drawBit) s.afterDraw) :=
    quiet_same h0.good ((evictCode_tame _ _ _).inv h0.good.inv) rfl rfl rfl
  -- a code-cache fill reads memory and nothing else, whatever the data cache holds
  have h2 : ∀ (qs : List Nat) (data : Vector Byte 32) (u : State) (x : Vector Byte 32 × State), u.Good →
      readQuads interleave line qs data u = .next x → Quiet u x.2 := by
    intro qs
    induction qs with
    | nil => intro data u x gu hx; cases hx; exact .refl gu
    | cons q rest ih =>
      intro data u x gu hx
      cases rest with
      | nil =>
        obtain ⟨v, hv, hx⟩ := andThen_eq_next.1 hx
        cases hx
        obtain ⟨-, rfl⟩ := busRead_eq_next.1 hv
        exact quiet_log gu _
      | cons q' rest =>
        obtain ⟨v, hv, hx⟩ := andThen_eq_next.1 hx
        obtain ⟨v', hv', hx⟩ := andThen_eq_next.1 hx
        obtain ⟨-, rfl⟩ := busRead_eq_next.1 hv
        have a := quiet_log gu (.memRead (quadOf (lineQuad line q)) (byteEnables (lineQuad line q) 8)
          (u.pageAttr (lineQuad line q)) (Memory.readRun u.mem (lineQuad line q).toNat 8))
        have b := quiet_interleave _ _ a.good hv'
        exact a.trans (b.trans (ih _ _ _ b.good hx))
  have h3 := (quiet_draw (h0.trans h1).good).trans (h2 _ _ _ _ (quiet_draw (h0.trans h1).good).good hf)
  have h03 := (h0.trans h1).trans h3
  exact h03.trans (quiet_same h03.good hri rfl rfl rfl)

theorem quiet_fetchByte {a : Dword} {s : State} {r : Byte × State} (g : s.Good) (h : fetchByte a s = .next r) :
    Quiet s r.2 := by
  have hri := fetchByte_inv h g.inv
  have h1 : Quiet s (s.loadCodeTlb a) := quiet_same g (loadCodeTlb_inv g.inv a) rfl rfl rfl
  have h2 := h1.trans (quiet_draw h1.good)
  unfold fetchByte at h
  dsimp only [translate] at h
  split at h
  · cases h; exact h1.trans (quiet_same h1.good hri rfl rfl rfl)
  · next hm =>
    split at h
    · obtain ⟨f, hf, h⟩ := andThen_eq_next.1 h
      cases h
      exact h2.trans (quiet_fillCode h2.good hm hf)
    · obtain ⟨f, hf, h⟩ := andThen_eq_next.1 h
      cases h
      obtain ⟨-, rfl⟩ := busRead_eq_next.1 hf
      exact h2.trans (quiet_log h2.good _)

theorem quiet_fetchInstr {s : State} {r : Instr × State} (g : s.Good) (h : fetchInstr s = .next r) : Quiet s r.2 := by
  obtain ⟨-, -, r0, r1, -, e0, e1, -, e2⟩ := fetchInstr_spec h
  have h0 := quiet_fetchByte g e0
  have h1 := h0.trans (quiet_fetchByte h0.good e1)
  rw [← e2]
  exact h1.trans (quiet_same h1.good (h1.good.inv.withMem h1.good.inv.mem rfl rfl rfl rfl) rfl rfl rfl)

/-! ### Data reads -/

theorem quiet_loadDataTlb {s : State} (g : s.Good) (a : Dword) : Quiet s (s.loadDataTlb a) :=
  quiet_same g (loadDataTlb_inv g.inv a) rfl rfl rfl

/-- A part of an operand lies inside one line. -/
def PartInLine (first count : Nat) : Prop :=
  1 ≤ count ∧ first % 32 + count ≤ 32 ∧ first + count ≤ Config.memorySize

theorem part_line {first count i : Nat} (h : PartInLine first count) (hi : i < count) :
    lineOf (BitVec.ofNat 32 (first + i)) = lineOf (BitVec.ofNat 32 first) := by
  obtain ⟨_, h2, h3⟩ := h
  apply BitVec.eq_of_toNat_eq
  simp only [Config.memorySize] at h3
  rw [toNat_lineOf, toNat_lineOf, BitVec.toNat_ofNat, BitVec.toNat_ofNat]; omega

theorem part_toNat {first count : Nat} (h : PartInLine first count) : (BitVec.ofNat 32 first).toNat = first := by
  obtain ⟨h1, -, h3⟩ := h
  simp only [Config.memorySize] at h3
  rw [BitVec.toNat_ofNat]; omega

theorem part_offset {first count : Nat} (h : PartInLine first count) :
    offsetOf (BitVec.ofNat 32 first) = first % 32 := by
  rw [offsetOf_eq, part_toNat h]

theorem lineBytes_eq_viewRun {s : State} {data : Vector Byte 32} {first count : Nat} (h : PartInLine first count)
    (hd : ∀ i, i < count → s.view (first + i) = lineByte data (first % 32 + i)) :
    lineBytes data (offsetOf (BitVec.ofNat 32 first)) count = s.viewRun first count := by
  rw [part_offset h]
  have := h.2.1
  apply List.ext_getElem
  · simp only [length_lineBytes, State.viewRun, List.length_map, List.length_range]; omega
  · intro i h1 h2
    rw [getElem_lineBytes]
    simp only [State.viewRun, List.getElem_map, List.getElem_range]
    rw [hd i (by simpa [State.viewRun] using h2)]

/-- A part of a read returns the bytes data reads return, and changes none of them. -/
theorem quiet_readPart {first count : Nat} (hp : PartInLine first count) {s : State} {r : List Byte × State} (g : s.Good)
    (h : readPart first count s = .next r) : Quiet s r.2 ∧ r.1 = s.viewRun first count := by
  have h1 := quiet_loadDataTlb g (BitVec.ofNat 32 first)
  have h2 := h1.trans (quiet_draw h1.good)
  have hlt : ∀ i, i < count → first + i < Config.memorySize := fun i hi => by have := hp.2.2; omega
  unfold readPart at h
  dsimp only [translate] at h
  split at h
  · next l hh =>
    cases h
    have hl := hit_spec hh
    refine ⟨h1.trans (quiet_same h1.good ⟨h1.good.inv.mem, h1.good.inv.io, wf_setLru h1.good.inv.dc _ _,
      h1.good.inv.cc, h1.good.inv.data4k, h1.good.inv.data4m, h1.good.inv.code⟩ rfl rfl rfl),
      lineBytes_eq_viewRun hp fun i hi => ?_⟩
    rw [view_hit g.inv hl.1 (by rw [part_line hp hi]; exact hl.2)]
    congr 1; have := hp.2.1; omega
  · next hm =>
    split at h
    · obtain ⟨f, hf, h⟩ := andThen_eq_next.1 h
      cases h
      obtain ⟨h3, h3'⟩ := quiet_fillData h2.good hm hf
      refine ⟨h2.trans h3, lineBytes_eq_viewRun hp fun i hi => ?_⟩
      have := hp.2.1
      rw [h3' _ (by omega), h2.view, toNat_lineOf, part_toNat hp]
      · congr 1; omega
      · rw [toNat_lineOf, part_toNat hp]; have := hlt i hi; omega
    · obtain ⟨-, rfl⟩ := busRead_eq_next.1 h
      refine ⟨h2.trans (quiet_log h2.good _), ?_⟩
      rw [part_toNat hp]
      simp only [Memory.readRun, State.viewRun]
      refine List.map_congr_left fun i hi => ?_
      rw [view_miss (by rw [part_line hp (List.mem_range.1 hi)]; exact hm)]
      rfl

/-- The parts of an operand that ends inside memory each lie inside one line. -/
theorem split_parts {a : Nat} {w : Width} (h : a + w.bytes ≤ Config.memorySize) :
    ∀ p ∈ split a w, PartInLine p.1 p.2 := by
  unfold split PartInLine
  intro p hp
  simp only [Config.memorySize] at *
  cases w with
  | byte => simp [misaligned, Width.bytes] at hp h; subst hp; simp; omega
  | word =>
    by_cases h4 : a % 4 + 2 > 4 <;> simp [misaligned, Width.bytes, splitUnit, h4] at hp h
    · rcases hp with rfl | rfl <;> simp <;> omega
    · subst hp; simp; omega
  | dword =>
    by_cases h4 : a % 4 + 4 > 4 <;> simp [misaligned, Width.bytes, splitUnit, h4] at hp h
    · rcases hp with rfl | rfl <;> simp <;> omega
    · subst hp; simp; omega
  | qword =>
    by_cases h4 : a % 8 = 0 <;> simp [misaligned, Width.bytes, splitUnit, h4] at hp h
    · subst hp; simp; omega
    · rcases hp with rfl | rfl <;> simp <;> omega

theorem quiet_readParts : ∀ (ps : List (Nat × Nat)) (s : State) (r : List Byte × State),
    (∀ p ∈ ps, PartInLine p.1 p.2) → s.Good → readParts ps s = .next r →
    Quiet s r.2 ∧ r.1 = ps.reverse.flatMap (fun p => s.viewRun p.1 p.2)
  | [], s, r, _, g, e => by cases e; exact ⟨.refl g, rfl⟩
  | [p], s, r, hp, g, e => by
    obtain ⟨h, h'⟩ := quiet_readPart (hp p (by simp)) g e
    exact ⟨h, by simp [h']⟩
  | p :: p' :: rest, s, r, hp, g, e => by
    obtain ⟨u, hu, e⟩ := andThen_eq_next.1 e
    obtain ⟨v, hv, e⟩ := andThen_eq_next.1 e
    obtain ⟨x, hx, e⟩ := andThen_eq_next.1 e
    cases e
    obtain ⟨h1, h1'⟩ := quiet_readPart (hp p (by simp)) g hu
    have h2 := h1.trans (quiet_interleave _ _ h1.good hv)
    have hps : ∀ q ∈ p' :: rest, PartInLine q.1 q.2 := fun q hq => hp q (List.mem_cons_of_mem _ hq)
    obtain ⟨h3, h3'⟩ := quiet_readParts (p' :: rest) v x hps h2.good hx
    refine ⟨h2.trans h3, ?_⟩
    show x.1 ++ u.1 = _
    rw [h3', h1', List.reverse_cons (a := p), List.flatMap_append]
    congr 1
    · refine List.flatMap_congr fun q hq => ?_
      have := (hps q (List.mem_reverse.1 hq)).2.2
      simp only [State.viewRun]
      refine List.map_congr_left fun i hi => h2.view _ ?_
      have := List.mem_range.1 hi
      omega
    · simp

theorem viewRun_append (s : State) (a m n : Nat) : s.viewRun a m ++ s.viewRun (a + m) n = s.viewRun a (m + n) := by
  simp only [State.viewRun, List.range_add, List.map_append, List.map_map]
  congr 1
  refine List.map_congr_left fun i _ => ?_
  simp [Nat.add_assoc]

theorem viewRun_split (s : State) (a : Nat) (w : Width) :
    (split a w).reverse.flatMap (fun p => s.viewRun p.1 p.2) = s.viewRun a w.bytes := by
  unfold split
  split
  · next h =>
    have hb : a < splitUnit w * (a / splitUnit w + 1) ∧ splitUnit w * (a / splitUnit w + 1) ≤ a + w.bytes := by
      cases w <;> simp [misaligned] at h <;> simp [splitUnit, Width.bytes] <;> omega
    simp only [List.reverse_cons, List.reverse_nil, List.nil_append, List.cons_append, List.flatMap_cons,
      List.flatMap_nil, List.append_nil]
    have e1 : splitUnit w * (a / splitUnit w + 1) = a + (splitUnit w * (a / splitUnit w + 1) - a) := by omega
    have e2 : w.bytes = (splitUnit w * (a / splitUnit w + 1) - a) +
      (a + w.bytes - splitUnit w * (a / splitUnit w + 1)) := by omega
    conv => rhs; rw [e2]
    rw [← viewRun_append]
    congr 2
  · simp

/-- All a data read can answer: the bytes the data cache and memory together hold, which it leaves as they were. -/
theorem quiet_memRead {w : Width} {a : Dword} {s : State} {r : Qword × State} (g : s.Good)
    (h : memRead w a s = .next r) :
    Quiet s r.2 ∧ r.1 = BitVec.ofNat 64 (littleEndian (s.viewRun a.toNat w.bytes)) := by
  unfold memRead at h
  split at h
  · split at h
    · next hw =>
      obtain ⟨x, hx, h⟩ := andThen_eq_next.1 h
      cases h
      have hw' : a.toNat + w.bytes ≤ Config.memorySize := by
        simpa [operandWf, Config.memorySize] using hw
      obtain ⟨h1, h2⟩ := quiet_readParts _ _ _ (split_parts hw') g hx
      exact ⟨h1, by rw [h2, viewRun_split]⟩
    · cases h
  · cases h

/-! ### Data writes -/

/-- The second state is good and data reads return what they did, but for these bytes from this address on. -/
structure Stored (s t : State) (first : Nat) (bytes : List Byte) : Prop where
  good : t.Good
  inside : ∀ i (h : i < bytes.length), t.view (first + i) = bytes[i]
  outside : ∀ a, a < Config.memorySize → (a < first ∨ first + bytes.length ≤ a) → t.view a = s.view a

theorem line_iff {first n a : Nat} (h : PartInLine first n) (ha : first ≤ a ∧ a < first + n) :
    lineOf (BitVec.ofNat 32 a) = lineOf (BitVec.ofNat 32 first) := by
  have := part_line h (i := a - first) (by omega)
  rwa [show first + (a - first) = a by omega] at this

/-- A write that misses goes to memory. -/
theorem stored_miss {s t : State} {first : Nat} {bytes : List Byte} (hp : PartInLine first bytes.length) (g : s.Good)
    (hm : s.dc.hit (lineOf (BitVec.ofNat 32 first)) = none)
    (e : busWrite (BitVec.ofNat 32 first) bytes s = .next t) : Stored s t first bytes := by
  obtain ⟨-, rfl⟩ := busWrite_eq_next.1 e
  rw [part_toNat hp]
  have hlen := hp.2.2
  refine ⟨⟨g.inv.withMem (Memory.wf_writeRun _ g.inv.mem _ hlen) rfl rfl rfl rfl, fun l hl hne o ho => ?_, g.between⟩,
    fun i hi => ?_, fun a _ ha => ?_⟩
  · rw [← g.clean l hl hne o ho]
    refine Memory.read_writeRun_outside _ _ _ ?_
    by_contra hc
    have hin : first ≤ l.byteAddress o ∧ l.byteAddress o < first + bytes.length := by omega
    refine hit_eq_none.1 hm l hl ?_
    rw [← line_iff hp hin, CacheLine.byteAddress, lineOf_byteAddress _ ho]
  · rw [view_miss (by show s.dc.hit _ = none; rw [part_line hp hi]; exact hm)]
    exact Memory.read_writeRun_inside _ _ _ _ hi
  · show (match s.dc.hit _ with | some l => _ | none => _) = (match s.dc.hit _ with | some l => _ | none => _)
    cases s.dc.hit (lineOf (BitVec.ofNat 32 a)) with
    | some l => rfl
    | none => exact Memory.read_writeRun_outside _ _ _ ha

/-- A write that hits puts the bytes in the line; memory takes them too or the line becomes modified. -/
theorem stored_hit {s t : State} {first : Nat} {bytes : List Byte} (hp : PartInLine first bytes.length) (g : s.Good)
    {l l' : CacheLine DataState} (hh : s.dc.hit (lineOf (BitVec.ofNat 32 first)) = some l)
    (hpl : l'.place = l.place) (htag : l'.tag = l.tag)
    (hdata : l'.data = putLineBytes l.data (offsetOf (BitVec.ofNat 32 first)) bytes)
    (hi : t.Inv) (hb : t.between = s.between) (hdc : t.dc.lines = (s.dc.put l').lines)
    (hmem : (l'.state = .M ∧ t.mem = s.mem) ∨ (l.state ≠ .M ∧ t.mem = Memory.writeRun s.mem first bytes)) :
    Stored s t first bytes := by
  obtain ⟨hl, ha⟩ := hit_spec hh
  have hset := ((place_eq_iff l' l).1 hpl).1
  have haddr : l'.address = l.address := by simp only [CacheLine.address, hset, htag]
  rw [part_offset hp] at hdata
  have hlen := hp.2.1
  have hin : ∀ x, x ∈ t.dc.lines ↔ x = l' ∨ (x ∈ s.dc.lines ∧ x ≠ l) := fun x => by
    rw [hdc, mem_put, hpl]
    refine or_congr Iff.rfl ⟨fun h => ⟨h.1, fun e => h.2 (e ▸ rfl)⟩, fun h => ⟨h.1, fun e => h.2 (place_inj g.inv.dc h.1 hl e)⟩⟩
  have hmem' : ∀ a, (a < first ∨ first + bytes.length ≤ a) → Memory.read t.mem a = Memory.read s.mem a := fun a h => by
    rcases hmem with h' | h' <;> rw [h'.2]
    exact Memory.read_writeRun_outside _ _ _ h
  have hfirst : l.address.toNat = first / 32 := by rw [ha, toNat_lineOf, part_toNat hp]
  have hline : ∀ a, a < Config.memorySize → lineOf (BitVec.ofNat 32 a) = l.address → a = 32 * (first / 32) + a % 32 :=
    fun a ha e => by
      have := congrArg BitVec.toNat e
      rw [toNat_lineOf, BitVec.toNat_ofNat, hfirst] at this
      simp only [Config.memorySize] at ha; omega
  refine ⟨⟨hi, fun x hx hne o ho => ?_, fun ms h => g.between ms (hb ▸ h)⟩, fun i hi' => ?_, fun a ham hout => ?_⟩
  · rcases (hin x).1 hx with rfl | ⟨hx', hxl⟩
    · rcases hmem with h' | h'
      · exact absurd h'.1 hne
      · rw [h'.2, hdata, lineByte_putLineBytes _ _ _ ho]
        have hba : x.byteAddress o = 32 * (first / 32) + o := by rw [CacheLine.byteAddress, haddr, hfirst]
        rw [hba]
        by_cases hc : first % 32 ≤ o ∧ o < first % 32 + bytes.length
        · rw [dif_pos hc]
          have := Memory.read_writeRun_inside bytes s.mem first (o - first % 32) (by omega)
          rw [← this]; congr 1; omega
        · rw [dif_neg hc, Memory.read_writeRun_outside _ _ _ (by omega)]
          rw [← g.clean l hl h'.1 o ho, CacheLine.byteAddress, hfirst]
    · rw [hmem', g.clean x hx' hne o ho]
      by_contra hc
      refine hxl (address_inj g.inv.dc hx' hl ?_)
      rw [ha, ← line_iff hp (a := x.byteAddress o) (by omega), CacheLine.byteAddress, lineOf_byteAddress _ ho]
  · rw [view_hit hi ((hin l').2 (.inl rfl)) (by rw [haddr, part_line hp hi', ha]), hdata,
      lineByte_putLineBytes _ _ _ (by omega), dif_pos (by omega)]
    congr 1; omega
  · by_cases hla : lineOf (BitVec.ofNat 32 a) = l.address
    · rw [view_hit hi ((hin l').2 (.inl rfl)) (haddr.trans hla.symm), view_hit g.inv hl hla.symm, hdata,
        lineByte_putLineBytes _ _ _ (by omega), dif_neg (by have := hline a ham hla; omega)]
    · cases hc : s.dc.hit (lineOf (BitVec.ofNat 32 a)) with
      | none =>
        rw [view_miss hc, view_miss, hmem' a hout]
        refine hit_eq_none.2 fun x hx e => ?_
        rcases (hin x).1 hx with rfl | ⟨hx', -⟩
        · exact hla (e.symm.trans haddr)
        · exact hit_eq_none.1 hc x hx' e
      | some x =>
        obtain ⟨hx, hax⟩ := hit_spec hc
        rw [view_hit g.inv hx hax, view_hit hi ((hin x).2 (.inr ⟨hx, fun e => hla (by rw [← hax, e])⟩)) hax]

theorem Quiet.stored {s t u : State} {first : Nat} {bytes : List Byte} (h : Quiet s t) (h' : Stored t u first bytes) :
    Stored s u first bytes :=
  ⟨h'.good, h'.inside, fun a ha ho => (h'.outside a ha ho).trans (h.view a ha)⟩

theorem Stored.quiet {s t u : State} {first : Nat} {bytes : List Byte} (hl : first + bytes.length ≤ Config.memorySize)
    (h : Stored s t first bytes) (h' : Quiet t u) : Stored s u first bytes :=
  ⟨h'.good, fun i hi => (h'.view _ (by omega)).trans (h.inside i hi),
    fun a ha ho => (h'.view a ha).trans (h.outside a ha ho)⟩

/-- Giving a line that is present new contents keeps the invariant. -/
theorem put_inv {s : State} (i : s.Inv) {l : CacheLine DataState} (l' : CacheLine DataState) (hl : l ∈ s.dc.lines)
    (hp : l'.place = l.place) (ht : l'.tag = l.tag) (set : BitVec 7) :
    (State.touchData { s with dc := s.dc.put l' } set).Inv :=
  ⟨i.mem, i.io, wf_setLru (wf_put_same i.dc hl hp ht) _ _, i.cc, i.data4k, i.data4m, i.code⟩

/-- A part of a write changes what data reads return at its bytes, and nowhere else. -/
theorem stored_writePart {first : Nat} {bytes : List Byte} (hp : PartInLine first bytes.length) {s t : State} (g : s.Good)
    (e : writePart first bytes s = .next t) : Stored s t first bytes := by
  have h1 := quiet_loadDataTlb g (BitVec.ofNat 32 first)
  have g1 := h1.good
  unfold writePart at e
  dsimp only [translate] at e
  refine h1.stored ?_
  split at e
  · next hm => exact stored_miss hp g1 hm e
  · next l hh =>
    obtain ⟨hl, ha⟩ := hit_spec hh
    split at e
    · cases e
      exact stored_hit hp g1 hh (l' := { l with data := putLineBytes l.data (offsetOf (BitVec.ofNat 32 first)) bytes })
        rfl rfl rfl (by refine put_inv g1.inv _ hl ?_ ?_ _ <;> rfl) rfl rfl (.inl ⟨by assumption, rfl⟩)
    · cases e
      exact stored_hit hp g1 hh
        (l' := { l with data := putLineBytes l.data (offsetOf (BitVec.ofNat 32 first)) bytes, state := .M })
        rfl rfl rfl (by refine put_inv g1.inv _ hl ?_ ?_ _ <;> rfl) rfl rfl (.inl ⟨rfl, rfl⟩)
    · next hst =>
      obtain ⟨u, hu, e⟩ := andThen_eq_next.1 e
      cases e
      obtain ⟨-, hu⟩ := busWrite_eq_next.1 hu
      rw [part_toNat hp] at hu
      have hw := Memory.wf_writeRun bytes g1.inv.mem first hp.2.2
      have hui : u.afterDraw.Inv := by rw [hu]; exact g1.inv.withMem hw rfl rfl rfl rfl
      have hudc : u.dc = (s.loadDataTlb (BitVec.ofNat 32 first)).dc := by rw [hu]; rfl
      have hub : u.between = (s.loadDataTlb (BitVec.ofNat 32 first)).between := by rw [hu]; rfl
      have hum : u.mem = Memory.writeRun (s.loadDataTlb (BitVec.ofNat 32 first)).mem first bytes := by rw [hu]
      clear hu
      have hlu : l ∈ u.afterDraw.dc.lines := by show l ∈ u.dc.lines; rw [hudc]; exact hl
      refine stored_hit hp g1 hh (l' := { l with
          data := putLineBytes l.data (offsetOf (BitVec.ofNat 32 first)) bytes
          state := if u.drawBit then .E else .S }) rfl rfl rfl ?_ hub ?_ (.inr ⟨by rw [hst]; simp, hum⟩)
      · refine put_inv hui _ hlu ?_ ?_ _ <;> rfl
      · rw [← hudc]; rfl

/-- The upper bytes and then the lower bytes are the whole operand. -/
theorem stored_halves {s t u v : State} {a k : Nat} {bytes : List Byte} (hk : k ≤ bytes.length)
    (hl : a + bytes.length ≤ Config.memorySize) (h : Stored s t (a + k) (bytes.drop k)) (h' : Quiet t u)
    (h'' : Stored u v a (bytes.take k)) : Stored s v a bytes := by
  have hd : (bytes.drop k).length = bytes.length - k := List.length_drop
  have ht : (bytes.take k).length = k := by rw [List.length_take]; omega
  refine ⟨h''.good, fun i hi => ?_, fun x hx ho => ?_⟩
  · by_cases hc : i < k
    · rw [h''.inside i (by omega), List.getElem_take]
    · rw [h''.outside _ (by omega) (by omega), h'.view _ (by omega)]
      have := h.inside (i - k) (by omega)
      rw [show a + k + (i - k) = a + i by omega] at this
      rw [this, List.getElem_drop]; congr 1; omega
  · rw [h''.outside x hx (by omega), h'.view x hx, h.outside x hx (by omega)]

theorem length_bytesOf (v : Qword) (n : Nat) : (bytesOf v n).length = n := by simp [bytesOf]

/-- All a data write can answer: data reads return the operand's bytes at its addresses, and what they did elsewhere. -/
theorem stored_memWrite {w : Width} {a : Dword} {v : Qword} {s t : State} (g : s.Good) (h : memWrite w a v s = .next t) :
    Stored s t a.toNat (bytesOf v w.bytes) := by
  unfold memWrite at h
  split at h
  · split at h
    · next hw =>
      have hw' : a.toNat + w.bytes ≤ Config.memorySize := by
        simpa [operandWf, Config.memorySize] using hw
      have hp := split_parts hw'
      split at h
      · cases h
      · have hlen := length_bytesOf v w.bytes
        generalize bytesOf v w.bytes = bytes at h hlen ⊢
        unfold split at h hp
        split at h
        · next hm =>
          rw [if_pos hm] at hp
          have hb : a.toNat < splitUnit w * (a.toNat / splitUnit w + 1) ∧
              splitUnit w * (a.toNat / splitUnit w + 1) ≤ a.toNat + w.bytes := by
            cases w <;> simp [misaligned] at hm <;> simp [splitUnit, Width.bytes] <;> omega
          dsimp only at hp h
          generalize splitUnit w * (a.toNat / splitUnit w + 1) = b at h hp hb
          obtain ⟨x, hx, h⟩ := andThen_eq_next.1 h
          obtain ⟨y, hy, h⟩ := andThen_eq_next.1 h
          dsimp only [writeParts] at hx h
          have e1 : (bytes.drop (b - a.toNat)).take (a.toNat + w.bytes - b) = bytes.drop (b - a.toNat) :=
            List.take_of_length_le (by rw [List.length_drop]; omega)
          have e2 : (bytes.drop (a.toNat - a.toNat)).take (b - a.toNat) = bytes.take (b - a.toNat) := by simp
          rw [e1] at hx
          rw [e2] at h
          have p1 := hp (b, a.toNat + w.bytes - b) (by simp)
          have p2 := hp (a.toNat, b - a.toNat) (by simp)
          have s1 := stored_writePart (by rw [List.length_drop, hlen, show w.bytes - (b - a.toNat) =
            a.toNat + w.bytes - b by omega]; exact p1) g hx
          have q := quiet_interleave _ _ s1.good hy
          have s2 := stored_writePart (by rw [List.length_take, Nat.min_eq_left (by omega)]; exact p2) q.good h
          exact stored_halves (by omega) (by omega) (by rwa [show a.toNat + (b - a.toNat) = b by omega]) q s2
        · next hm =>
          rw [if_neg hm] at hp
          dsimp only [writeParts] at h
          rw [Nat.sub_self, List.drop_zero, List.take_of_length_le (by omega)] at h
          exact stored_writePart (by rw [hlen]; exact hp _ (List.mem_singleton.2 rfl)) g h
    · cases h
  · cases h

end Sys2Proof.Machine
end

