-- ==== Sys2Proof/Laws/Flush.lean ====
section
/-!
SUPPORT. Writebacks with no other master in between: they complete when the lines lie in memory, they write the lines'
bytes to memory and nothing else changes; and they stop at a hole.
-/

namespace Sys2Proof.Machine

/-- No other master has a move to make inside an instruction. -/
theorem interleave_alone {s : State} (h : s.between = []) : interleave s = .next s := by
  unfold interleave; rw [h]; rfl

/-- The second state is the first with other memory, history and draws. -/
structure OnlyMemory (s t : State) : Prop where
  core : SameCore s t
  dc : t.dc = s.dc
  cc : t.cc = s.cc
  between : t.between = s.between

theorem OnlyMemory.refl (s : State) : OnlyMemory s s := ⟨.refl s, rfl, rfl, rfl⟩

theorem OnlyMemory.trans {s t u : State} (h : OnlyMemory s t) (h' : OnlyMemory t u) : OnlyMemory s u :=
  ⟨h.core.trans h'.core, h'.dc.trans h.dc, h'.cc.trans h.cc, h'.between.trans h.between⟩

theorem OnlyMemory.populated {s t : State} (h : OnlyMemory s t) (a : Nat) : t.populated a = s.populated a := by
  simp only [State.populated, h.core.platform]

theorem onlyMemory_draw (s : State) : OnlyMemory s s.afterDraw := ⟨by constructor <;> rfl, rfl, rfl, rfl⟩

/-- These bytes of memory took these values, the others kept theirs, and the bus saw `n` quadword writes. -/
structure Wrote (s t : State) (mem : Nat → Option Byte) (n : Nat) : Prop where
  only : OnlyMemory s t
  mem : ∀ a, Memory.read t.mem a = (mem a).getD (Memory.read s.mem a)
  history : ∃ events : List BusEvent, t.history = events ++ s.history ∧ events.length = n ∧
    ∀ e ∈ events, e.isQuadWrite = true

theorem Wrote.refl (s : State) : Wrote s s (fun _ => none) 0 :=
  ⟨.refl s, fun _ => rfl, [], rfl, rfl, by simp⟩

theorem Wrote.trans {s t u : State} {f g h : Nat → Option Byte} {m n k : Nat} (h1 : Wrote s t f m) (h2 : Wrote t u g n)
    (hf : ∀ a, h a = (g a).or (f a)) (hk : k = m + n) : Wrote s u h k := by
  obtain ⟨e1, he1, hl1, hq1⟩ := h1.history
  obtain ⟨e2, he2, hl2, hq2⟩ := h2.history
  refine ⟨h1.only.trans h2.only, fun a => ?_, e2 ++ e1, by rw [he2, he1, List.append_assoc],
    by rw [List.length_append]; omega, fun e he => ?_⟩
  · rw [h2.mem, h1.mem, hf]
    cases g a <;> simp
  · rcases List.mem_append.1 he with h | h
    · exact hq2 e h
    · exact hq1 e h

theorem Wrote.congr {s t : State} {f g : Nat → Option Byte} {n : Nat} (h : Wrote s t f n) (hf : ∀ a, g a = f a) :
    Wrote s t g n := ⟨h.only, fun a => by rw [hf, h.mem], h.history⟩

theorem wrote_draw {s t : State} {f : Nat → Option Byte} {n : Nat} (h : Wrote s.afterDraw t f n) : Wrote s t f n :=
  ⟨(onlyMemory_draw s).trans h.only, h.mem, h.history⟩

/-- The bytes of these quadwords of a line. -/
def quadBytes (line : BitVec 27) (data : Vector Byte 32) (qs : List Nat) (a : Nat) : Option Byte :=
  if a / 32 = line.toNat ∧ a % 32 / 8 ∈ qs then some (lineByte data (a % 32)) else none

theorem wrote_quad {s t : State} {line : BitVec 27} {data : Vector Byte 32} {q : Nat} (hq : q < 4)
    (e : busWrite (lineQuad line q) (lineBytes data (8 * q) 8) s = .next t) :
    Wrote s t (quadBytes line data [q]) 1 := by
  obtain ⟨-, rfl⟩ := busWrite_eq_next.1 e
  have hl : (lineBytes data (8 * q) 8).length = 8 := by rw [length_lineBytes]; omega
  have ha := toNat_lineQuad line hq
  refine ⟨⟨by constructor <;> rfl, rfl, rfl, rfl⟩, fun a => ?_, [_], rfl, rfl, fun e he => ?_⟩
  · show Memory.read (Memory.writeRun s.mem _ _) a = _
    by_cases hc : a / 32 = line.toNat ∧ a % 32 / 8 = q
    · have := Memory.read_writeRun_inside (lineBytes data (8 * q) 8) s.mem (lineQuad line q).toNat (a % 8) (by omega)
      rw [ha, show 32 * line.toNat + 8 * q + a % 8 = a by omega] at this
      rw [ha, this]
      simp only [quadBytes, List.mem_singleton, hc, and_self, if_true, Option.getD_some]
      simp only [lineBytes, lineByte, List.getElem_take, List.getElem_drop]
      have h1 : 8 * q + a % 8 = a % 32 := by omega
      simp [h1, show a % 32 < 32 by omega]
    · rw [Memory.read_writeRun_outside _ _ _ (by rw [hl, ha]; omega)]
      simp only [quadBytes, List.mem_singleton, hc, if_false, Option.getD_none]
  · rw [List.mem_singleton.1 he]
    simp only [BusEvent.isQuadWrite, Bool.and_eq_true, beq_iff_eq, hl, and_true]
    have : (lineQuad line q).toNat % 8 = 0 := by omega
    rw [byteEnables, this]
    decide

/-- Every byte of a line lies in memory. -/
def LinePopulated (s : State) (line : BitVec 27) : Prop :=
  ∀ o, o < 32 → s.populated (32 * line.toNat + o) = true

theorem OnlyMemory.line {s t : State} (h : OnlyMemory s t) {line : BitVec 27} (hp : LinePopulated s line) :
    LinePopulated t line := fun o ho => (h.populated _).trans (hp o ho)

theorem quad_completes {s : State} {line : BitVec 27} (hp : LinePopulated s line) (data : Vector Byte 32) {q : Nat}
    (hq : q < 4) : ∃ t, busWrite (lineQuad line q) (lineBytes data (8 * q) 8) s = .next t := by
  refine ⟨_, busWrite_eq_next.2 ⟨firstHole_eq_none.2 fun i hi => ?_, rfl⟩⟩
  rw [length_lineBytes] at hi
  rw [toNat_lineQuad line hq, Nat.add_assoc]
  exact hp _ (by omega)

theorem writeQuads_alone (line : BitVec 27) (data : Vector Byte 32) : ∀ (qs : List Nat) (s : State),
    (∀ q ∈ qs, q < 4) → s.between = [] → LinePopulated s line →
    ∃ t, writeQuads interleave line data qs s = .next t ∧ Wrote s t (quadBytes line data qs) qs.length
  | [], s, _, _, _ => ⟨s, rfl, (Wrote.refl s).congr fun a => by simp [quadBytes]⟩
  | [q], s, hq, _, hp => by
    obtain ⟨t, ht⟩ := quad_completes hp data (hq q (by simp))
    exact ⟨t, ht, wrote_quad (hq q (by simp)) ht⟩
  | q :: q' :: rest, s, hq, hb, hp => by
    obtain ⟨t, ht⟩ := quad_completes hp data (hq q (by simp))
    have w := wrote_quad (hq q (by simp)) ht
    have hbt : t.between = [] := w.only.between.trans hb
    obtain ⟨u, hu, w'⟩ := writeQuads_alone line data (q' :: rest) t (fun x hx => hq x (List.mem_cons_of_mem _ hx)) hbt
      (w.only.line hp)
    refine ⟨u, ?_, w.trans w' (fun a => ?_) (by simp only [List.length_cons]; omega)⟩
    · simp only [writeQuads, ht, andThen_next, interleave_alone hbt, hu]
    · simp only [quadBytes, List.mem_cons]
      generalize a % 32 / 8 = k
      by_cases h1 : a / 32 = line.toNat <;> by_cases h2 : k = q <;> by_cases h3 : k = q' ∨ k ∈ rest
      all_goals simp only [h1, h2, h3, true_and, false_and, if_true, if_false, true_or, or_true, or_false,
        List.not_mem_nil, Option.none_or, Option.some_or]
      all_goals split <;> rfl

/-- The bytes of a line. -/
def bytesOfLine (line : BitVec 27) (data : Vector Byte 32) (a : Nat) : Option Byte :=
  if a / 32 = line.toNat then some (lineByte data (a % 32)) else none

/-- With no other master in between, a writeback of a line that lies in memory completes with four quadword writes. -/
theorem writeback_alone {s : State} {l : CacheLine DataState} (hb : s.between = []) (hp : LinePopulated s l.address) :
    ∃ t, writeback interleave l s = .next t ∧ Wrote s t (bytesOfLine l.address l.data) 4 := by
  obtain ⟨t, ht, w⟩ := writeQuads_alone l.address l.data (quadOrder s.drawValue) s.afterDraw (fun _ => mem_quadOrder.1)
    hb hp
  have hlen : (quadOrder s.drawValue).length = 4 := (permute_perm _ _).length_eq
  rw [hlen] at w
  exact ⟨t, ht, (wrote_draw w).congr fun a => by
    simp only [quadBytes, bytesOfLine, mem_quadOrder, show a % 32 / 8 < 4 by omega, and_true]⟩

/-- The write events of these quadwords of a line, the latest first. -/
def quadWrites (s : State) (line : BitVec 27) (data : Vector Byte 32) (qs : List Nat) : List BusEvent :=
  (qs.map (fun q => s.writeEvent (32 * line.toNat + 8 * q) (lineBytes data (8 * q) 8))).reverse

theorem writeEvent_congr {s t : State} (h : t.platform = s.platform) (first : Nat) (bytes : List Byte) :
    t.writeEvent first bytes = s.writeEvent first bytes := by
  simp only [State.writeEvent, State.pageAttr, State.pageAt, h]

theorem quadWrites_congr {s t : State} (h : t.platform = s.platform) (line : BitVec 27) (data : Vector Byte 32)
    (qs : List Nat) : quadWrites t line data qs = quadWrites s line data qs := by
  simp only [quadWrites, writeEvent_congr h]

/-- With no other master in between, the events of these quadwords' writes are all that happens on the bus. -/
theorem writeQuads_events (line : BitVec 27) (data : Vector Byte 32) : ∀ (qs : List Nat) (s t : State),
    (∀ q ∈ qs, q < 4) → s.between = [] → writeQuads interleave line data qs s = .next t →
    t.history = quadWrites s line data qs ++ s.history
  | [], s, t, _, _, e => by cases e; rfl
  | q :: rest, s, t, hq, hb, e => by
    have ha := toNat_lineQuad line (hq q (by simp))
    have one : ∀ {u : State}, busWrite (lineQuad line q) (lineBytes data (8 * q) 8) s = .next u →
        u.history = s.writeEvent (32 * line.toNat + 8 * q) (lineBytes data (8 * q) 8) :: s.history ∧
          u.platform = s.platform ∧ u.between = [] := fun h => by
      obtain ⟨-, rfl⟩ := busWrite_eq_next.1 h
      refine ⟨?_, rfl, hb⟩
      rw [State.writeEvent, ← ha, BitVec.ofNat_toNat, BitVec.setWidth_eq]; rfl
    cases rest with
    | nil => exact (one e).1
    | cons q' rest =>
      obtain ⟨u, hu, e⟩ := andThen_eq_next.1 e
      obtain ⟨h1, h2, h3⟩ := one hu
      rw [interleave_alone h3, andThen_next] at e
      rw [writeQuads_events line data (q' :: rest) u t (fun x hx => hq x (List.mem_cons_of_mem _ hx)) h3 e, h1,
        quadWrites_congr h2]
      simp only [quadWrites, List.map_cons, List.reverse_cons, List.append_assoc, List.cons_append, List.nil_append]

/-- With no other master in between, a writeback's events are its four quadword writes. -/
theorem writeback_events {s t : State} {l : CacheLine DataState} (hb : s.between = [])
    (h : writeback interleave l s = .next t) :
    ∃ events, LineWrites s l.address l.data events ∧ t.history = events ++ s.history :=
  ⟨_, ⟨quadOrder s.drawValue, permute_perm _ _, rfl⟩,
    writeQuads_events _ _ (quadOrder s.drawValue) s.afterDraw t (fun _ => mem_quadOrder.1) hb h⟩

/-- The bytes of the modified lines among those with these line addresses. -/
def modifiedBytes (c : Cache DataState) (lines : List (BitVec 27)) (a : Nat) : Option Byte :=
  match lines.find? (fun line => line.toNat == a / 32) with
  | none => none
  | some line =>
    match c.hit line with
    | none => none
    | some l => if l.state = .M then some (lineByte l.data (a % 32)) else none

theorem writebackIfModified_alone {s : State} {line : BitVec 27} {l : CacheLine DataState}
    (hh : s.dc.hit line = some l) (hm : l.state = .M) (hb : s.between = []) (hp : LinePopulated s line) :
    ∃ t, writebackIfModified interleave line s = .next t ∧ Wrote s t (bytesOfLine line l.data) 4 := by
  obtain ⟨hl, rfl⟩ := hit_spec hh
  obtain ⟨t, ht, w⟩ := writeback_alone (l := l) hb hp
  refine ⟨t, ?_, w⟩
  unfold writebackIfModified
  rw [hh]
  simp only [hm]
  exact ht

theorem writebackLines_alone : ∀ (ls : List (BitVec 27)) (s : State), ls.Nodup → s.between = [] →
    (∀ line ∈ ls, LinePopulated s line ∧ ∃ l, s.dc.hit line = some l ∧ l.state = .M) →
    ∃ t, writebackLines interleave ls s = .next t ∧ Wrote s t (modifiedBytes s.dc ls) (4 * ls.length)
  | [], s, _, _, _ => ⟨s, rfl, Wrote.refl s⟩
  | [line], s, _, hb, hl => by
    obtain ⟨hp, l, hh, hm⟩ := hl line (by simp)
    obtain ⟨t, ht, w⟩ := writebackIfModified_alone hh hm hb hp
    refine ⟨t, ht, w.congr fun a => ?_⟩
    by_cases h : line.toNat = a / 32
    · simp [modifiedBytes, bytesOfLine, h, hh, hm]
    · simp [modifiedBytes, bytesOfLine, h, Ne.symm h]
  | line :: line' :: rest, s, hn, hb, hl => by
    obtain ⟨hp, l, hh, hm⟩ := hl line (by simp)
    obtain ⟨t, ht, w⟩ := writebackIfModified_alone hh hm hb hp
    have hbt : t.between = [] := w.only.between.trans hb
    obtain ⟨hnl, hn'⟩ := List.nodup_cons.1 hn
    obtain ⟨u, hu, w'⟩ := writebackLines_alone (line' :: rest) t hn' hbt fun x hx => by
      obtain ⟨a, b⟩ := hl x (List.mem_cons_of_mem _ hx)
      exact ⟨w.only.line a, by rw [w.only.dc]; exact b⟩
    rw [w.only.dc] at w'
    refine ⟨u, ?_, w.trans w' (fun a => ?_) (by simp only [List.length_cons]; omega)⟩
    · simp only [writebackLines, ht, andThen_next, interleave_alone hbt, hu]
    · by_cases h : line.toNat = a / 32
      · have hnone : (line' :: rest).find? (fun x => x.toNat == a / 32) = none := by
          refine List.find?_eq_none.2 fun x hx e => hnl ?_
          have : x = line := BitVec.eq_of_toNat_eq (by simpa [h] using e)
          exact this ▸ hx
        rw [modifiedBytes, List.find?_cons_of_pos (by simpa using h), modifiedBytes, hnone]
        simp [bytesOfLine, h, hh, hm]
      · rw [modifiedBytes, List.find?_cons_of_neg (by simpa using h), ← modifiedBytes]
        simp [bytesOfLine, Ne.symm h]

theorem mem_modifiedLines {c : Cache DataState} {line : BitVec 27} :
    line ∈ modifiedLines c ↔ ∃ l ∈ c.lines, l.state = .M ∧ l.address = line := by
  simp [modifiedLines, and_assoc]

theorem modifiedLines_nodup {c : Cache DataState} (h : c.wf) : (modifiedLines c).Nodup := by
  unfold modifiedLines
  refine List.Pairwise.map _ (fun a b hab => ?_) (h.2.filter _)
  intro e
  exact hab (by
    have := (address_eq_iff a b.address).1 e
    have hb := (address_eq_iff b b.address).1 rfl
    exact ⟨this.1.trans hb.1.symm, this.2.trans hb.2.symm⟩)

/-- The bytes of the modified lines of a cache. -/
theorem modifiedBytes_spec {c : Cache DataState} (h : c.wf) {ls : List (BitVec 27)} (hp : ls.Perm (modifiedLines c)) :
    (∀ l ∈ c.lines, l.state = .M → ∀ o, o < 32 → modifiedBytes c ls (l.byteAddress o) = some (lineByte l.data o)) ∧
    (∀ a, (∀ l ∈ c.lines, l.state = .M → l.address.toNat ≠ a / 32) → modifiedBytes c ls a = none) := by
  refine ⟨fun l hl hm o ho => ?_, fun a ha => ?_⟩
  · have hin : l.address ∈ ls := hp.mem_iff.2 (mem_modifiedLines.2 ⟨l, hl, hm, rfl⟩)
    have hdiv : l.byteAddress o / 32 = l.address.toNat := by simp only [CacheLine.byteAddress]; omega
    have hmod : l.byteAddress o % 32 = o := by simp only [CacheLine.byteAddress]; omega
    have hf : ls.find? (fun line => line.toNat == l.byteAddress o / 32) = some l.address := by
      cases hc : ls.find? (fun line => line.toNat == l.byteAddress o / 32) with
      | none => exact absurd (List.find?_eq_none.1 hc _ hin) (by simp [hdiv])
      | some x =>
        have := List.find?_some hc
        rw [hdiv, beq_iff_eq] at this
        rw [BitVec.eq_of_toNat_eq this]
    rw [modifiedBytes, hf]
    simp only [(hit_eq_some h).2 ⟨hl, rfl⟩, hm, if_true, hmod]
  · have hf : ls.find? (fun line => line.toNat == a / 32) = none := by
      refine List.find?_eq_none.2 fun x hx e => ?_
      obtain ⟨l, hl, hm, rfl⟩ := mem_modifiedLines.1 (hp.mem_iff.1 hx)
      exact ha l hl hm (by simpa using e)
    rw [modifiedBytes, hf]

theorem linesWritten_congr {s t : State} (h : t.platform = s.platform) : ∀ {order : List (CacheLine DataState)}
    {events : List BusEvent}, LinesWritten t order events → LinesWritten s order events
  | [], _, e => e
  | l :: _, _, ⟨first, later, ⟨qs, hq, e1⟩, e2, e3⟩ =>
    ⟨first, later, ⟨qs, hq, e1.trans (quadWrites_congr h l.address l.data qs)⟩, linesWritten_congr h e2, e3⟩

theorem writebackIfModified_eq {s : State} {l : CacheLine DataState} (hh : s.dc.hit l.address = some l)
    (hm : l.state = .M) : writebackIfModified interleave l.address s = writeback interleave l s := by
  unfold writebackIfModified; rw [hh]; simp only [hm]

/-- With no other master in between, the events of writing these modified lines back are their quadword writes, one line
after another. -/
theorem writebackLines_events : ∀ (order : List (CacheLine DataState)) (s t : State), s.between = [] →
    (∀ l ∈ order, LinePopulated s l.address ∧ s.dc.hit l.address = some l ∧ l.state = .M) →
    writebackLines interleave (order.map CacheLine.address) s = .next t →
    ∃ events, LinesWritten s order events ∧ t.history = events ++ s.history
  | [], s, t, _, _, e => by cases e; exact ⟨[], rfl, rfl⟩
  | l :: rest, s, t, hb, hl, e => by
    obtain ⟨hp, hh, hm⟩ := hl l (by simp)
    obtain ⟨u, hu, w⟩ := writeback_alone hb hp
    obtain ⟨first, hf, hhist⟩ := writeback_events hb hu
    have hbu : u.between = [] := w.only.between.trans hb
    cases rest with
    | nil =>
      simp only [List.map_cons, List.map_nil, writebackLines, writebackIfModified_eq hh hm, hu] at e
      cases e
      exact ⟨first, ⟨first, [], hf, rfl, rfl⟩, hhist⟩
    | cons l' rest =>
      simp only [List.map_cons, writebackLines, writebackIfModified_eq hh hm, hu, andThen_next, interleave_alone hbu] at e
      obtain ⟨later, hlater, ht⟩ := writebackLines_events (l' :: rest) u t hbu (fun x hx => by
        obtain ⟨a, b⟩ := hl x (List.mem_cons_of_mem _ hx)
        exact ⟨w.only.line a, by rw [w.only.dc]; exact b⟩) e
      exact ⟨later ++ first, ⟨first, later, hf, linesWritten_congr w.only.core.platform hlater, rfl⟩,
        by rw [ht, hhist, List.append_assoc]⟩

/-- With no other master in between, writing back every modified line completes when each of them lies in memory: the
modified bytes are in memory, the others are as before, and the bus saw four quadword writes a line. -/
theorem writebackAll_alone {s : State} (h : s.dc.wf) (hb : s.between = []) (hp : s.ModifiedLinesPopulated) :
    ∃ t f, writebackAll interleave s = .next t ∧ Wrote s t f (4 * (modifiedLines s.dc).length) ∧
      (∃ events, ModifiedLinesWritten s events ∧ t.history = events ++ s.history) ∧
      (∀ l ∈ s.dc.lines, l.state = .M → ∀ o, o < 32 → f (l.byteAddress o) = some (lineByte l.data o)) ∧
      (∀ a, (∀ l ∈ s.dc.lines, l.state = .M → l.address.toNat ≠ a / 32) → f a = none) := by
  have hperm := permute_perm s.drawValue (modifiedLines s.dc)
  obtain ⟨t, ht, w⟩ := writebackLines_alone (permute s.drawValue (modifiedLines s.dc)) s.afterDraw
    (hperm.nodup_iff.2 (modifiedLines_nodup h)) hb fun line hl => by
      obtain ⟨l, hl', hm, rfl⟩ := mem_modifiedLines.1 (hperm.mem_iff.1 hl)
      exact ⟨fun o ho => hp l hl' hm o ho, l, (hit_eq_some h).2 ⟨hl', rfl⟩, hm⟩
  refine ⟨t, _, ht, wrote_draw (by rwa [hperm.length_eq] at w), ?_, modifiedBytes_spec h hperm⟩
  have hm := permute_map CacheLine.address s.drawValue (s.dc.lines.filter (fun l => l.state == .M))
  have hperm' := permute_perm s.drawValue (s.dc.lines.filter (fun l => l.state == .M))
  obtain ⟨events, he, hh⟩ := writebackLines_events (permute s.drawValue (s.dc.lines.filter (fun l => l.state == .M)))
    s.afterDraw t hb (fun l hl => by
      obtain ⟨hl', hs⟩ := List.mem_filter.1 (hperm'.mem_iff.1 hl)
      have hs : l.state = .M := by simpa using hs
      exact ⟨fun o ho => hp l hl' hs o ho, (hit_eq_some h).2 ⟨hl', rfl⟩, hs⟩) (by rw [← hm]; exact ht)
  exact ⟨events, ⟨_, hperm', linesWritten_congr (s := s) (t := s.afterDraw) rfl he⟩, hh⟩

/-! ### Holes -/

theorem firstHole_of_hole {s : State} {a n i : Nat} (hi : i < n) (hh : s.populated (a + i) = false) :
    ∃ hole, s.firstHole a n = some hole ∧ s.populated hole = false := by
  cases hf : s.firstHole a n with
  | none => rw [firstHole_eq_none.1 hf i hi] at hh; cases hh
  | some hole => exact ⟨hole, rfl, by simpa using List.find?_some hf⟩

theorem stuck_busWrite {s : State} {a : Dword} {bytes : List Byte} {i : Nat} (hi : i < bytes.length)
    (hh : s.populated (a.toNat + i) = false) : MeetsHole s (busWrite a bytes s) := by
  obtain ⟨hole, hf, hp⟩ := firstHole_of_hole hi hh
  exact ⟨hole, by unfold busWrite; rw [hf], hp⟩

theorem stuck_busRead {s : State} {a : Dword} {n i : Nat} (hi : i < n) (hh : s.populated (a.toNat + i) = false) :
    MeetsHole s (busRead a n s) := by
  obtain ⟨hole, hf, hp⟩ := firstHole_of_hole hi hh
  exact ⟨hole, by unfold busRead; rw [hf], hp⟩

theorem MeetsHole.andThen {α β : Type} {s : State} {r : Result α} (h : MeetsHole s r) (f : α → Result β) :
    MeetsHole s (andThen r f) := by
  obtain ⟨hole, rfl, hh⟩ := h
  exact ⟨hole, rfl, hh⟩

theorem MeetsHole.of_platform {α : Type} {s t : State} {r : Result α} (h : t.platform = s.platform)
    (hs : MeetsHole t r) : MeetsHole s r := by
  obtain ⟨hole, hr, hh⟩ := hs
  exact ⟨hole, hr, by rw [State.populated, ← h]; exact hh⟩

theorem MeetsHole.of_only {α : Type} {s t : State} {r : Result α} (h : OnlyMemory s t) (hs : MeetsHole t r) :
    MeetsHole s r := hs.of_platform h.core.platform

theorem stuck_writeQuads (line : BitVec 27) (data : Vector Byte 32) {o : Nat} : ∀ (qs : List Nat) (s : State),
    (∀ q ∈ qs, q < 4) → s.between = [] → o < 32 → o / 8 ∈ qs → s.populated (32 * line.toNat + o) = false →
    MeetsHole s (writeQuads interleave line data qs s)
  | [], _, _, _, _, h, _ => by simp at h
  | q :: rest, s, hq, hb, ho, hin, hh => by
    have hq4 := hq q (by simp)
    by_cases hc : o / 8 = q
    · have hs : MeetsHole s (busWrite (lineQuad line q) (lineBytes data (8 * q) 8) s) := by
        refine stuck_busWrite (i := o % 8) (by rw [length_lineBytes]; omega) ?_
        rw [toNat_lineQuad line hq4, show 32 * line.toNat + 8 * q + o % 8 = 32 * line.toNat + o by omega]
        exact hh
      cases rest with
      | nil => exact hs
      | cons q' rest => exact hs.andThen _
    · have hin' : o / 8 ∈ rest := by simpa [hc] using hin
      cases rest with
      | nil => simp at hin'
      | cons q' rest =>
        cases hf : s.firstHole (lineQuad line q).toNat (lineBytes data (8 * q) 8).length with
        | some hole =>
          refine MeetsHole.andThen ⟨hole, by unfold busWrite; rw [hf], by simpa using List.find?_some hf⟩ _
        | none =>
          have ht := busWrite_eq_next.2 ⟨hf, rfl⟩
          have w := wrote_quad hq4 ht
          simp only [writeQuads, ht, andThen_next, interleave_alone (w.only.between.trans hb)]
          exact .of_only w.only (stuck_writeQuads line data (q' :: rest) _ (fun x hx => hq x (List.mem_cons_of_mem _ hx))
            (w.only.between.trans hb) ho hin' ((w.only.populated _).trans hh))

theorem stuck_writeback {s : State} {l : CacheLine DataState} {o : Nat} (hb : s.between = []) (ho : o < 32)
    (hh : s.populated (l.byteAddress o) = false) : MeetsHole s (writeback interleave l s) :=
  .of_only (onlyMemory_draw s) (stuck_writeQuads _ _ _ _ (fun _ => mem_quadOrder.1) hb ho
    (mem_quadOrder.2 (by omega)) hh)

theorem writeback_alone_or_stuck {s : State} (l : CacheLine DataState) (hb : s.between = []) :
    (∃ t f n, writeback interleave l s = .next t ∧ Wrote s t f n ∧ LinePopulated s l.address) ∨
      MeetsHole s (writeback interleave l s) := by
  by_cases hp : LinePopulated s l.address
  · obtain ⟨t, ht, w⟩ := writeback_alone (l := l) hb hp
    exact .inl ⟨t, _, _, ht, w, hp⟩
  · simp only [LinePopulated, not_forall, Bool.not_eq_true] at hp
    obtain ⟨o, ho, hh⟩ := hp
    exact .inr (stuck_writeback hb ho hh)

theorem stuck_writebackLines {line : BitVec 27} : ∀ (ls : List (BitVec 27)) (s : State), s.between = [] →
    (∀ x ∈ ls, ∃ l, s.dc.hit x = some l ∧ l.state = .M) → line ∈ ls → ¬LinePopulated s line →
    MeetsHole s (writebackLines interleave ls s)
  | [], _, _, _, h, _ => by simp at h
  | x :: rest, s, hb, hl, hin, hh => by
    obtain ⟨l, hl', hm⟩ := hl x (by simp)
    obtain ⟨-, rfl⟩ := hit_spec hl'
    have e := writebackIfModified_eq hl' hm
    rcases writeback_alone_or_stuck l hb with ⟨t, f, n, ht, w, hp⟩ | hs
    · have hin' : line ∈ rest := by
        rcases List.mem_cons.1 hin with rfl | h
        · exact absurd hp hh
        · exact h
      cases rest with
      | nil => simp at hin'
      | cons y rest =>
        simp only [writebackLines, e, ht, andThen_next, interleave_alone (w.only.between.trans hb)]
        exact .of_only w.only (stuck_writebackLines (y :: rest) t (w.only.between.trans hb)
          (fun z hz => by rw [w.only.dc]; exact hl z (List.mem_cons_of_mem _ hz)) hin'
          fun h => hh fun o ho => by rw [← w.only.populated]; exact h o ho)
    · cases rest with
      | nil => simp only [writebackLines, e]; exact hs
      | cons y rest => simp only [writebackLines, e]; exact hs.andThen _

/-- With no other master in between, writing back a modified line with a byte at a hole is never answered. -/
theorem stuck_writebackAll {s : State} (h : s.dc.wf) (hb : s.between = []) (hp : ¬s.ModifiedLinesPopulated) :
    MeetsHole s (writebackAll interleave s) := by
  simp only [State.ModifiedLinesPopulated, not_forall] at hp
  obtain ⟨l, hl, hm, o, ho, hh⟩ := hp
  have hperm := permute_perm s.drawValue (modifiedLines s.dc)
  refine .of_only (onlyMemory_draw s) (stuck_writebackLines (line := l.address) _ _ hb (fun x hx => ?_)
    (hperm.mem_iff.2 (mem_modifiedLines.2 ⟨l, hl, hm, rfl⟩)) fun h' => hh (h' o ho))
  obtain ⟨l', hl', hm', rfl⟩ := mem_modifiedLines.1 (hperm.mem_iff.1 hx)
  exact ⟨l', (hit_eq_some h).2 ⟨hl', rfl⟩, hm'⟩

end Sys2Proof.Machine
end

