-- ==== Sys2Proof/Laws/Fetch.lean ====
section
/-!
SUPPORT. Fetches that complete: from the code cache, from the bus, and by a fill with no other master in between.
-/

namespace Sys2Proof.Machine

/-- All a fetch that fills no line can change: the history gains these events, the code TLB and the code cache's LRU
bits take draws. -/
structure Fetched (s t : State) (events : List BusEvent) : Prop where
  same : SameFetch s t
  mem : t.mem = s.mem
  dc : t.dc = s.dc
  lines : t.cc.lines = s.cc.lines
  between : t.between = s.between
  history : t.history = events ++ s.history

theorem Fetched.trans {s t u : State} {e f : List BusEvent} (h : Fetched s t e) (h' : Fetched t u f) :
    Fetched s u (f ++ e) :=
  ⟨h.same.trans h'.same, h'.mem.trans h.mem, h'.dc.trans h.dc, h'.lines.trans h.lines, h'.between.trans h.between,
    by rw [h'.history, h.history, List.append_assoc]⟩

theorem hit_of_lines {σ : Type} {c d : Cache σ} (h : d.lines = c.lines) (line : BitVec 27) : d.hit line = c.hit line := by
  simp only [Cache.hit, h]

theorem Fetched.hit {s t : State} {e : List BusEvent} (h : Fetched s t e) (line : BitVec 27) :
    t.cc.hit line = s.cc.hit line := hit_of_lines h.lines line

theorem Fetched.cd {s t : State} {e : List BusEvent} (h : Fetched s t e) : t.cd = s.cd := by
  simp only [State.cd, h.same.cr0]

theorem Fetched.populated {s t : State} {e : List BusEvent} (h : Fetched s t e) (a : Nat) :
    t.populated a = s.populated a := by
  simp only [State.populated, h.same.platform]

/-- A byte of a line that the code cache holds. -/
theorem fetchByte_hit {s : State} {a : Dword} {l : CacheLine CodeState} (h : s.cc.hit (lineOf a) = some l) :
    ∃ t, fetchByte a s = .next (lineByte l.data (a.toNat % 32), t) ∧ Fetched s t [] := by
  refine ⟨(s.loadCodeTlb a).touchCode l.set, ?_, ?_⟩
  · unfold fetchByte
    dsimp only [translate]
    have h1 : (s.loadCodeTlb a).cc.hit (lineOf a) = some l := h
    rw [h1, offsetOf_eq]
  · exact ⟨by constructor <;> rfl, rfl, rfl, rfl, rfl, rfl⟩

/-- A byte of memory, where the code cache misses and no fill is allowed. -/
theorem fetchByte_bus {s : State} {a : Dword} (h : s.cc.hit (lineOf a) = none)
    (hc : cacheable s a (s.loadCodeTlb a).drawBit = false) (hp : s.populated a.toNat = true) :
    ∃ t, fetchByte a s = .next (Memory.read s.mem a.toNat, t) ∧ t.cc = s.cc ∧
      Fetched s t [s.readEvent a.toNat 1] := by
  have h1 : (s.loadCodeTlb a).cc.hit (lineOf a) = none := h
  have h2 : cacheable (s.loadCodeTlb a) a (s.loadCodeTlb a).drawBit = false := hc
  have h3 : busRead a 1 (s.loadCodeTlb a).afterDraw = .next (Memory.readRun s.mem a.toNat 1,
      ((s.loadCodeTlb a).afterDraw).log (s.readEvent a.toNat 1)) := by
    refine busRead_eq_next.2 ⟨firstHole_eq_none.2 fun i hi => ?_, ?_⟩
    · rw [show i = 0 by omega]; exact hp
    · rw [State.readEvent, BitVec.ofNat_toNat, BitVec.setWidth_eq]; rfl
  refine ⟨((s.loadCodeTlb a).afterDraw).log (s.readEvent a.toNat 1), ?_, ?_⟩
  · unfold fetchByte
    dsimp only [translate]
    rw [h1, h2, h3]
    rfl
  · exact ⟨rfl, by constructor <;> rfl, rfl, rfl, rfl, rfl, rfl⟩

/-- Two bytes read and decoded. -/
theorem fetchInstr_of {s u v : State} {b0 b1 : Byte} (he : s.platform.endPc ≠ some s.pc)
    (hw : s.pc.toNat + 2 < Config.memorySize) (h0 : fetchByte s.pc s = .next (b0, u))
    (h1 : fetchByte (s.pc + 1) u = .next (b1, v)) :
    fetchInstr s = match decode [b0, b1] with
      | .ok (i, _) => .next (i, v.markFetched s.pc)
      | .error _ => .refused (.notInSpec b0 b1) := by
  have hw' : ¬(s.pc.toNat + 2 ≥ Config.memorySize) := by omega
  cases hd : decode [b0, b1] <;> simp only [fetchInstr, if_neg he, if_neg hw', h0, h1, hd, andThen_next]

/-- The address of the second byte. -/
theorem toNat_pc_succ {s : State} (hw : s.pc.toNat + 2 < Config.memorySize) : (s.pc + 1).toNat = s.pc.toNat + 1 := by
  simp only [Config.memorySize] at hw
  rw [BitVec.toNat_add]; simp; omega

/-! ### Line transfers with no other master in between -/

/-- The read events of these quadwords of a line, the latest first. -/
def quadReads (s : State) (line : BitVec 27) (qs : List Nat) : List BusEvent :=
  (qs.map (fun q => s.readEvent (32 * line.toNat + 8 * q) 8)).reverse

/-- The second state is the first with these events and other draws. -/
structure OnlyEvents (s t : State) (events : List BusEvent) : Prop where
  only : OnlyMemory s t
  mem : t.mem = s.mem
  history : t.history = events ++ s.history

theorem readQuads_alone (line : BitVec 27) : ∀ (qs : List Nat) (data : Vector Byte 32) (s : State),
    (∀ q ∈ qs, q < 4) → s.between = [] → LinePopulated s line →
    ∃ d t, readQuads interleave line qs data s = .next (d, t) ∧ OnlyEvents s t (quadReads s line qs) ∧
      ∀ o, o < 32 → lineByte d o = if o / 8 ∈ qs then Memory.read s.mem (32 * line.toNat + o) else lineByte data o
  | [], data, s, _, _, _ => ⟨data, s, rfl, ⟨.refl s, rfl, rfl⟩, by simp⟩
  | q :: rest, data, s, hq, hb, hp => by
    have hq4 := hq q (by simp)
    have ha := toNat_lineQuad line hq4
    have hr : busRead (lineQuad line q) 8 s = .next (Memory.readRun s.mem (32 * line.toNat + 8 * q) 8,
        s.log (s.readEvent (32 * line.toNat + 8 * q) 8)) := by
      refine busRead_eq_next.2 ⟨firstHole_eq_none.2 fun i hi => ?_, ?_⟩
      · rw [ha, Nat.add_assoc]; exact hp _ (by omega)
      · rw [State.readEvent, ← ha, BitVec.ofNat_toNat, BitVec.setWidth_eq]
    have hd : ∀ o, o < 32 → lineByte (putLineBytes data (8 * q) (Memory.readRun s.mem (32 * line.toNat + 8 * q) 8)) o =
        if o / 8 = q then Memory.read s.mem (32 * line.toNat + o) else lineByte data o := fun o ho => by
      rw [lineByte_putLineBytes _ _ _ ho]
      simp only [Memory.length_readRun, Memory.getElem_readRun]
      by_cases h : o / 8 = q
      · rw [dif_pos (by omega), if_pos h]; congr 1; omega
      · rw [dif_neg (by omega), if_neg h]
    have hlog : OnlyMemory s (s.log (s.readEvent (32 * line.toNat + 8 * q) 8)) :=
      ⟨by constructor <;> rfl, rfl, rfl, rfl⟩
    cases rest with
    | nil =>
      refine ⟨_, s.log (s.readEvent (32 * line.toNat + 8 * q) 8), by simp only [readQuads, hr, andThen_next]; rfl,
        ⟨hlog, rfl, rfl⟩, ?_⟩
      intro o ho
      rw [hd o ho]; simp
    | cons q' rest =>
      obtain ⟨d, t, ht, hev, hb'⟩ := readQuads_alone line (q' :: rest)
        (putLineBytes data (8 * q) (Memory.readRun s.mem (32 * line.toNat + 8 * q) 8))
        (s.log (s.readEvent (32 * line.toNat + 8 * q) 8)) (fun x hx => hq x (List.mem_cons_of_mem _ hx)) hb hp
      refine ⟨d, t, ?_, ⟨hlog.trans hev.only, hev.mem, ?_⟩, fun o ho => ?_⟩
      · simp only [readQuads, hr, andThen_next]
        rw [interleave_alone (s := s.log _) hb]
        exact ht
      · rw [hev.history]
        simp only [quadReads, List.map_cons, List.reverse_cons, List.append_assoc, List.cons_append, List.nil_append,
          log_history]
        rfl
      · rw [hb' o ho, hd o ho]
        simp only [List.mem_cons]
        generalize o / 8 = k
        by_cases h1 : k = q' ∨ k ∈ rest <;> by_cases h2 : k = q <;> simp [h1, h2]

/-- With no other master in between, a line transfer of a line that lies in memory completes with memory's bytes. -/
theorem readLine_alone {s : State} {line : BitVec 27} (hb : s.between = []) (hp : LinePopulated s line) :
    ∃ d t order, readLine interleave line s = .next (d, t) ∧ order.Perm [0, 1, 2, 3] ∧
      OnlyEvents s t (quadReads s line order) ∧ ∀ o, o < 32 → lineByte d o = Memory.read s.mem (32 * line.toNat + o) := by
  obtain ⟨d, t, ht, hev, hd⟩ := readQuads_alone line (quadOrder s.drawValue) (Vector.replicate 32 Config.unlistedByte)
    s.afterDraw (fun _ => mem_quadOrder.1) hb hp
  refine ⟨d, t, quadOrder s.drawValue, ht, permute_perm _ _, ?_, fun o ho => ?_⟩
  · exact ⟨(onlyMemory_draw s).trans hev.only, hev.mem, hev.history⟩
  · rw [hd o ho, if_pos (mem_quadOrder.2 (by omega))]; rfl

theorem quadReads_congr {s t : State} (hm : t.mem = s.mem) (hp : t.platform = s.platform) (line : BitVec 27)
    (qs : List Nat) : quadReads t line qs = quadReads s line qs := by
  simp only [quadReads, State.readEvent, State.pageAttr, State.pageAt, hm, hp]

/-- Reads of a line's quadwords are the same events where memory holds the same bytes in the line. -/
theorem quadReads_same {s t : State} {line : BitVec 27} {qs : List Nat}
    (hm : ∀ o, o < 32 → Memory.read t.mem (32 * line.toNat + o) = Memory.read s.mem (32 * line.toNat + o))
    (hp : t.platform = s.platform) (hq : ∀ q ∈ qs, q < 4) : quadReads t line qs = quadReads s line qs := by
  unfold quadReads
  congr 1
  refine List.map_congr_left fun q h => ?_
  have := hq q h
  simp only [State.readEvent, State.pageAttr, State.pageAt, hp]
  congr 1
  refine List.map_congr_left fun i hi => ?_
  have := List.mem_range.1 hi
  rw [Nat.add_assoc]
  exact hm _ (by omega)

/-- A fill of the code cache: the line stands where the victim stood, with memory's bytes, after four quadword reads; no
other line of the code cache, no byte of memory and nothing of the data cache changed. -/
structure CodeLineFilled (s t : State) (line : BitVec 27) (l : CacheLine CodeState) : Prop where
  hit : t.cc.hit line = some l
  data : ∀ o, o < 32 → lineByte l.data o = Memory.read s.mem (32 * line.toNat + o)
  place : ∃ draw, l.way = s.cc.victim (lineSet line) draw
  others : SameOtherPlaces s.cc t.cc l.set l.way
  mem : t.mem = s.mem
  dc : t.dc = s.dc
  between : t.between = s.between
  history : ∃ order : List Nat, order.Perm [0, 1, 2, 3] ∧ t.history = quadReads s line order ++ s.history

/-- With no other master in between, a code-cache fill of a line that lies in memory completes. -/
theorem fillCode_alone {s : State} {line : BitVec 27} (i : s.Inv) (hm : s.cc.hit line = none) (hb : s.between = [])
    (hp : LinePopulated s line) :
    ∃ l t, fillCode interleave line s = .next (l, t) ∧ CodeLineFilled s t line l ∧ SameCore s t := by
  obtain ⟨d, t, order, ht, hperm, hev, hd⟩ := readLine_alone (line := line)
    (s := evictCode (lineSet line) (s.cc.victim (lineSet line) s.drawBit) s.afterDraw) hb hp
  have hf : fillCode interleave line s = .next (⟨lineSet line, s.cc.victim (lineSet line) s.drawBit, lineTag line, .S, d⟩,
      State.touchCode { t with
        cc := t.cc.put ⟨lineSet line, s.cc.victim (lineSet line) s.drawBit, lineTag line, .S, d⟩ } (lineSet line)) := by
    simp only [fillCode, ht, andThen_next]
  have hi := fillCode_inv hf hm i
  refine ⟨_, _, hf, ⟨(hit_eq_some hi.cc).2 ⟨mem_put.2 (.inl rfl), by simp [CacheLine.address]⟩, hd, ⟨_, rfl⟩, ?_,
    hev.mem, hev.only.dc, hev.only.between, order, hperm, ?_⟩, ?_⟩
  · refine (sameOtherPlaces_drop s.cc (lineSet line) (s.cc.victim (lineSet line) s.drawBit)).trans ?_
    have hcc : t.cc = s.cc.drop (lineSet line) (s.cc.victim (lineSet line) s.drawBit) := hev.only.cc
    rw [← hcc]
    exact sameOtherPlaces_put t.cc ⟨lineSet line, s.cc.victim (lineSet line) s.drawBit, lineTag line, .S, d⟩
  · exact hev.history.trans (by rw [quadReads_congr (s := s) rfl rfl]; rfl)
  · have h1 : SameCore s (evictCode (lineSet line) (s.cc.victim (lineSet line) s.drawBit) s.afterDraw) := by
      constructor <;> rfl
    exact (h1.trans hev.only.core).trans (by constructor <;> rfl)

/-- With no other master in between, a fetch miss that may fill, of a line that lies in memory, takes memory's byte by a
fill. -/
theorem fetchByte_fill {s : State} {a : Dword} (i : s.Inv) (hb : s.between = []) (hm : s.cc.hit (lineOf a) = none)
    (hc : cacheable s a (s.loadCodeTlb a).drawBit = true) (hp : LinePopulated s (lineOf a)) :
    ∃ l t, fetchByte a s = .next (Memory.read s.mem a.toNat, t) ∧ CodeLineFilled s t (lineOf a) l ∧ SameFetch s t := by
  have ha := toNat_lineOf a
  obtain ⟨l, t, ht, f, hcore⟩ := fillCode_alone (line := lineOf a) (s := (s.loadCodeTlb a).afterDraw)
    ((tame_closed.draw _).inv (loadCodeTlb_inv i a)) hm hb hp
  obtain ⟨order, hperm, hhist⟩ := f.history
  refine ⟨l, t, ?_, ⟨f.hit, f.data, f.place, f.others, f.mem, f.dc, f.between, order, hperm, ?_⟩, ?_⟩
  · have h1 : (s.loadCodeTlb a).cc.hit (lineOf a) = none := hm
    have h2 : cacheable (s.loadCodeTlb a) a (s.loadCodeTlb a).drawBit = true := hc
    unfold fetchByte
    dsimp only [translate]
    rw [h1]
    simp only [h2, if_true, ht, andThen_next]
    rw [offsetOf_eq, f.data _ (by omega), ha, show 32 * (a.toNat / 32) + a.toNat % 32 = a.toNat by omega]
    rfl
  · exact hhist.trans (by rw [quadReads_congr (s := s) rfl rfl]; rfl)
  · have h0 : SameFetch s (s.loadCodeTlb a).afterDraw := by constructor <;> rfl
    exact h0.trans hcore.toFetch

end Sys2Proof.Machine
end

