-- ==== Sys2Proof/Laws/Meanings.lean ====
section
/-!
SUPPORT. Frames, and what the instructions answer.
-/

namespace Sys2Proof.Machine

/-! ### Frames -/

theorem sameRegs_of {s t : State} (h : t.regs = s.regs) : SameRegs s t := fun r => by simp only [State.reg, h]

theorem sameSpecial_of (s t : State) (h1 : t.cr0 = s.cr0) (h2 : t.cpl = s.cpl) (h3 : t.mcAddress = s.mcAddress)
  (h4 : t.mcType = s.mcType) (h5 : t.tr12 = s.tr12) (h6 : t.fpu = s.fpu) : SameSpecial s t :=
  ⟨h1, h2, fun n => by cases n <;> simp only [State.msr, h3, h4, h5], h6⟩

theorem SameCore.special {s t : State} (h : SameCore s t) : SameSpecial s t :=
  sameSpecial_of s t h.cr0 h.cpl h.mcAddress h.mcType h.tr12 h.fpu

theorem sameOutside_of {s t : State} (h : t.regs = s.regs) (h1 : t.cr0 = s.cr0) (h2 : t.cpl = s.cpl) (h3 : t.mcAddress = s.mcAddress)
  (h4 : t.mcType = s.mcType) (h5 : t.tr12 = s.tr12) (h6 : t.fpu = s.fpu) (h7 : t.io = s.io) (h8 : t.platform = s.platform)
  (h9 : t.schedule = s.schedule) (h10 : t.tlbs = s.tlbs) : SameOutside s t :=
  ⟨sameRegs_of h, sameSpecial_of s t h1 h2 h3 h4 h5 h6, fun a => by rw [h7], ⟨h8, h9⟩, h10⟩

theorem SameCore.outside {s t : State} (h : SameCore s t) : SameOutside s t :=
  sameOutside_of h.regs h.cr0 h.cpl h.mcAddress h.mcType h.tr12 h.fpu h.io h.platform h.schedule h.tlbs

theorem SameFetch.special {s t : State} (h : SameFetch s t) : SameSpecial s t :=
  ⟨h.cr0, h.cpl, fun n => by cases n <;> simp only [State.msr, h.mcAddress, h.mcType, h.tr12], h.fpu⟩

/-! ### Steps -/

theorem nextMove_nil {s : State} (h : s.schedule = []) : nextMove s = (.processor, s) := by
  unfold nextMove; rw [h]

/-- With an empty schedule the processor moves. -/
theorem step_run {s : State} (hm : s.cd = s.nw) (h : s.schedule = []) : step s = runInstruction s := by
  unfold step
  rw [nextMove_nil h]
  simp [State.modeInSource, hm, performMove]

/-- A step makes the move at the head of the schedule. -/
theorem step_move {s : State} {m : Move} {rest : List Move} (hm : s.cd = s.nw) (h : s.schedule = m :: rest) :
    step s = performMove m { s with schedule := rest } := by
  have hn : nextMove s = (m, { s with schedule := rest }) := by unfold nextMove; rw [h]
  unfold step
  rw [if_pos (by simp [State.modeInSource, hm]), hn]

/-! ### Registers -/

theorem reg_setReg_same (s : State) (r : Reg) (v : Dword) : (s.setReg r v).reg r = v := by
  cases r <;> simp [State.reg, State.setReg, Reg.index]

theorem reg_setReg_other (s : State) {r r' : Reg} (v : Dword) (h : r ≠ r') : (s.setReg r' v).reg r = s.reg r := by
  cases r <;> cases r' <;> first | exact absurd rfl h | simp [State.reg, State.setReg, Reg.index]

theorem ofNumber_eq_some {n : Dword} {m : MsrId} : MsrId.ofNumber n = some m ↔ n = m.number := by
  unfold MsrId.ofNumber
  split
  · next h => subst h; cases m <;> simp [MsrId.number]
  · next h0 =>
    split
    · next h => subst h; cases m <;> simp [MsrId.number]
    · next h1 =>
      split
      · next h => subst h; cases m <;> simp [MsrId.number]
      · next h2 => cases m <;> simp only [MsrId.number, reduceCtorEq, false_iff] <;> assumption

/-- The two halves of EDX:EAX are the value. -/
theorem halves_append (v : Qword) : v.extractLsb' 32 32 ++ v.extractLsb' 0 32 = v := by
  apply BitVec.eq_of_toNat_eq
  simp only [BitVec.toNat_append, BitVec.extractLsb'_toNat]
  rw [← Nat.shiftLeft_add_eq_or_of_lt (Nat.mod_lt _ (by decide)), Nat.shiftLeft_eq, Nat.shiftRight_eq_div_pow]
  have := v.isLt
  omega

/-- Different kinds of cycles have different codes. -/
theorem cycleTypeCode_inj {k k' : CycleKind} (h : Config.cycleTypeCode k = Config.cycleTypeCode k') : k = k' := by
  have := Config.cycleTypeCoding.injective h
  cases k <;> cases k' <;> first | rfl | exact absurd this (by decide)

/-! ### Cache control -/

theorem allInvalid_of {t : State} (h : t.dc.lines = []) (h' : t.cc.lines = []) : AllInvalid t := fun set way => by
  simp [dataStateAt, codeStateAt, Cache.lineAt, h, h']

/-- All INVD can answer. -/
theorem invd_next {s t : State} (h : exec .invd s = .next t) : t = (s.invalidateCaches.specialCycle .flush).advance := by
  simp only [exec, execInvd] at h
  split at h
  · cases h; rfl
  · cases h

theorem wbinvd_eq {s : State} (h : s.cpl = 0) : exec .wbinvd s = andThen (writebackAll interleave s) fun t =>
      .next ((t.invalidateCaches.specialCycle .writeback).specialCycle .flush).advance := by
  simp only [exec, execWbinvd, h, if_true]

/-- All WBINVD can answer. -/
theorem wbinvd_next {s u : State} (h : exec .wbinvd s = .next u) : ∃ t, writebackAll interleave s = .next t ∧
    u = ((t.invalidateCaches.specialCycle .writeback).specialCycle .flush).advance := by
  simp only [exec, execWbinvd] at h
  split at h
  · obtain ⟨t, ht, h⟩ := andThen_eq_next.1 h
    cases h
    exact ⟨t, ht, rfl⟩
  · cases h

end Sys2Proof.Machine
end

