-- ==== Sys2Proof/Laws/Operands.lean ====
section
/-!
SUPPORT. Operands, byte order, byte enables, lookups, and data accesses of one part.
-/

namespace Sys2Proof.Machine

/-! ### Byte order -/

theorem littleEndian_lt (l : List Byte) : littleEndian l < 256 ^ l.length := by
  induction l with
  | nil => simp [littleEndian]
  | cons b l ih =>
    simp only [littleEndian, List.length_cons, Nat.pow_succ]
    have := b.isLt
    omega

theorem littleEndian_byte (l : List Byte) : ∀ i (h : i < l.length), littleEndian l / 256 ^ i % 256 = (l[i]).toNat := by
  induction l with
  | nil => intro i h; simp at h
  | cons b l ih =>
    intro i h
    have := b.isLt
    cases i with
    | zero => simp only [littleEndian, Nat.pow_zero, Nat.div_one, List.getElem_cons_zero]; omega
    | succ i =>
      rw [List.getElem_cons_succ, ← ih i (by simpa using h), Nat.pow_succ, Nat.mul_comm, ← Nat.div_div_eq_div_mul]
      congr 2
      simp only [littleEndian]; omega

/-- A value assembled from bytes has those bytes. -/
theorem hasBytes_littleEndian {l : List Byte} {n : Nat} (hn : l.length = n) (h : n ≤ 8) {f : Nat → Byte}
    (hf : ∀ i (h : i < l.length), l[i] = f i) :
    HasBytes (BitVec.ofNat 64 (littleEndian l)) n f := by
  subst hn
  have h1 := littleEndian_lt l
  have h2 : 256 ^ l.length ≤ 2 ^ 64 := by
    calc 256 ^ l.length ≤ 256 ^ 8 := Nat.pow_le_pow_right (by decide) h
      _ = 2 ^ 64 := by decide
  have h3 : (BitVec.ofNat 64 (littleEndian l)).toNat = littleEndian l := by
    rw [BitVec.toNat_ofNat, Nat.mod_eq_of_lt (by omega)]
  refine ⟨by rw [h3]; exact h1, fun i hi => ?_⟩
  rw [← hf i hi]
  apply BitVec.eq_of_toNat_eq
  rw [BitVec.extractLsb'_toNat, h3, Nat.shiftRight_eq_div_pow, ← littleEndian_byte l i hi, Nat.pow_mul]

/-! ### Operands -/

theorem bytes_le (w : Width) : w.bytes ≤ 8 := by cases w <;> decide

theorem bytes_pos (w : Width) : 1 ≤ w.bytes := by cases w <;> decide

theorem operandWf_iff {a : Dword} {w : Width} : operandWf a.toNat w.bytes = true ↔ a.toNat + w.bytes ≤ 4294967296 := by
  simp [operandWf]

theorem split_of_aligned {a : Nat} {w : Width} (h : misaligned a w = false) : split a w = [(a, w.bytes)] := by
  simp [split, h]

theorem aligned_in_line {a : Nat} {w : Width} (h : misaligned a w = false) : a % 32 + w.bytes ≤ 32 := by
  cases w <;> simp only [misaligned, Width.bytes, decide_eq_false_iff_not] at h ⊢ <;> omega

theorem ofNat_toNat32 (a : Dword) : BitVec.ofNat 32 a.toNat = a := by rw [BitVec.ofNat_toNat, BitVec.setWidth_eq]

theorem hasBytes_viewRun (s : State) (a : Nat) (w : Width) :
    HasBytes (BitVec.ofNat 64 (littleEndian (s.viewRun a w.bytes))) w.bytes (fun i => s.view (a + i)) :=
  hasBytes_littleEndian (by simp [State.viewRun]) (bytes_le w) (fun i h => by simp [State.viewRun])

/-- Every byte of an operand lies in a part. -/
theorem part_cover {a : Nat} {w : Width} {i : Nat} (hi : i < w.bytes) : ∃ p ∈ split a w, p.1 ≤ a + i ∧ a + i < p.1 + p.2 := by
  cases hal : misaligned a w with
  | false => rw [split_of_aligned hal]; exact ⟨_, List.mem_singleton.2 rfl, by simp, by simpa using hi⟩
  | true =>
    rw [split, if_pos hal]
    by_cases hc : a + i < splitUnit w * (a / splitUnit w + 1)
    · exact ⟨_, List.mem_cons_of_mem _ (List.mem_singleton.2 rfl), by simp, by dsimp only; omega⟩
    · exact ⟨_, List.mem_cons_self, by dsimp only; omega, by dsimp only; omega⟩

/-- Every part lies in the operand. -/
theorem part_sub {a : Nat} {w : Width} {p : Nat × Nat} (hp : p ∈ split a w) : a ≤ p.1 ∧ p.1 + p.2 ≤ a + w.bytes := by
  cases hal : misaligned a w with
  | false => rw [split_of_aligned hal] at hp; simp only [List.mem_singleton] at hp; subst hp; simp
  | true =>
    have hb : a < splitUnit w * (a / splitUnit w + 1) ∧ splitUnit w * (a / splitUnit w + 1) ≤ a + w.bytes := by
        cases w <;> simp [misaligned] at hal <;> simp [splitUnit, Width.bytes] <;> omega
    rw [split, if_pos hal] at hp
    simp only [List.mem_cons, List.not_mem_nil, or_false] at hp
    rcases hp with rfl | rfl <;> dsimp only <;> omega

/-! ### Byte enables -/

theorem byteEnables_bit {a : Dword} {n i : Nat} (hi : i < 8) :
    (byteEnables a n).getLsbD i = decide (a.toNat % 8 ≤ i ∧ i < a.toNat % 8 + n) := by
  unfold byteEnables
  rw [BitVec.getLsbD_ofNat, Nat.testBit_mul_two_pow, Nat.testBit_two_pow_sub_one]
  simp only [hi, decide_true, Bool.true_and]
  by_cases h1 : a.toNat % 8 ≤ i <;> simp [h1]
  omega

/-! ### Lookups -/

theorem stateAt_ne_I {c : Cache DataState} {set way} : dataStateAt c set way ≠ .I ↔ ∃ l, c.lineAt set way = some l := by
  unfold dataStateAt
  cases c.lineAt set way with
  | none => simp
  | some l => cases h : l.state <;> simp [h]

theorem stateAt_eq_I {c : Cache DataState} {set way} : dataStateAt c set way = .I ↔ c.lineAt set way = none := by
  rw [← not_iff_not]
  change (_ ≠ _) ↔ _
  rw [stateAt_ne_I, Option.eq_none_iff_forall_ne_some]
  simp

theorem codeStateAt_eq_I {c : Cache CodeState} {set way} : codeStateAt c set way = .I ↔ c.lineAt set way = none := by
  unfold codeStateAt
  cases c.lineAt set way <;> simp

/-- A line address hits exactly when a line of its set has its tag. -/
theorem hit_iff_lineAt {σ : Type} {c : Cache σ} (h : c.wf) (line : BitVec 27) :
    (c.hit line).isSome = true ↔ ∃ way l, c.lineAt (lineSet line) way = some l ∧ l.tag = lineTag line := by
  rw [Option.isSome_iff_exists]
  constructor
  · rintro ⟨l, hl⟩
    obtain ⟨hm, ha⟩ := hit_spec hl
    have hx := (address_eq_iff l line).1 ha
    refine ⟨l.way, l, ?_, hx.2⟩
    cases hc : c.lineAt (lineSet line) l.way with
    | none => exact absurd ⟨hx.1, rfl⟩ (lineAt_eq_none.1 hc l hm)
    | some x =>
      obtain ⟨h1, h2, h3⟩ := lineAt_spec hc
      rw [place_inj h h1 hm ((place_eq_iff x l).2 ⟨h2.trans hx.1.symm, h3⟩)]
  · rintro ⟨way, l, hl, ht⟩
    obtain ⟨h1, h2, h3⟩ := lineAt_spec hl
    exact ⟨l, (hit_eq_some h).2 ⟨h1, (address_eq_iff l line).2 ⟨h2, ht⟩⟩⟩

/-- New contents for a line leave every other line address alone. -/
theorem hit_put_other {c : Cache DataState} {l l' : CacheLine DataState} (h : c.wf) (hl : l ∈ c.lines) (hp : l'.place = l.place)
   (ht : l'.tag = l.tag) {other : BitVec 27} (ho : other ≠ l.address) : (c.put l').hit other = c.hit other := by
  have hset := ((place_eq_iff l' l).1 hp).1
  have ha : l'.address = l.address := by simp only [CacheLine.address, hset, ht]
  have hw := wf_put_same h hl hp ht
  cases hc : c.hit other with
  | none =>
    refine hit_eq_none.2 fun x hx e => ?_
    rcases mem_put.1 hx with rfl | ⟨hx, -⟩
    · exact ho (e.symm.trans ha)
    · exact hit_eq_none.1 hc x hx e
  | some x =>
    obtain ⟨hx, hxa⟩ := hit_spec hc
    refine (hit_eq_some hw).2 ⟨mem_put.2 (.inr ⟨hx, fun e => ?_⟩), hxa⟩
    have : x = l := place_inj h hx hl (e.trans hp)
    exact ho (by rw [← hxa, this])

/-- A line with new contents is hit where it was. -/
theorem hit_put_same {c : Cache DataState} {l l' : CacheLine DataState} (h : c.wf) (hl : l ∈ c.lines) (hp : l'.place = l.place)
   (ht : l'.tag = l.tag) : (c.put l').hit l.address = some l' := by
  have hset := ((place_eq_iff l' l).1 hp).1
  have ha : l'.address = l.address := by simp only [CacheLine.address, hset, ht]
  exact (hit_eq_some (wf_put_same h hl hp ht)).2 ⟨mem_put.2 (.inl rfl), ha⟩

/-- Dropping a line leaves every other line address alone. -/
theorem hit_drop_other {σ : Type} {c : Cache σ} {l : CacheLine σ} (h : c.wf) (hl : l ∈ c.lines) {other : BitVec 27}
    (ho : other ≠ l.address) : (c.drop l.set l.way).hit other = c.hit other := by
  cases hc : c.hit other with
  | none => exact hit_eq_none.2 fun x hx e => hit_eq_none.1 hc x (mem_drop.1 hx).1 e
  | some x =>
    obtain ⟨hx, hxa⟩ := hit_spec hc
    refine (hit_eq_some (wf_drop h _ _)).2 ⟨mem_drop.2 ⟨hx, fun e => ho ?_⟩, hxa⟩
    rw [← hxa, place_inj h hx hl ((place_eq_iff x l).2 e)]

/-- A line dropped is hit no more. -/
theorem hit_drop_same {σ : Type} {c : Cache σ} {l : CacheLine σ} (h : c.wf) (hl : l ∈ c.lines) :
    (c.drop l.set l.way).hit l.address = none := by
  refine hit_eq_none.2 fun x hx e => ?_
  obtain ⟨hx, hn⟩ := mem_drop.1 hx
  have : x = l := address_inj h hx hl e
  subst this
  exact hn ⟨rfl, rfl⟩

/-- A line address whose line was dropped is hit no more, and the others are hit as before. -/
theorem hit_dropHit {σ : Type} {c : Cache σ} (h : c.wf) (line : BitVec 27) : (c.dropHit line).hit line = none := by
  unfold Cache.dropHit
  cases hc : c.hit line with
  | none => exact hc
  | some l =>
    obtain ⟨hl, rfl⟩ := hit_spec hc
    exact hit_drop_same h hl

theorem hit_dropHit_other {σ : Type} {c : Cache σ} (h : c.wf) {line other : BitVec 27} (ho : other ≠ line) :
    (c.dropHit line).hit other = c.hit other := by
  unfold Cache.dropHit
  cases hc : c.hit line with
  | none => rfl
  | some l =>
    obtain ⟨hl, rfl⟩ := hit_spec hc
    exact hit_drop_other h hl ho

/-! ### Accesses -/

theorem memRead_eq {s : State} {w : Width} {a : Dword} (hm : s.cd = s.nw) (hw : a.toNat + w.bytes ≤ 4294967296) :
    memRead w a s = andThen (readParts (split a.toNat w) s) fun r => .next (BitVec.ofNat 64 (littleEndian r.1), r.2) := by
  unfold memRead
  rw [if_pos (by simp [State.modeInSource, hm]), if_pos (operandWf_iff.2 hw)]

theorem not_cacheable_of_cd {s : State} (h : s.cd = true) (a k) : cacheable s a k = false := by simp [cacheable, h]

/-- A part of a read that misses and may not fill is one bus read. -/
theorem readPart_bus_eq {s : State} {first n : Nat} (hp : PartInLine first n)
    (hm : s.dc.hit (lineOf (BitVec.ofNat 32 first)) = none)
    (hc : cacheable s (BitVec.ofNat 32 first) (s.loadDataTlb (BitVec.ofNat 32 first)).drawBit = false)
    (hpop : s.runPopulated first n) :
    readPart first n s = .next (Memory.readRun s.mem first n,
      ((s.loadDataTlb (BitVec.ofNat 32 first)).afterDraw).log (s.readEvent first n)) := by
  have h1 : (s.loadDataTlb (BitVec.ofNat 32 first)).dc.hit (lineOf (BitVec.ofNat 32 first)) = none := hm
  have h2 : cacheable (s.loadDataTlb (BitVec.ofNat 32 first)) (BitVec.ofNat 32 first)
    (s.loadDataTlb (BitVec.ofNat 32 first)).drawBit = false := hc
  have h3 : busRead (BitVec.ofNat 32 first) n (s.loadDataTlb (BitVec.ofNat 32 first)).afterDraw =
      .next (Memory.readRun s.mem first n, ((s.loadDataTlb (BitVec.ofNat 32 first)).afterDraw).log (s.readEvent first n)) := by
    refine busRead_eq_next.2 ⟨firstHole_eq_none.2 fun i hi => ?_, ?_⟩
    · rw [part_toNat hp]; exact hpop i hi
    · rw [part_toNat hp]; rfl
  unfold readPart
  dsimp only [translate]
  rw [h1]
  simp only [h2, h3, Bool.false_eq_true, if_false]

theorem readPart_bus {s : State} {first n : Nat} (hp : PartInLine first n)
    (hm : s.dc.hit (lineOf (BitVec.ofNat 32 first)) = none)
    (hc : cacheable s (BitVec.ofNat 32 first) (s.loadDataTlb (BitVec.ofNat 32 first)).drawBit = false)
    (hpop : s.runPopulated first n) :
    ∃ t, readPart first n s = .next (Memory.readRun s.mem first n, t) ∧ t.mem = s.mem ∧ t.dc = s.dc ∧ t.cc = s.cc ∧
      t.between = s.between ∧ t.platform = s.platform ∧ t.cr0 = s.cr0 ∧ t.pc = s.pc ∧ t.regs = s.regs ∧
      SameSpecial s t ∧ t.history = s.readEvent first n :: s.history :=
  ⟨_, readPart_bus_eq hp hm hc hpop, rfl, rfl, rfl, rfl, rfl, rfl, rfl, rfl,
    ⟨rfl, rfl, fun n => (by cases n <;> rfl), rfl⟩, rfl⟩

theorem memWrite_eq {s : State} {w : Width} {a : Dword} {v : Qword} (hm : s.cd = s.nw) (hw : a.toNat + w.bytes ≤ 4294967296) :
    memWrite w a v s = match (split a.toNat w).findSome? (writeRefusal s) with
      | some r => .refused r
      | none => writeParts a.toNat (bytesOf v w.bytes) (split a.toNat w) s := by
  have hm' : s.modeInSource = true := by simp [State.modeInSource, hm]
  cases hr : (split a.toNat w).findSome? (writeRefusal s) <;>
    simp only [memWrite, if_pos hm', if_pos (operandWf_iff.2 hw), hr]

theorem memWrite_one {s : State} {w : Width} {a : Dword} {v : Qword} (hcd : s.cd = false) (hnw : s.nw = false)
    (hw : a.toNat + w.bytes ≤ 4294967296) (hal : misaligned a.toNat w = false)
    (hcc : s.cc.hit (lineOf a) = none) (hcr : ∀ i, i < w.bytes → s.codeRange (a.toNat + i) = false) :
    memWrite w a v s = writePart a.toNat (bytesOf v w.bytes) s := by
  rw [memWrite_eq (hcd.trans hnw.symm) hw, split_of_aligned hal]
  have : writeRefusal s (a.toNat, w.bytes) = none := by
    unfold writeRefusal
    dsimp only [translate]
    rw [ofNat_toNat32, hcc, hcd, if_neg, if_neg]
    · simp
    · simp only [Option.isSome_none, Bool.false_or, List.any_eq_true, not_exists, not_and]
      intro i hi
      rw [hcr i (List.mem_range.1 hi)]; simp
  simp only [List.findSome?_cons, this, List.findSome?_nil, writeParts, Nat.sub_self, List.drop_zero]
  rw [List.take_of_length_le (by rw [length_bytesOf])]

theorem lineByte_updated {w : Width} {a : Dword} {v : Qword} (l : CacheLine DataState) (st : DataState) : 
   ∀ o, o < 32 → lineByte ({ l with data := putLineBytes l.data (offsetOf a) (bytesOf v w.bytes), state := st } : CacheLine DataState).data o =
      if a.toNat % 32 ≤ o ∧ o < a.toNat % 32 + w.bytes then v.extractLsb' (8 * (o - a.toNat % 32)) 8
      else lineByte l.data o := fun o ho => by
  dsimp only
  rw [lineByte_putLineBytes _ _ _ ho, offsetOf_eq]
  simp only [length_bytesOf]
  split
  · simp [bytesOf]
  · rfl

theorem read_written (s : State) {w : Width} {a : Dword} (v : Qword) (x : Nat) :
   Memory.read (Memory.writeRun s.mem a.toNat (bytesOf v w.bytes)) x =
    if a.toNat ≤ x ∧ x < a.toNat + w.bytes then v.extractLsb' (8 * (x - a.toNat)) 8 else Memory.read s.mem x := by
  split
  · next h =>
    have := Memory.read_writeRun_inside (bytesOf v w.bytes) s.mem a.toNat (x - a.toNat) (by rw [length_bytesOf]; omega)
    rw [show a.toNat + (x - a.toNat) = x by omega] at this
    rw [this]; simp [bytesOf]
  · next h => exact Memory.read_writeRun_outside _ _ _ (by rw [length_bytesOf]; omega)

end Sys2Proof.Machine
end

