-- ==== Sys2Proof/Laws/Complete.lean ====
section
/-!
SUPPORT. Data accesses that complete, with no other master in between: evictions, data-cache fills, and the parts of a
read or write.
-/

namespace Sys2Proof.Machine

/-! ### What a data access leaves -/

/-- All a data access can change besides data: the data TLBs, the data cache, memory, the history and the draws. -/
structure SameAccess (s t : State) : Prop where
  regs : t.regs = s.regs
  pc : t.pc = s.pc
  special : SameSpecial s t
  io : t.io = s.io
  cc : t.cc = s.cc
  code : t.tlbs.code = s.tlbs.code
  between : t.between = s.between
  platform : t.platform = s.platform

theorem SameAccess.trans {s t u : State} (h : SameAccess s t) (h' : SameAccess t u) : SameAccess s u :=
  ⟨h'.regs.trans h.regs, h'.pc.trans h.pc,
    ⟨h'.special.1.trans h.special.1, h'.special.2.1.trans h.special.2.1,
      fun n => (h'.special.2.2.1 n).trans (h.special.2.2.1 n), h'.special.2.2.2.trans h.special.2.2.2⟩,
    h'.io.trans h.io, h'.cc.trans h.cc, h'.code.trans h.code, h'.between.trans h.between, h'.platform.trans h.platform⟩

theorem sameAccess_loadDataTlb (s : State) (a : Dword) : SameAccess s (s.loadDataTlb a) :=
  ⟨rfl, rfl, sameSpecial_of _ _ rfl rfl rfl rfl rfl rfl, rfl, rfl, by
    unfold State.loadDataTlb; dsimp only; split <;> rfl, rfl, rfl⟩

theorem SameCore.access {s t : State} (h : SameCore s t) (hcc : t.cc = s.cc) (hb : t.between = s.between) :
    SameAccess s t :=
  ⟨h.regs, h.pc, h.special, h.io, hcc, by rw [h.tlbs], hb, h.platform⟩

/-! ### Fills of the data cache -/

/-- The line at a place of the data cache has left it, a modified one by way of memory; no other line changed. -/
structure Evicted (s t : State) (set : BitVec 7) (way : Way) : Prop where
  core : SameCore s t
  cc : t.cc = s.cc
  between : t.between = s.between
  empty : t.dc.lineAt set way = none
  others : SameOtherPlaces s.dc t.dc set way
  mem : VictimInMemory s t set way
  history : ∃ events, VictimWrites s set way events ∧ t.history = events ++ s.history

/-- With no other master in between, an eviction completes where the line, if it is modified, lies in memory. -/
theorem evictData_alone {s : State} {set : BitVec 7} {way : Way} (hb : s.between = [])
    (hp : ∀ x, s.dc.lineAt set way = some x → x.state = .M → LinePopulated s x.address) :
    ∃ t, evictData interleave set way s = .next t ∧ Evicted s t set way := by
  have clean : ∀ x : CacheLine DataState, s.dc.lineAt set way = some x → x.state ≠ .M →
      Evicted s { s with dc := s.dc.drop set way } set way := fun x hx hs =>
    ⟨by constructor <;> rfl, rfl, rfl, lineAt_drop_same .., sameOtherPlaces_drop _ _ _,
      ⟨fun y hy hm => (by rw [hx] at hy; cases hy; exact absurd hm hs), fun _ _ => rfl⟩,
      [], ⟨fun y hy hm => (by rw [hx] at hy; cases hy; exact absurd hm hs), fun _ => rfl⟩, rfl⟩
  unfold evictData
  cases hl : s.dc.lineAt set way with
  | none => exact ⟨s, rfl, .refl s, rfl, rfl, hl, fun _ _ _ => rfl,
      ⟨fun x hx => (by rw [hl] at hx; cases hx), fun _ _ => rfl⟩,
      [], ⟨fun x hx => (by rw [hl] at hx; cases hx), fun _ => rfl⟩, rfl⟩
  | some l =>
    cases hst : l.state with
    | M =>
      obtain ⟨t, ht, w⟩ := writeback_alone (s := s) (l := l) hb (hp l hl hst)
      have hc : SameCore t { t with dc := t.dc.drop set way } := by constructor <;> rfl
      refine ⟨{ t with dc := t.dc.drop set way }, by simp only [hst, ht, andThen_next], w.only.core.trans hc, w.only.cc,
        w.only.between, lineAt_drop_same .., ?_, ⟨fun x hx _ a => ?_, fun hn => absurd hst (hn l hl)⟩, ?_⟩
      · rw [← w.only.dc]; exact sameOtherPlaces_drop _ _ _
      · rw [hl] at hx; cases hx
        exact (w.mem a).trans (by rw [bytesOfLine]; split <;> rfl)
      · obtain ⟨events, he, hh⟩ := writeback_events hb ht
        exact ⟨events, ⟨fun x hx _ => by rw [hl] at hx; cases hx; exact he, fun hn => absurd hst (hn l hl)⟩, hh⟩
    | E => exact ⟨_, by simp only [hst], clean l hl (by rw [hst]; decide)⟩
    | S => exact ⟨_, by simp only [hst], clean l hl (by rw [hst]; decide)⟩

/-- A fill of the data cache: the line stands where the victim stood, in state E or S with the bytes memory held; a
modified victim is in memory, no other byte of memory changed, and no other line of the data cache; the bus saw the
victim's writeback and then four quadword reads. -/
structure DataLineFilled (s t : State) (line : BitVec 27) (l : CacheLine DataState) : Prop where
  hit : t.dc.hit line = some l
  state : l.state = .E ∨ l.state = .S
  data : ∀ o, o < 32 → lineByte l.data o = Memory.read s.mem (32 * line.toNat + o)
  place : ∃ draw, l.way = s.dc.victim (lineSet line) draw
  others : SameOtherPlaces s.dc t.dc l.set l.way
  mem : VictimInMemory s t l.set l.way
  history : ∃ (order : List Nat) (writes : List BusEvent), order.Perm [0, 1, 2, 3] ∧ VictimWrites s l.set l.way writes ∧
    t.history = quadReads s line order ++ writes ++ s.history

/-- With no other master in between, a data-cache fill completes where the line and every modified line lie in memory.
-/
theorem fillData_alone {s : State} {line : BitVec 27} (i : s.Inv) (hm : s.dc.hit line = none) (hb : s.between = [])
    (hp : LinePopulated s line) (hv : s.ModifiedLinesPopulated) :
    ∃ l t, fillData interleave line s = .next (l, t) ∧ DataLineFilled s t line l ∧ SameCore s t ∧ t.cc = s.cc ∧
      t.between = s.between := by
  obtain ⟨u, hu, e⟩ := evictData_alone (s := s.afterDraw) (set := lineSet line)
    (way := s.dc.victim (lineSet line) s.drawBit) hb fun x hx hs => hv x (lineAt_spec hx).1 hs
  obtain ⟨d, v, order, hr, hperm, hev, hd⟩ := readLine_alone (line := line) (s := u) (e.between.trans hb)
    (fun o ho => by simp only [State.populated, e.core.platform]; exact hp o ho)
  have hf : fillData interleave line s =
      .next (⟨lineSet line, s.dc.victim (lineSet line) s.drawBit, lineTag line, if v.drawBit then .E else .S, d⟩,
        State.touchData { v.afterDraw with
          dc := v.dc.put ⟨lineSet line, s.dc.victim (lineSet line) s.drawBit, lineTag line,
            if v.drawBit then .E else .S, d⟩ } (lineSet line)) := by
    simp only [fillData, hu, hr, andThen_next]
  have hi := fillData_inv hf hm i
  have hsame : ∀ o, o < 32 → Memory.read u.mem (32 * line.toNat + o) = Memory.read s.mem (32 * line.toNat + o) :=
    fun o ho => by
    cases hx : s.dc.lineAt (lineSet line) (s.dc.victim (lineSet line) s.drawBit) with
    | none => exact e.mem.2 (fun x h => by rw [show s.afterDraw.dc.lineAt _ _ = none from hx] at h; cases h) _
    | some x =>
      by_cases hs : x.state = .M
      · refine (e.mem.1 x hx hs _).trans (if_neg fun h =>
          hit_eq_none.1 hm x (lineAt_spec hx).1 (BitVec.eq_of_toNat_eq ?_))
        rw [← h]; omega
      · exact e.mem.2 (fun y h => by rw [show s.afterDraw.dc.lineAt _ _ = some x from hx] at h; cases h; exact hs) _
  refine ⟨_, _, hf, ⟨(hit_eq_some hi.dc).2 ⟨mem_put.2 (.inl rfl), by simp [CacheLine.address]⟩, ?_,
    fun o ho => (hd o ho).trans (hsame o ho), ⟨_, rfl⟩, e.others.trans ?_, ?_, ?_⟩, ?_, hev.only.cc.trans e.cc, hev.only.between.trans e.between⟩
  · dsimp only; split
    · exact .inl rfl
    · exact .inr rfl
  · rw [← hev.only.dc]
    exact sameOtherPlaces_put v.dc ⟨lineSet line, s.dc.victim (lineSet line) s.drawBit, lineTag line,
      if v.drawBit then .E else .S, d⟩
  · have hmem : v.mem = u.mem := hev.mem
    exact ⟨fun x hx hs a => (congrArg (Memory.read · a) hmem).trans (e.mem.1 x hx hs a),
      fun hn a => (congrArg (Memory.read · a) hmem).trans (e.mem.2 hn a)⟩
  · obtain ⟨writes, hw, hu⟩ := e.history
    refine ⟨order, writes, hperm, hw, ?_⟩
    have hv : v.history = quadReads u line order ++ u.history := hev.history
    rw [List.append_assoc, ← quadReads_same hsame e.core.platform fun q hq => by
      have := hperm.mem_iff.1 hq
      simp only [List.mem_cons, List.not_mem_nil, or_false] at this
      omega]
    exact hv.trans (congrArg _ hu)
  · have h0 : SameCore s s.afterDraw := by constructor <;> rfl
    exact ((h0.trans e.core).trans hev.only.core).trans (by constructor <;> rfl)

/-! ### Writes -/

/-- All a part of a write can change besides data. -/
theorem writePart_frame {first : Nat} {bytes : List Byte} {s t : State} (h : writePart first bytes s = .next t) :
    SameAccess s t := by
  unfold writePart at h
  dsimp only [translate] at h
  refine (sameAccess_loadDataTlb s (BitVec.ofNat 32 first)).trans ?_
  generalize s.loadDataTlb (BitVec.ofNat 32 first) = u at h
  split at h
  · obtain ⟨-, rfl⟩ := busWrite_eq_next.1 h
    exact SameCore.access (by constructor <;> rfl) rfl rfl
  · split at h
    · cases h; exact SameCore.access (by constructor <;> rfl) rfl rfl
    · cases h; exact SameCore.access (by constructor <;> rfl) rfl rfl
    · obtain ⟨v, hv, h⟩ := andThen_eq_next.1 h
      cases h
      obtain ⟨-, rfl⟩ := busWrite_eq_next.1 hv
      exact SameCore.access (by constructor <;> rfl) rfl rfl

/-- A part of a write completes where its bytes lie in memory. -/
theorem writePart_completes {first : Nat} {bytes : List Byte} {s : State} (hp : PartInLine first bytes.length)
    (hpop : s.runPopulated first bytes.length) : ∃ t, writePart first bytes s = .next t := by
  obtain ⟨u, hu⟩ : ∃ u, busWrite (BitVec.ofNat 32 first) bytes (s.loadDataTlb (BitVec.ofNat 32 first)) = .next u :=
    ⟨_, busWrite_eq_next.2 ⟨firstHole_eq_none.2 fun i hi => by rw [part_toNat hp]; exact hpop i hi, rfl⟩⟩
  unfold writePart
  dsimp only [translate]
  split
  · exact ⟨u, hu⟩
  · split
    · exact ⟨_, rfl⟩
    · exact ⟨_, rfl⟩
    · rw [hu]; exact ⟨_, rfl⟩

/-- A part of a write that misses is one bus write and leaves the data cache. -/
theorem writePart_miss {first : Nat} {bytes : List Byte} {s : State} (hp : PartInLine first bytes.length)
    (hm : s.dc.hit (lineOf (BitVec.ofNat 32 first)) = none) (hpop : s.runPopulated first bytes.length) :
    ∃ t, writePart first bytes s = .next t ∧ t.mem = Memory.writeRun s.mem first bytes ∧ t.dc = s.dc ∧
      t.history = s.writeEvent first bytes :: s.history := by
  have h1 : (s.loadDataTlb (BitVec.ofNat 32 first)).dc.hit (lineOf (BitVec.ofNat 32 first)) = none := hm
  have hu : busWrite (BitVec.ofNat 32 first) bytes (s.loadDataTlb (BitVec.ofNat 32 first)) =
      .next { (s.loadDataTlb (BitVec.ofNat 32 first)).log (s.writeEvent first bytes) with
        mem := Memory.writeRun s.mem first bytes } := by
    refine busWrite_eq_next.2 ⟨firstHole_eq_none.2 fun i hi => by rw [part_toNat hp]; exact hpop i hi, ?_⟩
    rw [part_toNat hp]; rfl
  refine ⟨{ (s.loadDataTlb (BitVec.ofNat 32 first)).log (s.writeEvent first bytes) with
    mem := Memory.writeRun s.mem first bytes }, ?_, rfl, rfl, rfl⟩
  unfold writePart
  dsimp only [translate]
  rw [h1]
  exact hu

/-- A write whose bytes are no program text, in no line of the code cache, and in disabled mode in no line of the data
cache, is not refused. -/
theorem memWrite_admitted {s : State} {w : Width} {a : Dword} {v : Qword} (hm : s.cd = s.nw)
    (hw : a.toNat + w.bytes ≤ 4294967296)
    (h : ∀ i, i < w.bytes → s.codeRange (a.toNat + i) = false ∧
      s.cc.hit (lineOf (BitVec.ofNat 32 (a.toNat + i))) = none ∧
      (s.cd = true → s.dc.hit (lineOf (BitVec.ofNat 32 (a.toNat + i))) = none)) :
    memWrite w a v s = writeParts a.toNat (bytesOf v w.bytes) (split a.toNat w) s := by
  rw [memWrite_eq hm hw, List.findSome?_eq_none_iff.2 fun p hp => ?_]
  have hs := part_sub hp
  have h1 := (split_parts (w := w) hw p hp).1
  have hx : ∀ i, i < p.2 → s.codeRange (p.1 + i) = false ∧ s.cc.hit (lineOf (BitVec.ofNat 32 (p.1 + i))) = none ∧
      (s.cd = true → s.dc.hit (lineOf (BitVec.ofNat 32 (p.1 + i))) = none) := fun i hi => by
    have := h (p.1 - a.toNat + i) (by omega)
    rwa [show a.toNat + (p.1 - a.toNat + i) = p.1 + i by omega] at this
  obtain ⟨-, hcc, hdc⟩ := hx 0 (by omega)
  rw [Nat.add_zero] at hcc hdc
  unfold writeRefusal
  dsimp only [translate]
  rw [if_neg, if_neg]
  · cases hcd : s.cd with
    | false => simp
    | true => rw [hdc hcd]; simp
  · rw [hcc]
    simp only [Option.isSome_none, Bool.false_or, List.any_eq_true, not_exists, not_and, List.mem_range]
    intro i hi
    rw [(hx i hi).1]; simp

/-- A misaligned operand is two parts that meet at the boundary crossed. -/
theorem split_two {a : Nat} {w : Width} (h : misaligned a w = true) :
    ∃ b, a < b ∧ b < a + w.bytes ∧ split a w = [(b, a + w.bytes - b), (a, b - a)] := by
  refine ⟨splitUnit w * (a / splitUnit w + 1), ?_, ?_, by rw [split, if_pos h]⟩ <;>
    cases w <;> simp [misaligned] at h <;> simp [splitUnit, Width.bytes] <;> omega

/-! ### Reads -/

/-- A part of a read that misses and may fill takes its bytes from the line a fill brings. -/
theorem readPart_fill {first n : Nat} {s : State} (i : s.Inv) (hb : s.between = [])
    (hm : s.dc.hit (lineOf (BitVec.ofNat 32 first)) = none)
    (hc : cacheable s (BitVec.ofNat 32 first) (s.loadDataTlb (BitVec.ofNat 32 first)).drawBit = true)
    (hpop : LinePopulated s (lineOf (BitVec.ofNat 32 first))) (hv : s.ModifiedLinesPopulated) :
    ∃ l t, readPart first n s = .next (lineBytes l.data (offsetOf (BitVec.ofNat 32 first)) n, t) ∧
      DataLineFilled s t (lineOf (BitVec.ofNat 32 first)) l ∧ SameAccess s t := by
  obtain ⟨l, t, ht, f, hcore, hcc, hbt⟩ := fillData_alone (line := lineOf (BitVec.ofNat 32 first))
    (s := (s.loadDataTlb (BitVec.ofNat 32 first)).afterDraw) ((tame_closed.draw _).inv (loadDataTlb_inv i _))
    hm hb hpop hv
  have h1 : (s.loadDataTlb (BitVec.ofNat 32 first)).dc.hit (lineOf (BitVec.ofNat 32 first)) = none := hm
  have h2 : cacheable (s.loadDataTlb (BitVec.ofNat 32 first)) (BitVec.ofNat 32 first)
    (s.loadDataTlb (BitVec.ofNat 32 first)).drawBit = true := hc
  refine ⟨l, t, ?_, ⟨f.hit, f.state, f.data, f.place, f.others, f.mem, f.history⟩,
    (sameAccess_loadDataTlb s (BitVec.ofNat 32 first)).trans ?_⟩
  · unfold readPart
    dsimp only [translate]
    rw [h1]
    simp only [h2, if_true, ht, andThen_next]
  · have h0 : SameCore (s.loadDataTlb (BitVec.ofNat 32 first)) (s.loadDataTlb (BitVec.ofNat 32 first)).afterDraw := by
      constructor <;> rfl
    exact (h0.trans hcore).access hcc hbt

/-- After a fill the line filled hits, and what hit in another set still does. -/
theorem DataLineFilled.hit_kept {s t : State} {line other : BitVec 27} {l : CacheLine DataState}
    (h : DataLineFilled s t line l) (i : s.Inv) (ho : other = line ∨ lineSet other ≠ lineSet line)
    (hn : t.dc.hit other = none) :
    s.dc.hit other = none := by
  rcases ho with rfl | ho
  · rw [h.hit] at hn; cases hn
  · cases hs : s.dc.hit other with
    | none => rfl
    | some x =>
      obtain ⟨hx, hxa⟩ := hit_spec hs
      obtain ⟨hset, -⟩ := (address_eq_iff l line).1 (hit_spec h.hit).2
      have hxs := ((address_eq_iff x other).1 hxa).1
      have ht := (h.others x.set x.way fun e => ho (hxs.symm.trans (e.1.trans hset))).trans
        ((lineAt_eq_some i.dc).2 ⟨hx, rfl, rfl⟩)
      exact absurd hxa (hit_eq_none.1 hn x (lineAt_spec ht).1)

/-- A fill brings no modified line. -/
theorem DataLineFilled.modified {s t : State} {line : BitVec 27} {l : CacheLine DataState}
    (h : DataLineFilled s t line l) (j : t.Inv) {x : CacheLine DataState} (hx : x ∈ t.dc.lines) (hm : x.state = .M) :
    x ∈ s.dc.lines := by
  have hat := (lineAt_eq_some j.dc).2 ⟨hx, rfl, rfl⟩
  by_cases hp : x.set = l.set ∧ x.way = l.way
  · have : x = l := place_inj j.dc hx (hit_spec h.hit).1 ((place_eq_iff x l).2 hp)
    subst this
    rcases h.state with e | e <;> rw [e] at hm <;> cases hm
  · exact (lineAt_spec ((h.others _ _ hp).symm.trans hat)).1

/-- The memory a part of a read may need where it misses: its bytes, and its line where a fill may be allowed. -/
def ReadPopulated (s : State) (first n : Nat) : Prop :=
  s.dc.hit (lineOf (BitVec.ofNat 32 first)) = none →
    s.runPopulated first n ∧
      (cacheable s (BitVec.ofNat 32 first) false = true → LinePopulated s (lineOf (BitVec.ofNat 32 first)))

/-- With no other master in between, a part of a read completes where the memory it may need is there. Afterwards lines
of other sets that hit still hit, and so does the line it names if it did. -/
theorem readPart_alone {first n : Nat} {s : State} (g : s.Good) (hb : s.between = []) (hp : PartInLine first n)
    (hv : s.ModifiedLinesPopulated) (hpop : ReadPopulated s first n) :
    ∃ r, readPart first n s = .next r ∧ SameAccess s r.2 ∧ r.2.ModifiedLinesPopulated ∧
      ∀ line, line = lineOf (BitVec.ofNat 32 first) ∨ lineSet line ≠ lineSet (lineOf (BitVec.ofNat 32 first)) →
        r.2.dc.hit line = none → s.dc.hit line = none := by
  cases hh : s.dc.hit (lineOf (BitVec.ofNat 32 first)) with
  | some l =>
    refine ⟨(lineBytes l.data (offsetOf (BitVec.ofNat 32 first)) n,
      (s.loadDataTlb (BitVec.ofNat 32 first)).touchData l.set), ?_, ?_, hv, fun line _ h => h⟩
    · have h1 : (s.loadDataTlb (BitVec.ofNat 32 first)).dc.hit (lineOf (BitVec.ofNat 32 first)) = some l := hh
      unfold readPart
      dsimp only [translate]
      rw [h1]
    · exact (sameAccess_loadDataTlb s (BitVec.ofNat 32 first)).trans (SameCore.access (by constructor <;> rfl) rfl rfl)
  | none =>
    obtain ⟨hrun, hline⟩ := hpop hh
    cases hc : cacheable s (BitVec.ofNat 32 first) (s.loadDataTlb (BitVec.ofNat 32 first)).drawBit with
    | false =>
      exact ⟨_, readPart_bus_eq hp hh hc hrun,
        (sameAccess_loadDataTlb s (BitVec.ofNat 32 first)).trans (SameCore.access (by constructor <;> rfl) rfl rfl), hv,
        fun line _ h => h⟩
    | true =>
      have hk : cacheable s (BitVec.ofNat 32 first) false = true := by
        simp only [cacheable, Bool.and_eq_true] at hc ⊢
        exact ⟨hc.1, rfl⟩
      obtain ⟨l, t, ht, f, hs⟩ := readPart_fill (n := n) g.inv hb hh hc (hline hk) hv
      have j := (quiet_readPart hp g ht).1.good.inv
      refine ⟨_, ht, hs, fun x hx hm o ho => ?_, fun line ho hn => f.hit_kept g.inv ho hn⟩
      simp only [State.populated, hs.platform]
      exact hv x (f.modified j hx hm) hm o ho

/-- Two parts of a read that lie in one line or in lines of different sets complete one after the other. -/
theorem readParts_two {b a n m : Nat} {s : State} (g : s.Good) (hb : s.between = []) (hv : s.ModifiedLinesPopulated)
    (h1 : PartInLine b n) (h2 : PartInLine a m) (p1 : ReadPopulated s b n) (p2 : ReadPopulated s a m)
    (hl : lineOf (BitVec.ofNat 32 a) = lineOf (BitVec.ofNat 32 b) ∨
      lineSet (lineOf (BitVec.ofNat 32 a)) ≠ lineSet (lineOf (BitVec.ofNat 32 b))) :
    ∃ r, readParts [(b, n), (a, m)] s = .next r ∧ SameAccess s r.2 := by
  obtain ⟨r, hr, f, hv', hk⟩ := readPart_alone g hb h1 hv p1
  have q := (quiet_readPart h1 g hr).1
  have hb' : r.2.between = [] := f.between.trans hb
  obtain ⟨u, hu, f', -, -⟩ := readPart_alone q.good hb' h2 hv' fun hm => by
    obtain ⟨x1, x2⟩ := p2 (hk _ hl hm)
    refine ⟨fun i hi => ?_, fun hc o ho => ?_⟩
    · simp only [State.populated, f.platform]; exact x1 i hi
    · simp only [State.populated, f.platform]
      refine x2 ?_ o ho
      have := f.special.1
      simpa [cacheable, State.cd, State.pageAttr, State.pageAt, f.platform, this] using hc
  exact ⟨(u.1 ++ r.1, u.2), by simp only [readParts, hr, andThen_next, interleave_alone hb', hu], f.trans f'⟩

end Sys2Proof.Machine
end

