-- ==== Sys2Proof/Laws/Holes.lean ====
section
/-!
SUPPORT. Accesses that meet a hole, with no other master in between: the cycle is never answered (20_memory.md R48).
-/

namespace Sys2Proof.Machine

theorem not_runPopulated {s : State} {a n : Nat} : ¬s.runPopulated a n ↔ ∃ i, i < n ∧ s.populated (a + i) = false := by
  simp only [State.runPopulated, not_forall, Bool.not_eq_true, exists_prop]

/-! ### Line transfers -/

theorem stuck_readQuads (line : BitVec 27) {o : Nat} (ho : o < 32) : ∀ (qs : List Nat) (data : Vector Byte 32) (s : State),
    (∀ q ∈ qs, q < 4) → s.between = [] → o / 8 ∈ qs → s.populated (32 * line.toNat + o) = false →
    MeetsHole s (readQuads interleave line qs data s)
  | [], _, _, _, _, h, _ => by simp at h
  | q :: rest, data, s, hq, hb, hin, hh => by
    have ha := toNat_lineQuad line (hq q (by simp))
    cases hf : s.firstHole (lineQuad line q).toNat 8 with
    | some hole =>
      have hs : MeetsHole s (busRead (lineQuad line q) 8 s) :=
        ⟨hole, by unfold busRead; rw [hf], by simpa using List.find?_some hf⟩
      cases rest with
      | nil => exact hs.andThen _
      | cons q' rest => exact hs.andThen _
    | none =>
      have hc : o / 8 ≠ q := fun e => by
        have := firstHole_eq_none.1 hf (o % 8) (by omega)
        rw [ha, show 32 * line.toNat + 8 * q + o % 8 = 32 * line.toNat + o by omega, hh] at this
        cases this
      have hin' : o / 8 ∈ rest := (List.mem_cons.1 hin).resolve_left hc
      cases rest with
      | nil => simp at hin'
      | cons q' rest =>
        have ht := busRead_eq_next.2 ⟨hf, rfl⟩
        simp only [readQuads, ht, andThen_next]
        rw [interleave_alone (s := s.log _) hb, andThen_next]
        exact (stuck_readQuads line ho (q' :: rest) _ (s.log _) (fun x hx => hq x (List.mem_cons_of_mem _ hx)) hb hin'
          hh).of_platform rfl

theorem stuck_readLine {s : State} {line : BitVec 27} (hb : s.between = []) (hp : ¬LinePopulated s line) :
    MeetsHole s (readLine interleave line s) := by
  simp only [LinePopulated, not_forall, Bool.not_eq_true] at hp
  obtain ⟨o, ho, hh⟩ := hp
  exact (stuck_readQuads line ho _ _ s.afterDraw (fun _ => mem_quadOrder.1) hb (mem_quadOrder.2 (by omega))
    hh).of_platform rfl

theorem stuck_fillCode {s : State} {line : BitVec 27} (hb : s.between = []) (hp : ¬LinePopulated s line) :
    MeetsHole s (fillCode interleave line s) :=
  MeetsHole.andThen ((stuck_readLine (s := evictCode (lineSet line) (s.cc.victim (lineSet line) s.drawBit) s.afterDraw)
    hb hp).of_platform rfl) _

/-- The line at a place of the data cache is modified and a byte of it lies at a hole. -/
def VictimAtHole (s : State) (set : BitVec 7) (way : Way) : Prop :=
  ∃ x, s.dc.lineAt set way = some x ∧ x.state = .M ∧ ¬LinePopulated s x.address

theorem stuck_evictData {s : State} {set : BitVec 7} {way : Way} (hb : s.between = []) (h : VictimAtHole s set way) :
    MeetsHole s (evictData interleave set way s) := by
  obtain ⟨x, hx, hm, hp⟩ := h
  simp only [LinePopulated, not_forall, Bool.not_eq_true] at hp
  obtain ⟨o, ho, hh⟩ := hp
  unfold evictData
  rw [hx]
  simp only [hm]
  exact (stuck_writeback hb ho hh).andThen _

/-- A data-cache fill meets a hole where the line has one, or a modified victim. -/
theorem stuck_fillData {s : State} {line : BitVec 27} (hb : s.between = [])
    (h : ¬LinePopulated s line ∨ VictimAtHole s (lineSet line) (s.dc.victim (lineSet line) s.drawBit)) :
    MeetsHole s (fillData interleave line s) := by
  by_cases hv : VictimAtHole s (lineSet line) (s.dc.victim (lineSet line) s.drawBit)
  · exact MeetsHole.andThen ((stuck_evictData (s := s.afterDraw) hb hv).of_platform rfl) _
  · obtain ⟨u, hu, e⟩ := evictData_alone (s := s.afterDraw) (set := lineSet line)
      (way := s.dc.victim (lineSet line) s.drawBit) hb fun x hx hm => by
        by_contra hp
        exact hv ⟨x, hx, hm, hp⟩
    have hs := stuck_readLine (s := u) (line := line) (e.between.trans hb) fun hp => h.elim (· fun o ho => by
      have := hp o ho
      simp only [State.populated, e.core.platform] at this
      exact this) hv
    unfold fillData
    simp only [hu, andThen_next]
    exact (hs.andThen _).of_platform e.core.platform

/-! ### Fetches -/

theorem fetchByte_hole {s : State} {a : Dword} (hm : s.cc.hit (lineOf a) = none)
    (hc : cacheable s a (s.loadCodeTlb a).drawBit = false) (hp : s.populated a.toNat = false) :
    fetchByte a s = .fault (.busCycleNotAnswered a.toNat) := by
  have h1 : (s.loadCodeTlb a).cc.hit (lineOf a) = none := hm
  have h2 : cacheable (s.loadCodeTlb a) a (s.loadCodeTlb a).drawBit = false := hc
  have h3 : (s.loadCodeTlb a).afterDraw.firstHole a.toNat 1 = some a.toNat := by
    have h4 : (s.loadCodeTlb a).afterDraw.populated a.toNat = false := hp
    simp [State.firstHole, List.range_succ, h4]
  unfold fetchByte
  dsimp only [translate]
  rw [h1]
  simp only [h2, Bool.false_eq_true, if_false, busRead, h3, andThen_fault]

theorem stuck_fetchByte {s : State} {a : Dword} (hb : s.between = []) (hm : s.cc.hit (lineOf a) = none)
    (hc : cacheable s a (s.loadCodeTlb a).drawBit = true) (hp : ¬LinePopulated s (lineOf a)) :
    MeetsHole s (fetchByte a s) := by
  have h1 : (s.loadCodeTlb a).cc.hit (lineOf a) = none := hm
  have h2 : cacheable (s.loadCodeTlb a) a (s.loadCodeTlb a).drawBit = true := hc
  have h3 := stuck_fillCode (s := (s.loadCodeTlb a).afterDraw) (line := lineOf a) hb hp
  unfold fetchByte
  dsimp only [translate]
  rw [h1]
  simp only [h2, if_true]
  exact (h3.andThen _).of_platform rfl

/-! ### Data accesses -/

theorem stuck_readPart_bus {first n : Nat} {s : State} (hp : PartInLine first n)
    (hm : s.dc.hit (lineOf (BitVec.ofNat 32 first)) = none)
    (hc : cacheable s (BitVec.ofNat 32 first) (s.loadDataTlb (BitVec.ofNat 32 first)).drawBit = false)
    (hpop : ¬s.runPopulated first n) : MeetsHole s (readPart first n s) := by
  obtain ⟨i, hi, hh⟩ := not_runPopulated.1 hpop
  have h1 : (s.loadDataTlb (BitVec.ofNat 32 first)).dc.hit (lineOf (BitVec.ofNat 32 first)) = none := hm
  have h2 : cacheable (s.loadDataTlb (BitVec.ofNat 32 first)) (BitVec.ofNat 32 first)
    (s.loadDataTlb (BitVec.ofNat 32 first)).drawBit = false := hc
  have h3 := stuck_busRead (s := (s.loadDataTlb (BitVec.ofNat 32 first)).afterDraw) (a := BitVec.ofNat 32 first) hi
    (by rw [part_toNat hp]; exact hh)
  unfold readPart
  dsimp only [translate]
  rw [h1]
  simp only [h2, Bool.false_eq_true, if_false]
  exact h3.of_platform rfl

theorem stuck_readPart_fill {first n : Nat} {s : State} (hb : s.between = [])
    (hm : s.dc.hit (lineOf (BitVec.ofNat 32 first)) = none)
    (hc : cacheable s (BitVec.ofNat 32 first) (s.loadDataTlb (BitVec.ofNat 32 first)).drawBit = true)
    (h : ¬LinePopulated s (lineOf (BitVec.ofNat 32 first)) ∨
      ∀ draw, VictimAtHole s (lineSet (lineOf (BitVec.ofNat 32 first)))
        (s.dc.victim (lineSet (lineOf (BitVec.ofNat 32 first))) draw)) : MeetsHole s (readPart first n s) := by
  have h1 : (s.loadDataTlb (BitVec.ofNat 32 first)).dc.hit (lineOf (BitVec.ofNat 32 first)) = none := hm
  have h2 : cacheable (s.loadDataTlb (BitVec.ofNat 32 first)) (BitVec.ofNat 32 first)
    (s.loadDataTlb (BitVec.ofNat 32 first)).drawBit = true := hc
  have h3 := stuck_fillData (s := (s.loadDataTlb (BitVec.ofNat 32 first)).afterDraw)
    (line := lineOf (BitVec.ofNat 32 first)) hb (h.imp id fun h => h _)
  unfold readPart
  dsimp only [translate]
  rw [h1]
  simp only [h2, if_true]
  exact (h3.andThen _).of_platform rfl

/-- A part of a write that goes to memory meets a hole where a byte of it lies at one. -/
theorem stuck_writePart {first : Nat} {bytes : List Byte} {s : State} (hp : PartInLine first bytes.length)
    (hm : s.dc.hit (lineOf (BitVec.ofNat 32 first)) = none ∨
      ∃ l, s.dc.hit (lineOf (BitVec.ofNat 32 first)) = some l ∧ l.state = .S)
    (hpop : ¬s.runPopulated first bytes.length) : MeetsHole s (writePart first bytes s) := by
  obtain ⟨i, hi, hh⟩ := not_runPopulated.1 hpop
  have h3 := stuck_busWrite (s := s.loadDataTlb (BitVec.ofNat 32 first)) (a := BitVec.ofNat 32 first) hi
    (by rw [part_toNat hp]; exact hh)
  unfold writePart
  dsimp only [translate]
  rcases hm with hm | ⟨l, hm, hs⟩
  · have h1 : (s.loadDataTlb (BitVec.ofNat 32 first)).dc.hit (lineOf (BitVec.ofNat 32 first)) = none := hm
    rw [h1]
    exact h3.of_platform rfl
  · have h1 : (s.loadDataTlb (BitVec.ofNat 32 first)).dc.hit (lineOf (BitVec.ofNat 32 first)) = some l := hm
    rw [h1]
    simp only [hs]
    exact (h3.andThen _).of_platform rfl

end Sys2Proof.Machine
end

