-- ==== Sys2Proof/Laws/PerInstr.lean ====
section
/-!
SUPPORT. What every instruction has as syntax (30_encoding.md R89 to R92, R95): format OP2, and one way to be written
as bytes, as a table number and as a line of assembly.
-/

namespace Sys2Proof.Laws.Layout

/-- The instruction is well formed, is two bytes long with 0FH first, and its bytes, its table number and its mnemonic
each read back as it. -/
def Statement (i : Instr) : Prop :=
  i.wf = true ∧ instrLength i = 2 ∧
    ∃ opcode : Byte, encode i = [0x0F, opcode] ∧ decode [0x0F, opcode] = .ok (i, []) ∧
      decodeTableWord 16 (256 * 0x0F + opcode.toNat) = some i ∧ assemble (mnemonic i) = some i

theorem invd : Statement .invd := ⟨rfl, rfl, 0x08, rfl, rfl, rfl, by decide⟩

theorem wbinvd : Statement .wbinvd := ⟨rfl, rfl, 0x09, rfl, rfl, rfl, by decide⟩

theorem wrmsr : Statement .wrmsr := ⟨rfl, rfl, 0x30, rfl, rfl, rfl, by decide⟩

theorem rdmsr : Statement .rdmsr := ⟨rfl, rfl, 0x32, rfl, rfl, rfl, by decide⟩

end Sys2Proof.Laws.Layout
end

