-- ==== Sys2Proof/Laws/Points.lean ====
section
/-!
SUPPORT. Points inside points: the moves of a point have the remaining points inside the writebacks they cause, and the
fuel of `interleaveWith` never runs out.
-/

namespace Sys2Proof.Machine

/-- What follows an operation matters only where it answers. -/
theorem andThen_congr {α β : Type} {r : Result α} {f g : α → Result β} (h : ∀ a, r = .next a → f a = g a) :
    andThen r f = andThen r g := by
  cases r with
  | next a => exact h a rfl
  | fault _ => rfl
  | refused _ => rfl

/-- No list of moves is added. -/
def Shorter (s t : State) : Prop :=
  t.between.length ≤ s.between.length

theorem shorter_same {s t : State} (h : t.between = s.between) : Shorter s t := by
  rw [Shorter, h]

/-- The two continuations agree wherever at most this many lists of moves are left, and add none. -/
structure Agree (n : Nat) (p q : State → Result State) : Prop where
  same : ∀ s, s.between.length ≤ n → p s = q s
  keeps : Keeps Shorter p

variable {n : Nat} {p q : State → Result State}

theorem Agree.writeQuads (h : Agree n p q) (line : BitVec 27) (data : Vector Byte 32) : ∀ (qs : List Nat) (s : State),
    s.between.length ≤ n → writeQuads p line data qs s = writeQuads q line data qs s
  | [], _, _ => rfl
  | [_], _, _ => rfl
  | k :: k' :: rest, s, hs => by
    refine andThen_congr fun u hu => ?_
    have hb : u.between.length ≤ n := by obtain ⟨-, rfl⟩ := busWrite_eq_next.1 hu; exact hs
    show andThen (p u) _ = andThen (q u) _
    rw [← h.same u hb]
    exact andThen_congr fun v hv => Agree.writeQuads h line data (k' :: rest) v (Nat.le_trans (h.keeps _ _ hv) hb)

theorem Agree.writeback (h : Agree n p q) (l : CacheLine DataState) {s : State} (hs : s.between.length ≤ n) :
    writeback p l s = writeback q l s :=
  h.writeQuads _ _ _ _ hs

theorem Agree.masterMove (h : Agree n p q) (m : MasterMove) {s : State} (hs : s.between.length ≤ n) :
    masterMove p m s = masterMove q m s := by
  have hw : ∀ (l : CacheLine DataState) (e : BusEvent), Machine.writeback p l (s.log e) = Machine.writeback q l (s.log e) :=
    fun l e => h.writeback l hs
  cases m with
  | read _ _ => rfl
  | write _ _ => rfl
  | inquireRead line => simp only [Machine.masterMove, inquireRead, hw]
  | inquireWrite line => simp only [Machine.masterMove, inquireWrite, hw]

theorem shorter_closed : Closed Shorter where
  refl _ := Nat.le_refl _
  trans h h' := Nat.le_trans h' h
  draw _ := shorter_same rfl
  log _ _ := shorter_same rfl
  quad _ e := by obtain ⟨-, rfl⟩ := busWrite_eq_next.1 e; exact shorter_same rfl
  drop _ _ _ := shorter_same rfl
  readSnoop _ _ := shorter_same rfl
  writeSnoop _ _ := shorter_same rfl
  masterWrite _ _ _ _ _ := shorter_same rfl
  between s ms rest h := by simp [Shorter, h]

theorem Agree.masterMoves (h : Agree n p q) : ∀ (ms : List MasterMove) (s : State), s.between.length ≤ n →
    masterMoves p ms s = masterMoves q ms s
  | [], _, _ => rfl
  | m :: rest, s, hs => by
    simp only [Machine.masterMoves, ← h.masterMove m hs]
    exact andThen_congr fun t ht => Agree.masterMoves h rest t
      (Nat.le_trans (shorter_closed.masterMove h.keeps m _ _ ht) hs)

/-- More fuel than there are lists of moves changes nothing. -/
theorem interleaveWith_enough : ∀ (fuel : Nat) (s : State), s.between.length ≤ fuel → interleaveWith fuel s = interleave s
  | 0, s, h => by
    have : s.between.length = 0 := by omega
    rw [interleave, this]
  | fuel + 1, s, h => by
    cases hb : s.between with
    | nil => simp only [interleave, interleaveWith, hb, List.length_nil]
    | cons ms rest =>
      have hl : rest.length ≤ fuel := by rw [hb, List.length_cons] at h; omega
      have agree : Agree rest.length (interleaveWith fuel) (interleaveWith rest.length) :=
        ⟨fun t ht => by
          rw [interleaveWith_enough fuel t (by omega), interleaveWith_enough rest.length t ht],
          shorter_closed.interleaveWith fuel⟩
      simp only [interleave, interleaveWith, hb, List.length_cons]
      exact agree.masterMoves ms _ (Nat.le_refl _)
termination_by fuel => fuel

/-- A point with moves to make makes them, and the points inside the writebacks they cause are points like it. -/
theorem interleave_cons {s : State} {ms : List MasterMove} {rest : List (List MasterMove)} (h : s.between = ms :: rest) :
    interleave s = masterMoves interleave ms { s with between := rest } := by
  have agree : Agree rest.length (interleaveWith rest.length) interleave :=
    ⟨fun t ht => interleaveWith_enough _ t ht, shorter_closed.interleaveWith _⟩
  rw [← agree.masterMoves ms _ (Nat.le_refl _)]
  simp only [interleave, h, List.length_cons, interleaveWith]

end Sys2Proof.Machine
end

