-- ==== Sys2Proof/Laws/Translate.lean ====
section
/-!
SUPPORT. What a translation does to the TLBs: its own TLB loads, the others stay.
-/

namespace Sys2Proof.Machine

theorem loadDataTlb_tlbs (s : State) (a : Dword) : (s.loadDataTlb a).tlbs = s.dataTlbsAfter a s.drawValue s.tlbs := by
  cases h : s.pageSize a <;> simp only [State.loadDataTlb, State.dataTlbsAfter, h]

/-- The data TLBs after a translation depend on the page entries only. -/
theorem dataTlbsAfter_congr {s t : State} (h : t.platform = s.platform) (a : Dword) (d : Nat) (x : Tlbs) :
    t.dataTlbsAfter a d x = s.dataTlbsAfter a d x := by
  simp only [State.dataTlbsAfter, State.pageSize, State.pageAttr, State.pageAt, h]

theorem dataTlbsAfterParts_congr {s t : State} (h : t.platform = s.platform) : ∀ (ps : List (Nat × Nat)) (ds : List Nat)
    (x : Tlbs), t.dataTlbsAfterParts ps ds x = s.dataTlbsAfterParts ps ds x
  | [], _, _ => rfl
  | _ :: _, [], _ => rfl
  | p :: ps, d :: ds, x => by
    simp only [State.dataTlbsAfterParts, dataTlbsAfter_congr h, dataTlbsAfterParts_congr h ps ds]

/-- The data TLBs' translations leave the code TLB. -/
theorem dataTlbsAfterParts_code (s : State) : ∀ (ps : List (Nat × Nat)) (ds : List Nat) (x : Tlbs),
    (s.dataTlbsAfterParts ps ds x).code = x.code
  | [], _, _ => rfl
  | _ :: _, [], _ => rfl
  | p :: ps, d :: ds, x => by
    rw [State.dataTlbsAfterParts, dataTlbsAfterParts_code s ps ds]
    unfold State.dataTlbsAfter
    cases s.pageSize (BitVec.ofNat 32 p.1) <;> rfl

/-- The second state has these TLBs and the first's parameters. -/
structure Translated (s t : State) (x : Tlbs) : Prop where
  tlbs : t.tlbs = x
  platform : t.platform = s.platform

theorem SameCore.translated {s t u : State} {x : Tlbs} (h : Translated s t x) (h' : SameCore t u) : Translated s u x :=
  ⟨h'.tlbs.trans h.tlbs, h'.platform.trans h.platform⟩

theorem readPart_translated {first n : Nat} {s : State} {r : List Byte × State} (h : readPart first n s = .next r) :
    Translated s r.2 (s.dataTlbsAfter (BitVec.ofNat 32 first) s.drawValue s.tlbs) := by
  have h0 : Translated s (s.loadDataTlb (BitVec.ofNat 32 first)) _ := ⟨loadDataTlb_tlbs s _, rfl⟩
  unfold readPart at h
  dsimp only [translate] at h
  split at h
  · cases h; exact ⟨h0.tlbs, h0.platform⟩
  · split at h
    · obtain ⟨x, hx, h⟩ := andThen_eq_next.1 h
      cases h
      obtain ⟨u, data, fd⟩ := fillData_spec hx
      have h1 := fd.core.translated (s := s) (t := (s.loadDataTlb (BitVec.ofNat 32 first)).afterDraw) ⟨h0.tlbs, h0.platform⟩
      rw [fd.state]
      exact ⟨h1.tlbs, h1.platform⟩
    · obtain ⟨-, rfl⟩ := busRead_eq_next.1 h
      exact ⟨h0.tlbs, h0.platform⟩

theorem writePart_translated {first : Nat} {bytes : List Byte} {s t : State} (h : writePart first bytes s = .next t) :
    Translated s t (s.dataTlbsAfter (BitVec.ofNat 32 first) s.drawValue s.tlbs) := by
  have h0 : Translated s (s.loadDataTlb (BitVec.ofNat 32 first)) _ := ⟨loadDataTlb_tlbs s _, rfl⟩
  unfold writePart at h
  dsimp only [translate] at h
  split at h
  · obtain ⟨-, rfl⟩ := busWrite_eq_next.1 h; exact ⟨h0.tlbs, h0.platform⟩
  · split at h
    · cases h; exact ⟨h0.tlbs, h0.platform⟩
    · cases h; exact ⟨h0.tlbs, h0.platform⟩
    · obtain ⟨v, hv, h⟩ := andThen_eq_next.1 h
      cases h
      obtain ⟨-, rfl⟩ := busWrite_eq_next.1 hv
      exact ⟨h0.tlbs, h0.platform⟩

theorem fetchByte_translated {a : Dword} {s : State} {r : Byte × State} (h : fetchByte a s = .next r) :
    Translated s r.2 (s.codeTlbsAfter a s.drawValue s.tlbs) := by
  have h0 : Translated s (s.loadCodeTlb a) (s.codeTlbsAfter a s.drawValue s.tlbs) := ⟨rfl, rfl⟩
  unfold fetchByte at h
  dsimp only [translate] at h
  split at h
  · cases h; exact ⟨h0.tlbs, h0.platform⟩
  · split at h
    · obtain ⟨x, hx, h⟩ := andThen_eq_next.1 h
      cases h
      obtain ⟨u, data, fd⟩ := fillCode_spec hx
      have h1 := fd.core.translated (s := s) (t := (s.loadCodeTlb a).afterDraw) ⟨h0.tlbs, h0.platform⟩
      rw [fd.state]
      exact ⟨h1.tlbs, h1.platform⟩
    · obtain ⟨x, hx, h⟩ := andThen_eq_next.1 h
      obtain ⟨-, rfl⟩ := busRead_eq_next.1 hx
      cases h
      exact ⟨h0.tlbs, h0.platform⟩

/-- The draws of the parts after the first come after whatever happens between. -/
theorem readParts_translated : ∀ (ps : List (Nat × Nat)) (s : State) (r : List Byte × State),
    readParts ps s = .next r →
    ∃ draws, draws.length = ps.length ∧ (ps ≠ [] → draws.head? = some s.drawValue) ∧
      Translated s r.2 (s.dataTlbsAfterParts ps draws s.tlbs)
  | [], s, r, h => by cases h; exact ⟨[], rfl, by simp, rfl, rfl⟩
  | [p], s, r, h => ⟨[s.drawValue], rfl, by simp, readPart_translated h⟩
  | p :: p' :: rest, s, r, h => by
    obtain ⟨x, hx, h⟩ := andThen_eq_next.1 h
    obtain ⟨y, hy, h⟩ := andThen_eq_next.1 h
    obtain ⟨z, hz, h⟩ := andThen_eq_next.1 h
    cases h
    have h1 := (sameCore_closed.interleave _ _ hy).translated (readPart_translated hx)
    obtain ⟨ds, hl, -, h2⟩ := readParts_translated (p' :: rest) y z hz
    refine ⟨s.drawValue :: ds, by simp [hl], by simp, ?_, h2.platform.trans h1.platform⟩
    rw [h2.tlbs, h1.tlbs, dataTlbsAfterParts_congr h1.platform]; rfl

theorem writeParts_translated (addr : Nat) (bytes : List Byte) : ∀ (ps : List (Nat × Nat)) (s t : State),
    writeParts addr bytes ps s = .next t →
    ∃ draws, draws.length = ps.length ∧ (ps ≠ [] → draws.head? = some s.drawValue) ∧
      Translated s t (s.dataTlbsAfterParts ps draws s.tlbs)
  | [], s, t, h => by cases h; exact ⟨[], rfl, by simp, rfl, rfl⟩
  | [p], s, t, h => ⟨[s.drawValue], rfl, by simp, writePart_translated h⟩
  | p :: p' :: rest, s, t, h => by
    obtain ⟨x, hx, h⟩ := andThen_eq_next.1 h
    obtain ⟨y, hy, h⟩ := andThen_eq_next.1 h
    have h1 := (sameCore_closed.interleave _ _ hy).translated (writePart_translated hx)
    obtain ⟨ds, hl, -, h2⟩ := writeParts_translated addr bytes (p' :: rest) y t h
    refine ⟨s.drawValue :: ds, by simp [hl], by simp, ?_, h2.platform.trans h1.platform⟩
    rw [h2.tlbs, h1.tlbs, dataTlbsAfterParts_congr h1.platform]; rfl

end Sys2Proof.Machine
end

