-- ==== Sys2Proof/Machine/Flags.lean ====
section
/-!
DEFINITION. Status. The spec gives the machine no flag and no flags register, and the four instructions write
none (10_state.md R20), so there is no flag computation. What it has of this kind is the floating-point Status
Word, which no instruction in scope reads or writes (R32), and parity, which guards the arrays (R40).
-/

namespace Sys2Proof.Machine

/-- The floating-point Status Word (10_state.md R32). -/
def State.statusWord (s : State) : BitVec 16 :=
  s.fpu.statusWord

/-- Whether a number of `w` bits has an odd number of ones in its low `count` bits. -/
def oddOnes {w : Nat} (v : BitVec w) : Nat → Bool
  | 0 => false
  | k + 1 => (v.getLsbD k).xor (oddOnes v k)

/-- The parity bit that guards a byte of data, under `no_hardware_error` a function of the byte; which way the
bit goes is open (10_state.md R40, log 16). -/
def byteParity (b : Byte) : Bool :=
  (oddOnes b 8).xor Config.parityIsOdd

/-- The parity bit that guards a cache tag (10_state.md R40, log 16). -/
def tagParity (t : BitVec 20) : Bool :=
  (oddOnes t 20).xor Config.parityIsOdd

/-- The 32 parity bits of a data-cache line: one for each byte (10_state.md R40). -/
def dataLineParity (l : CacheLine DataState) : List Bool :=
  l.data.toList.map byteParity

/-- The parity bit of a quarter of a code-cache line, eight bytes (10_state.md R40). -/
def quarterParity (l : CacheLine CodeState) (q : Nat) : Bool :=
  (((l.data.toList.drop (8 * q)).take 8).foldl (fun p b => p.xor (oddOnes b 8)) false).xor Config.parityIsOdd

/-- The 4 parity bits of a code-cache line: one for each quarter (10_state.md R40). -/
def codeLineParity (l : CacheLine CodeState) : List Bool :=
  (List.range 4).map (quarterParity l)

/-- The parity bit of the tag part of a TLB entry (10_state.md R40). -/
def tlbTagParity {w : Nat} (e : TlbEntry w) : Bool :=
  (oddOnes e.page w).xor Config.parityIsOdd

/-- The parity bit of the data part of a TLB entry: the physical page and the two cache-control bits
(10_state.md R40, log 6). -/
def tlbDataParity {w : Nat} (e : TlbEntry w) : Bool :=
  (((oddOnes e.frame w).xor e.attr.pwt).xor e.attr.pcd).xor Config.parityIsOdd

end Sys2Proof.Machine
end

