-- ==== Sys2Proof/Tests/Slice0.lean ====
section
/-!
SUPPORT. The model's own tests: the vectors of spec/95_test_vectors.md (their names stand in the comments), the
well-formedness checks on ill-formed terms, and for each statement with hypotheses a state that meets them.
-/

namespace Sys2Proof.Slice0Tests

-- One theorem after another: these evaluations at once would ask for a thread each.
set_option Elab.async false

open Sys2Proof.Machine

/-! ### Helpers -/

/-- What a next state satisfies, or a default where there is none. -/
def onNext {α β : Type} (r : Result α) (f : α → β) : Option β :=
  match r with
  | .next a => some (f a)
  | .fault _ => none
  | .refused _ => none

def faultOf {α : Type} (r : Result α) : Option Fault :=
  match r with
  | .next _ => none
  | .fault x => some x
  | .refused _ => none

def refusalOf {α : Type} (r : Result α) : Option Refusal :=
  match r with
  | .next _ => none
  | .fault _ => none
  | .refused x => some x

theorem next_of_onNext {α β : Type} {r : Result α} {f : α → β} {b : β} (h : onNext r f = some b) :
    ∃ a, r = .next a ∧ f a = b := by
  cases r with
  | next a => exact ⟨a, rfl, Option.some.inj h⟩
  | fault _ => cases h
  | refused _ => cases h

/-- A line's worth of one byte. -/
def fill (b : Byte) : Vector Byte 32 :=
  Vector.replicate 32 b

def dataLine (set : BitVec 7) (way : Way) (tag : BitVec 20) (state : DataState) (b : Byte) : CacheLine DataState :=
  ⟨set, way, tag, state, fill b⟩

def codeLine (set : BitVec 7) (way : Way) (tag : BitVec 20) (data : Vector Byte 32) : CacheLine CodeState :=
  ⟨set, way, tag, .S, data⟩

/-- Right after reset, but for the pc, memory, and END_PC past one instruction. -/
def at' (pc : Dword) (cells : List (Nat × List Byte)) : State :=
  { State.reset with
    pc := pc
    mem := cells.foldl (fun m c => Memory.writeRun m c.1 c.2) []
    platform := { Platform.reset with endPc := some (pc + 2) } }

/-- The caches turned on (R22), with draws that a launch fixes. -/
def turnedOn (script : List Nat) (s : State) : State :=
  { s with cr0 := 0, script := script }

/-- Start C of 95_test_vectors.md section 2.10, in disabled mode, with clean lines that agree with memory. -/
def startC : State :=
  { at' 0x2000 [(0x1000, List.replicate 32 0x55), (0x3020, List.replicate 32 0x66)] with
    dc := ⟨[dataLine 0 .zero 1 .M 0xAA, dataLine 1 .one 3 .M 0xBB, dataLine 5 .zero 7 .E 0, dataLine 9 .one 8 .S 0], 0⟩
    cc := ⟨[codeLine 0 .zero 2 (fill 0)], 0⟩ }

/-- An instruction where the next step fetches it, the state as at reset otherwise but for ECX and the pc. -/
def placed (w : Nat) (ecx : Dword) : State :=
  (State.setReg { State.reset with pc := 0x1000 } .ecx ecx).withFetchWord 16 w

/-! ### Decoding: words written out bit by bit from R89, R90 -/

theorem test_decode_invd : decode [0b00001111, 0b00001000] = .ok (.invd, []) := by decide
theorem test_decode_wbinvd : decode [0b00001111, 0b00001001] = .ok (.wbinvd, []) := by decide
theorem test_decode_wrmsr : decode [0b00001111, 0b00110000] = .ok (.wrmsr, []) := by decide
theorem test_decode_rdmsr : decode [0b00001111, 0b00110010] = .ok (.rdmsr, []) := by decide

/-- The refused rows of section 2.11. -/
theorem test_decode_refuses :
    [[0x0F, 0x31], [0x0F, 0x0A], [0x0F, 0x33], [0x08, 0x0F], [0x90, 0x90], [0x66, 0x0F, 0x08], [0xF3, 0x0F], [0, 0],
      [0x0F], []].all (fun bytes => decide ((decode bytes).toOption = none)) = true := by decide

/-- The opcode table's numbers have the byte at pc in bits 15:8 (R92). -/
theorem test_table_numbers :
    [0x0F08, 0x0F09, 0x0F30, 0x0F32, 0x080F].map (decodeTableWord 16) =
      [some .invd, some .wbinvd, some .wrmsr, some .rdmsr, none] := by decide

theorem test_assemble : assemble "wbinvd" = some .wbinvd ∧ assemble "RdMsr" = some .rdmsr ∧ assemble "HLT" = none := by
  decide

/-! ### Well-formedness refuses ill-formed terms -/

/-- A quadword is no I/O width (R49). -/
theorem test_wf_io : Width.qword.ioWf = false ∧ Width.dword.ioWf = true := by decide

/-- No bytes, and bytes across a quadword, are no bus cycle (R55). -/
theorem test_wf_bus_run : busRunWf 0x1000 0 = false ∧ busRunWf 0x1007 2 = false ∧ busRunWf 0x1001 7 = true := by decide

/-- The last rows of the split table: an operand past 2^32 (R78). -/
theorem test_wf_operand :
    operandWf 0xFFFFFFFF 2 = false ∧ operandWf 0xFFFFFFFD 4 = false ∧ operandWf 0xFFFFFFFE 2 = true := by decide

theorem test_wf_instr : [Instr.invd, .wbinvd, .wrmsr, .rdmsr].all Instr.wf = true := by decide

/-! ### Arithmetic of the spec -/

/-- S2, S3, S6. -/
theorem test_sizes :
    Config.cacheSets * Config.cacheWays * Config.lineBytes = 8192 ∧ Config.dataTlb4kSets * Config.tlbWays = 64 ∧
      Config.dataTlb4mSets * Config.tlbWays = 8 ∧ Config.codeTlbSets * Config.tlbWays = 32 ∧
      Config.memorySize = 4 * 1024 * 1024 * 1024 ∧ Config.ioSize = 64 * 1024 := by decide

/-- S4: parity bits a line. -/
theorem test_parity_counts :
    (dataLineParity (dataLine 0 .zero 1 .M 0xAA)).length = 32 ∧ (codeLineParity (codeLine 0 .zero 1 (fill 0))).length = 4 :=
  by decide

/-- S7. -/
theorem test_pipeline : Config.fpuPipeline.length = 8 ∧ Config.integerPipeline = [.pf, .d1, .d2, .ex, .x1] := by decide

/-- Section 2.1: `Misaligned` by address modulo 8, for 1, 2, 4 and 8 bytes. -/
theorem test_misaligned :
    [Width.byte, .word, .dword, .qword].map (fun w => (List.range 8).filter (fun a => misaligned (0x1000 + a) w)) =
      [[], [3, 7], [1, 2, 3, 5, 6, 7], [1, 2, 3, 4, 5, 6, 7]] := by decide

/-- Section 2.1: `Split`. -/
theorem test_split :
    split 0x1001 .word = [(0x1001, 2)] ∧ split 0x1003 .word = [(0x1004, 1), (0x1003, 1)] ∧
    split 0x101F .word = [(0x1020, 1), (0x101F, 1)] ∧ split 0x1002 .dword = [(0x1004, 2), (0x1002, 2)] ∧
    split 0x1003 .dword = [(0x1004, 3), (0x1003, 1)] ∧ split 0x1004 .qword = [(0x1008, 4), (0x1004, 4)] ∧
    split 0x1001 .qword = [(0x1008, 1), (0x1001, 7)] ∧ split 0xFFFFFFFE .word = [(0xFFFFFFFE, 2)] := by decide

/-- Section 2.2: byte enables. -/
theorem test_byte_enables :
    byteEnables 0x1000 1 = 0x01 ∧ byteEnables 0x1003 1 = 0x08 ∧ byteEnables 0x1004 4 = 0xF0 ∧
    byteEnables 0x1000 8 = 0xFF ∧ byteEnables 0x1001 3 = 0x0E ∧ byteEnables 0x1005 3 = 0xE0 ∧
    byteEnables 0x1001 7 = 0xFE ∧ quadOf 0x1005 = 0x200 ∧ quadOf 0x1008 = 0x201 ∧ quadOf 0xFFFFFFF8 = 0x1FFFFFFF := by
  decide

/-- Section 2.3: set, tag, offset, line address, and the inverse of R99. -/
theorem test_address_fields :
    offsetOf 0x12345678 = 0x18 ∧ lineSet (lineOf 0x12345678) = 0x33 ∧ lineTag (lineOf 0x12345678) = 0x12345 ∧
    lineOf 0x12345678 = 0x091A2B3 ∧ lineOf 0xFFFFFFFF = 0x7FFFFFF ∧ lineSet (lineOf 0x00000FE0) = 127 ∧
    lineAddress 0x12345 0x33 = 0x091A2B3 ∧ lineQuad 0x091A2B3 3 = 0x12345678 ∧
    ioUnit 0xFFFF = 0x3FFF := by decide

/-- Section 2.4: of the eight rows only CD = 0, PCD = 0, KEN# = 0 is cacheable. -/
theorem test_cacheable :
    (do let cd ← [false, true]; let pcd ← [false, true]; let ken ← [false, true]
        let s : State := { State.reset with
          cr0 := if cd then 0x60000000 else 0
          platform := { Platform.reset with defaultAttr := ⟨true, pcd⟩ } }
        return cacheable s 0x1000 ken) = [true, false, false, false, false, false, false, false] := by decide

/-! ### RDMSR and WRMSR (sections 2.8 and 2.9) -/

/-- The state of a vector: ECX, EDX, EAX, the three registers' values and the reserved bits of each. -/
def msrState (ecx edx eax : Dword) (value reserved : Qword) : State :=
  { (((State.reset.setReg .ecx ecx).setReg .edx edx).setReg .eax eax) with
    pc := 0x1000
    mcAddress := value
    mcType := value
    tr12 := value
    platform := { Platform.reset with reservedAddress := reserved, reservedType := reserved, reservedTr12 := reserved }
    script := [0xFFFFFFFFFFFFFFFF] }

/-- RD2, and RD3 with draws of ones: the reserved bits are the draw's and the rest the register's. -/
theorem test_rdmsr_runs :
    onNext (exec .rdmsr (msrState 1 0 0 0xFEDCBA9876543210 0)) (fun t => (t.reg .edx, t.reg .eax, t.pc)) =
      some (0xFEDCBA98, 0x76543210, 0x1002) ∧
    onNext (exec .rdmsr (msrState 0xE 0 0 5 0xFFFFFFFFFFFFFFF0)) (fun t => (t.reg .edx, t.reg .eax, t.tr12)) =
      some (0xFFFFFFFF, 0xFFFFFFF5, 5) := by decide

/-- RD5, RD9, RD10, RD12, RD13. -/
theorem test_rdmsr_stops :
    faultOf (exec .rdmsr (msrState 2 0 0 0 0)) = some (.msrUndefinedNumber 2) ∧
    faultOf (exec .rdmsr (msrState 0x10E 0 0 0 0)) = some (.msrUndefinedNumber 0x10E) ∧
    faultOf (exec .rdmsr (msrState 0x8000000E 0 0 0 0)) = some (.msrUndefinedNumber 0x8000000E) ∧
    refusalOf (exec .rdmsr { msrState 0xE 0 0 0 0 with cpl := 3 }) = some .privilegeNotModelled ∧
    refusalOf (exec .rdmsr { msrState 2 0 0 0 0 with cpl := 3 }) = some .privilegeNotModelled := by decide

/-- WR4 and WR12. -/
theorem test_wrmsr_runs :
    onNext (exec .wrmsr (msrState 0xE 0 5 0xABCD000000000005 0xFFFFFFFFFFFFFFF0)) (fun t => (t.tr12, t.pc)) =
      some (0xABCD000000000005, 0x1002) ∧
    onNext (exec .wrmsr (msrState 0xE 0 0 7 0xFFFFFFFFFFFFFFFF)) (fun t => (t.tr12, t.pc)) = some (7, 0x1002) := by decide

/-- WR2, WR5, WR6, WR7, WR8, WR9, WR11, WR13. -/
theorem test_wrmsr_stops :
    refusalOf (exec .wrmsr (msrState 0xE 0 1 0 0)) = some .tr12EffectNotInSource ∧
    faultOf (exec .wrmsr (msrState 0xE 0 0x11 0 0xFFFFFFFFFFFFFFF0)) = some (.msrReservedBitWritten 0x10) ∧
    faultOf (exec .wrmsr (msrState 0xE 0x80000000 0 0 0xFFFFFFFF00000000)) =
      some (.msrReservedBitWritten 0x8000000000000000) ∧
    refusalOf (exec .wrmsr (msrState 0 0 0 0 0)) = some .wrmsrToMachineCheckRegister ∧
    refusalOf (exec .wrmsr (msrState 1 0 0 0 0)) = some .wrmsrToMachineCheckRegister ∧
    faultOf (exec .wrmsr (msrState 2 0 0 0 0)) = some (.msrUndefinedNumber 2) ∧
    refusalOf (exec .wrmsr { msrState 0xE 0 0 0 0 with cpl := 1 }) = some .privilegeNotModelled ∧
    refusalOf (exec .wrmsr (msrState 0xE 0 0 5 0)) = some .tr12EffectNotInSource := by decide

/-! ### INVD and WBINVD (section 2.10) -/

/-- CI1: the modified data is lost. -/
theorem test_invd_runs :
    onNext (exec .invd startC) (fun t => (Memory.read t.mem 0x1000, t.dc.lines.length, t.cc.lines.length, t.history)) =
      some (0x55, 0, 0, [.special .flush]) ∧
    onNext (exec .invd startC) (fun t => t.pc) = some 0x2002 ∧
    refusalOf (exec .invd { startC with cpl := 2 }) = some .privilegeNotModelled := by decide

/-- CI2, in one of its orders: the first write is of the last quadword of line 181H. -/
theorem test_wbinvd_writes_back :
    onNext (exec .wbinvd { startC with script := [1, 11, 0] })
      (fun t => (Memory.readRun t.mem 0x1FFF 1, Memory.readRun t.mem 0x101F 2, Memory.readRun t.mem 0x303F 2)) =
      some ([0], [0xAA, 0], [0xBB, 0]) := by decide +kernel

/-- CI2: eight quadword writes, then Writeback, then Flush; every line I. CI5, CI7. -/
theorem test_wbinvd_events_and_stops :
    onNext (exec .wbinvd { startC with script := [1, 11, 0] })
      (fun t => (t.history.take 2, t.history.length, t.dc.lines.length, t.cc.lines.length)) =
      some ([.special .flush, .special .writeback], 10, 0, 0) ∧
    refusalOf (exec .wbinvd { startC with cpl := 2 }) = some .privilegeNotModelled ∧
    faultOf (exec .wbinvd { startC with script := [1, 11, 0], platform := { Platform.reset with unpopulated := [⟨0x3020, 1⟩] } }) =
      some (.busCycleNotAnswered 0x3020) := by decide +kernel

/-! ### One step -/

/-- Each instruction of the table runs as the next step; R130's END_PC, pc_wrap (RD15) and not_in_spec tests. -/
theorem test_step_runs_each :
    onNext (step (placed 0x0F08 0)) (fun t => (t.pc, t.history.length)) = some (0x1002, 3) ∧
    onNext (step (placed 0x0F09 0)) (fun t => (t.pc, t.history.length)) = some (0x1002, 4) ∧
    onNext (step (placed 0x0F30 0xE)) (fun t => (t.pc, t.history.length)) = some (0x1002, 2) ∧
    onNext (step (placed 0x0F32 1)) (fun t => (t.pc, t.history.length)) = some (0x1002, 2) := by decide

theorem test_step_refuses :
    refusalOf (step (placed 0x0F31 0)) = some (.notInSpec 0x0F 0x31) ∧
    refusalOf (step { placed 0x0F32 0 with platform := { Platform.reset with endPc := some 0x1000 } }) = some .runOver ∧
    refusalOf (step { placed 0x0F32 0 with pc := 0xFFFFFFFE }) = some .pcWrap ∧
    refusalOf (step { placed 0x0F32 0 with cr0 := 0x40000000 }) = some .cr0ModeNotInSource := by decide

/-- RD16: the last address at which an instruction can complete. -/
theorem test_step_last_address :
    onNext (step ({ State.reset with pc := 0xFFFFFFFC }.withFetchWord 16 0x0F32)) (fun t => t.pc) = some 0xFFFFFFFE := by
  decide

/-- P4, step 1: the fetch fills a line of the code cache, and the same WBINVD invalidates it: four reads, no write,
two special cycles. -/
theorem test_step_fills_then_invalidates :
    onNext (step (turnedOn [0, 0, 0, 0, 0, 0, 0, 0, 0] (placed 0x0F09 0)))
      (fun t => (t.history.length, t.cc.lines.length, t.pc)) = some (6, 0, 0x1002) := by decide +kernel

/-! ### Data accesses (sections 2.5 and 2.6) -/

/-- `Mem[0x1000 + i] = i` for i = 0 .. 31. -/
def counting : State :=
  at' 0x2000 [(0x1000, (List.range 32).map (BitVec.ofNat 8))]

/-- MR7, MR9, MR10: reads in disabled mode, the upper part first. -/
theorem test_read_from_memory :
    onNext (memRead .word 0x1003 counting) (fun r => (r.1, r.2.history.map (fun e => decide (e = counting.readEvent 0x1004 1)))) =
      some (0x0403, [false, true]) ∧
    onNext (memRead .qword 0x1000 counting) (fun r => r.1) = some 0x0706050403020100 ∧
    onNext (memRead .qword 0x1004 counting) (fun r => r.1) = some 0x0B0A090807060504 := by decide +kernel

/-- MR5, MR8, MR11, and an operand past the top. -/
theorem test_read_corners :
    onNext (memRead .byte 0x1000 startC) (fun r => (r.1, r.2.history.length)) = some (0xAA, 0) ∧
    onNext (memRead .word 0x1003 { counting with between := [[.write 0x1003 [0xFF]]] }) (fun r => r.1) = some 0x04FF ∧
    faultOf (memRead .byte 0x1000 { counting with platform := { Platform.reset with unpopulated := [⟨0x1000, 1⟩] } }) =
      some (.busCycleNotAnswered 0x1000) ∧
    refusalOf (memRead .word 0xFFFFFFFF counting) = some .addressWrap := by decide +kernel

/-- MR1 with the writeback policy drawn: the line enters in state E. -/
theorem test_read_fills :
    onNext (memRead .dword 0x1000 (turnedOn [0, 0, 0, 5, 1, 0] counting))
      (fun r => (r.1, dataStateAt r.2.dc 0 .zero, dataStateAt r.2.dc 0 .one, r.2.history.length)) =
      some (0x03020100, .E, .I, 4) := by decide +kernel

/-- MR12: a modified victim reaches memory before the fill. -/
theorem test_read_evicts :
    onNext (memRead .byte 0x1000 (turnedOn [0, 0, 0, 0, 0, 0, 0] { counting with
        dc := ⟨[dataLine 0 .zero 2 .M 0xBB, dataLine 0 .one 3 .E 0], 0⟩ }))
      (fun r => (r.1, Memory.readRun r.2.mem 0x201F 2, dataStateAt r.2.dc 0 .zero, r.2.history.length)) =
      some (0, [0xBB, 0], .S, 8) := by decide +kernel

/-- Memory at 1000H all 55H, the caches on, one line of set 0 of the data cache in this state. -/
def writing (state : DataState) : State :=
  { at' 0x2000 [(0x1000, List.replicate 32 0x55)] with
    cr0 := 0
    script := [0, 1, 0]
    dc := ⟨[dataLine 0 .zero 1 state 0x55], 0⟩ }

/-- MW2, MW3, MW4. -/
theorem test_write_hits :
    onNext (memWrite .byte 0x1000 0x11 (writing .E)) (fun t => (t.view 0x1000, Memory.read t.mem 0x1000,
      dataStateAt t.dc 0 .zero)) = some (0x11, 0x55, .M) ∧
    onNext (memWrite .byte 0x1001 0x22 (writing .M)) (fun t => (t.view 0x1001, Memory.read t.mem 0x1001,
      dataStateAt t.dc 0 .zero)) = some (0x22, 0x55, .M) ∧
    onNext (memWrite .byte 0x1000 0x11 (writing .S)) (fun t => (t.view 0x1000, Memory.read t.mem 0x1000,
      dataStateAt t.dc 0 .zero)) = some (0x11, 0x11, .E) := by decide +kernel

/-- MW8, MW5, MW7, MW10. -/
theorem test_write_misses_and_refusals :
    onNext (memWrite .word 0x1003 0xBEEF counting) (fun t => Memory.readRun t.mem 0x1002 4) = some [2, 0xEF, 0xBE, 5] ∧
    refusalOf (memWrite .byte 0x1000 0x11 { writing .S with cr0 := 0x60000000 }) = some .disabledModeWithValidLines ∧
    refusalOf (memWrite .byte 0x1000 0x11 { counting with cc := ⟨[codeLine 0 .zero 1 (fill 0)], 0⟩ }) =
      some .storeToCode ∧
    refusalOf (memWrite .word 0x1003 0xBEEF { counting with
      platform := { Platform.reset with codeRanges := [⟨0x1004, 1⟩] } }) = some .storeToCode := by decide +kernel

/-- The placed WBINVD with the end of the run given. -/
def ended (e : Option Dword) : State :=
  { placed 0x0F09 0 with platform := { Platform.reset with endPc := e } }

/-- R87: program text refuses a store before it is fetched and after: at pc, at the instructions ahead up to END_PC, and
without an END_PC, or with one the run never meets, at every address above. Below pc and from END_PC on a store goes. -/
theorem test_store_to_program_text :
    refusalOf (memWrite .byte 0x1001 0x11 (ended (some 0x1004))) = some .storeToCode ∧
    refusalOf (memWrite .byte 0x1002 0x11 (ended (some 0x1004))) = some .storeToCode ∧
    refusalOf (andThen (step (ended (some 0x1004))) (memWrite .byte 0x1000 0x11)) = some .storeToCode ∧
    refusalOf (memWrite .byte 0x1002 0x11 (ended none)) = some .storeToCode ∧
    refusalOf (memWrite .byte 0x1005 0x11 (ended (some 0x1003))) = some .storeToCode ∧
    onNext (memWrite .byte 0x1004 0x11 (ended (some 0x1004))) (fun t => Memory.read t.mem 0x1004) = some 0x11 ∧
    onNext (memWrite .byte 0x0FFF 0x11 (ended none)) (fun t => Memory.read t.mem 0x0FFF) = some 0x11 := by
  decide +kernel

/-! ### Inquire cycles, FLUSH# and the other moves (section 2.7) -/

/-- Section 2.7's start, with this state and data of the data-cache line. -/
def snooped (state : DataState) (b : Byte) : State :=
  { at' 0x2000 [(0x1000, List.replicate 32 0x55)] with
    cr0 := 0
    script := [0, 1]
    dc := ⟨[dataLine 0 .zero 1 state b], 0⟩
    cc := ⟨[codeLine 0 .one 1 (fill 0x55)], 0⟩ }

def snoopResult (s : State) (m : MasterMove) : Option (Byte × Mesi × Mesi × Nat) :=
  onNext (masterMove interleave m s)
    (fun t => (Memory.read t.mem 0x101F, dataStateAt t.dc 0 .zero, codeStateAt t.cc 0 .one, t.history.length))

/-- IQ1 (S drawn), IQ2, IQ3, IQ5, IQ6. -/
theorem test_inquire :
    snoopResult (snooped .M 0xAA) (.inquireRead 0x80) = some (0xAA, .S, .S, 5) ∧
    snoopResult (snooped .M 0xAA) (.inquireWrite 0x80) = some (0xAA, .I, .I, 5) ∧
    snoopResult (snooped .M 0xAA) (.inquireWrite 0x81) = some (0x55, .M, .S, 1) ∧
    snoopResult (snooped .S 0x55) (.inquireWrite 0x80) = some (0x55, .I, .I, 1) ∧
    refusalOf (masterMove interleave (.inquireRead 0x81) { snooped .M 0xAA with cr0 := 0x60000000 }) =
      some .disabledModeWithValidLines := by decide +kernel

/-- FL1. -/
theorem test_flush_pin :
    onNext (step { snooped .M 0xAA with schedule := [.assertFlush] })
      (fun t => (Memory.read t.mem 0x1000, dataStateAt t.dc 0 .zero, codeStateAt t.cc 0 .one, t.history.take 1, t.pc)) =
      some (0xAA, .I, .I, [.special .flushAcknowledge], 0x2000) := by decide +kernel

/-- R81, R106: a writeback that an inquire cycle inside WBINVD causes has points of its own. The first quadword of line
80H, the inquire cycle for line 181H, the first quadword of that line, then another master's write, then the other six
quadwords. -/
theorem test_points_inside_an_interior_writeback :
    onNext (exec .wbinvd { startC with
        cr0 := 0, script := [0, 0, 0, 0, 0], between := [[.inquireRead 0x181], [.write 0x5000 [1]]] })
      (fun t => (t.history.reverse.take 10).map BusEvent.isQuadWrite) =
      some [true, false, true, false, true, true, true, true, true, true] := by decide +kernel

/-- R118, R31, R73: the other moves of a schedule. -/
theorem test_other_moves :
    onNext (step { State.reset with schedule := [.setCacheBits false] }) (fun t => (t.cd, t.nw)) = some (false, false) ∧
    onNext (step { State.reset with schedule := [.setPage 0x1234 .kb4 0x10] })
      (fun t => ((t.pageAttr 0x1FFF).pcd, (t.pageAttr 0x2000).pcd)) = some (true, false) ∧
    onNext (step { snooped .M 0xAA with schedule := [.replaceLine .data 0 .zero] })
      (fun t => (Memory.read t.mem 0x1000, dataStateAt t.dc 0 .zero)) = some (0xAA, .I) := by decide +kernel

/-! ### Witnesses: for each statement with hypotheses, states that meet them, one a clause -/

theorem inv_intro {s : State}
    (h : Memory.wf Config.memorySize s.mem ∧ Memory.wf Config.ioSize s.io ∧ s.dc.wf ∧ s.cc.wf ∧ s.tlbs.data4k.wf ∧
      s.tlbs.data4m.wf ∧ s.tlbs.code.wf) : s.Inv :=
  ⟨h.1, h.2.1, h.2.2.1, h.2.2.2.1, h.2.2.2.2.1, h.2.2.2.2.2.1, h.2.2.2.2.2.2⟩

theorem startC_inv : startC.Inv := inv_intro (by decide +kernel)

theorem startC_clean : startC.CleanLinesAgree := by
  unfold State.CleanLinesAgree; decide +kernel

theorem startC_no_write : startC.NoWriteBetween := fun _ h => absurd h List.not_mem_nil

theorem startC_populated : startC.ModifiedLinesPopulated := fun _ _ _ _ _ => rfl

theorem counting_inv : counting.Inv := inv_intro (by decide +kernel)

theorem writing_inv (state : DataState) : (writing state).Inv := by
  cases state <;> exact inv_intro (by decide +kernel)

theorem snooped_inv (state : DataState) : (snooped state 0xAA).Inv := by
  cases state <;> exact inv_intro (by decide +kernel)

/-- A state whose fetch of WBINVD hits the code cache. -/
def cached : State :=
  { at' 0x2000 [] with cc := ⟨[codeLine 0 .zero 2 (((fill 0).set 0 0x0F).set 1 0x09)], 0⟩ }

/-- A byte at a hole is fetched. -/
def fetchHoled : State :=
  { at' 0x2000 [] with platform := { Platform.reset with unpopulated := [⟨0x2001, 1⟩] } }

/-- A fetch that reads an instruction; two byte fetches of one, the first a miss that fills and the second a hit; a
second byte at a hole; a fetch at the top of memory. -/
theorem test_witness_StepRunsTheDecodedInstruction :
    (∃ u, (placed 0x0F09 0).cd = (placed 0x0F09 0).nw ∧ (nextMove (placed 0x0F09 0)).1 = .processor ∧
      fetchInstr (nextMove (placed 0x0F09 0)).2 = .next (.wbinvd, u)) ∧
    (∃ s u v : State, s.cd = false ∧ s.nw = false ∧ (nextMove s).1 = .processor ∧ s.platform.endPc ≠ some s.pc ∧
      s.pc.toNat + 2 < 4294967296 ∧ s.cc.hit (lineOf s.pc) = none ∧ (u.cc.hit (lineOf (s.pc + 1))).isSome = true ∧
      fetchByte s.pc (nextMove s).2 = .next (0x0F, u) ∧ fetchByte (s.pc + 1) u = .next (0x09, v) ∧
      encode .wbinvd = [0x0F, 0x09]) ∧
    (∃ u, fetchHoled.cd = fetchHoled.nw ∧ (nextMove fetchHoled).1 = .processor ∧
      fetchHoled.platform.endPc ≠ some fetchHoled.pc ∧ fetchHoled.pc.toNat + 2 < 4294967296 ∧
      fetchByte fetchHoled.pc (nextMove fetchHoled).2 = .next (0, u) ∧
      fetchByte (fetchHoled.pc + 1) u = .fault (.busCycleNotAnswered 0x2001) ∧
      fetchInstr (nextMove fetchHoled).2 = .fault (.busCycleNotAnswered 0x2001)) ∧
    (∃ s : State, s.cd = s.nw ∧ (nextMove s).1 = .processor ∧ fetchInstr (nextMove s).2 = .refused .pcWrap) := by
  refine ⟨?_, ?_, ⟨_, by decide, by decide, by decide, by decide, rfl, rfl, rfl⟩,
    { State.reset with pc := 0xFFFFFFFE }, by decide, by decide, rfl⟩
  · have h : onNext (fetchInstr (placed 0x0F09 0)) Prod.fst = some .wbinvd := by decide
    obtain ⟨⟨i, u⟩, hr, rfl⟩ := next_of_onNext h
    exact ⟨u, by decide, by decide, hr⟩
  · let s := turnedOn [0, 0, 0, 0, 0, 0] (placed 0x0F09 0)
    have h : onNext (andThen (fetchByte s.pc s) fun r => andThen (fetchByte (s.pc + 1) r.2) fun q => .next ((r.1, r.2), q))
        (fun x => (x.1.1, (x.1.2.cc.hit (lineOf (s.pc + 1))).isSome, x.2.1)) = some (0x0F, true, 0x09) := by
      decide +kernel
    obtain ⟨⟨⟨b0, u⟩, ⟨b1, v⟩⟩, hr, hb⟩ := next_of_onNext h
    obtain ⟨⟨_, u⟩, h0, hr⟩ := andThen_eq_next.1 hr
    obtain ⟨⟨_, v⟩, h1, hr⟩ := andThen_eq_next.1 hr
    cases hr
    simp only [Prod.mk.injEq] at hb
    obtain ⟨rfl, hh, rfl⟩ := hb
    exact ⟨s, u, v, by decide, by decide, by decide, by decide, by decide, by decide, hh, h0, h1, rfl⟩

theorem test_witness_StepFetchesFromMemoryInDisabledMode :
    let s := placed 0x0F09 0
    s.cd = true ∧ s.nw = true ∧ s.schedule = [] ∧ s.platform.endPc ≠ some s.pc ∧ s.pc.toNat + 2 < 4294967296 ∧
      s.cc.hit (lineOf s.pc) = none ∧ s.cc.hit (lineOf (s.pc + 1)) = none ∧ s.runPopulated s.pc.toNat 2 ∧
      decode (Memory.readRun s.mem s.pc.toNat 2) = .ok (.wbinvd, []) :=
  ⟨by decide, by decide, rfl, by decide, by decide, by decide, by decide, by unfold State.runPopulated; decide, by decide⟩

theorem test_witness_StepFetchesFromTheCodeCache :
    ∃ l, cached.cc.hit (lineOf 0x2000) = some l ∧ cached.cd = cached.nw ∧ cached.schedule = [] ∧ cached.platform.endPc ≠ some cached.pc ∧
      cached.pc.toNat + 2 < 4294967296 ∧ cached.cc.hit (lineOf cached.pc) = some l ∧
      cached.cc.hit (lineOf (cached.pc + 1)) = some l ∧
      decode [lineByte l.data (cached.pc.toNat % 32), lineByte l.data ((cached.pc.toNat + 1) % 32)] =
        .ok (.wbinvd, []) :=
  ⟨codeLine 0 .zero 2 (((fill 0).set 0 0x0F).set 1 0x09), by decide, by decide, rfl, by decide, by decide, by decide, by decide,
    by decide⟩

/-- The caches on, memory missing at 1010H and 2FFFH, and two lines in set 0 of each cache, the data cache's first one
modified. -/
def crowded (script : List Nat) : State :=
  { at' 0x2000 [(0x1000, List.replicate 16 0x55)] with
    cr0 := 0
    script := script
    dc := ⟨[dataLine 0 .zero 7 .M 0xAA, dataLine 0 .one 2 .E 0], 0⟩
    cc := ⟨[codeLine 0 .zero 2 (fill 0), codeLine 0 .one 3 (fill 0)], 0⟩
    platform := { Platform.reset with unpopulated := [⟨0x1010, 1⟩, ⟨0x2FFF, 1⟩] } }

theorem crowded_inv (script : List Nat) : (crowded script).Inv := by
  have h : (crowded []).Inv := inv_intro (by decide +kernel)
  exact ⟨h.mem, h.io, h.dc, h.cc, h.data4k, h.data4m, h.code⟩

theorem crowded_populated (script : List Nat) : (crowded script).ModifiedLinesPopulated := by
  have h : (crowded []).ModifiedLinesPopulated := by unfold State.ModifiedLinesPopulated; decide +kernel
  exact h

/-- A fill is not allowed, where memory is missing elsewhere in the line, and where it is missing at the byte; and one
is allowed, both lines of the set valid, and where memory is missing in the line. -/
theorem test_witness_FetchMissReadsMemory :
    ((crowded [0, 1]).Inv ∧ (crowded [0, 1]).between = [] ∧ (crowded [0, 1]).cc.hit (lineOf 0x1000) = none ∧
      cacheable (crowded [0, 1]) 0x1000 ((crowded [0, 1]).loadCodeTlb 0x1000).drawBit = false ∧
      (crowded [0, 1]).populated 0x1000 = true ∧ (crowded [0, 1]).populated 0x1010 = false) ∧
    ((crowded [0, 0]).Inv ∧ (crowded [0, 0]).between = [] ∧ (crowded [0, 0]).cc.hit (lineOf 0x5000) = none ∧
      cacheable (crowded [0, 0]) 0x5000 ((crowded [0, 0]).loadCodeTlb 0x5000).drawBit = true ∧
      (crowded [0, 0]).runPopulated (32 * (0x5000 / 32)) 32) ∧
    ((crowded [0, 1]).cc.hit (lineOf 0x1010) = none ∧
      cacheable (crowded [0, 1]) 0x1010 ((crowded [0, 1]).loadCodeTlb 0x1010).drawBit = false ∧
      (crowded [0, 1]).populated (0x1010 : Dword).toNat = false) ∧
    ((crowded [0, 0]).cc.hit (lineOf 0x1000) = none ∧
      cacheable (crowded [0, 0]) 0x1000 ((crowded [0, 0]).loadCodeTlb 0x1000).drawBit = true ∧
      ¬(crowded [0, 0]).runPopulated (32 * ((0x1000 : Dword).toNat / 32)) 32) :=
  ⟨⟨crowded_inv _, rfl, by decide, by decide, by decide, by decide⟩, ⟨crowded_inv _, rfl, by decide, by decide,
    by unfold State.runPopulated; decide⟩, by decide, by decide, by decide, by unfold State.runPopulated; decide⟩

theorem test_witness_MixedCacheModesAreRefused :
    ({ State.reset with cr0 := 0x40000000 } : State).cd ≠ ({ State.reset with cr0 := 0x40000000 } : State).nw := by decide

theorem test_witness_RunEndsAndPcWraps :
    (∃ s : State, s.cd = s.nw ∧ (nextMove s).1 = .processor ∧ s.platform.endPc = some s.pc) ∧
    (∃ s : State, s.cd = s.nw ∧ (nextMove s).1 = .processor ∧ s.platform.endPc ≠ some s.pc ∧ s.pc = 0xFFFFFFFE) ∧
    (∃ s : State, s.cd = s.nw ∧ (nextMove s).1 = .processor ∧ s.platform.endPc ≠ some s.pc ∧ s.pc = 0xFFFFFFFF) :=
  ⟨⟨{ State.reset with platform := { Platform.reset with endPc := some 0 } }, by decide, rfl, rfl⟩,
    ⟨{ State.reset with pc := 0xFFFFFFFE }, by decide, rfl, by decide, rfl⟩,
    ⟨{ State.reset with pc := 0xFFFFFFFF }, by decide, rfl, by decide, rfl⟩⟩

theorem test_witness_OtherBytesAreRefused :
    ∃ u v, (placed 0x0F31 0).cd = (placed 0x0F31 0).nw ∧ (nextMove (placed 0x0F31 0)).1 = .processor ∧
      (placed 0x0F31 0).platform.endPc ≠ some (placed 0x0F31 0).pc ∧ (placed 0x0F31 0).pc.toNat + 2 < 4294967296 ∧
      fetchByte (placed 0x0F31 0).pc (nextMove (placed 0x0F31 0)).2 = .next (0x0F, u) ∧
      fetchByte ((placed 0x0F31 0).pc + 1) u = .next (0x31, v) ∧ ∀ i : Instr, encode i ≠ [0x0F, 0x31] := by
  have h : onNext (andThen (fetchByte (placed 0x0F31 0).pc (placed 0x0F31 0)) fun r =>
      andThen (fetchByte ((placed 0x0F31 0).pc + 1) r.2) fun q => .next ((r.1, r.2), q)) (fun x => (x.1.1, x.2.1)) =
      some (0x0F, 0x31) := by decide
  obtain ⟨⟨⟨b0, u⟩, ⟨b1, v⟩⟩, hr, hb⟩ := next_of_onNext h
  obtain ⟨⟨_, u⟩, h0, hr⟩ := andThen_eq_next.1 hr
  obtain ⟨⟨_, v⟩, h1, hr⟩ := andThen_eq_next.1 hr
  cases hr; cases hb
  exact ⟨u, v, by decide, by decide, by decide, by decide, h0, h1, fun i => by cases i <;> decide⟩

theorem test_witness_RdmsrRule :
    (∃ s : State, s.cpl ≠ 0) ∧
    (∃ s : State, s.cpl = 0 ∧ s.reg .ecx ≠ 0x00 ∧ s.reg .ecx ≠ 0x01 ∧ s.reg .ecx ≠ 0x0E) ∧
    (∀ number : Dword, ∃ s : State, s.cpl = 0 ∧ s.reg .ecx = number) :=
  ⟨⟨{ State.reset with cpl := 3 }, by decide⟩, ⟨msrState 2 0 0 0 0, by decide⟩,
    fun number => ⟨msrState number 0 0 0 0, rfl, rfl⟩⟩

theorem test_witness_ReservedBitsReadAsAnyValue :
    ∃ s : State, s.cpl = 0 ∧ s.reg .ecx = MsrId.testRegister12.number ∧ s.script = (0xFFFFFFFFFFFFFFFF : Qword).toNat :: [] :=
  ⟨msrState 0x0E 0 0 0 0, rfl, by decide, by decide⟩

theorem test_witness_WrmsrRule :
    (∃ s : State, s.cpl ≠ 0) ∧
    (∃ s : State, s.cpl = 0 ∧ s.reg .ecx ≠ 0x00 ∧ s.reg .ecx ≠ 0x01 ∧ s.reg .ecx ≠ 0x0E) ∧
    (∃ s : State, s.cpl = 0 ∧ s.reg .ecx = 0x00) ∧ (∃ s : State, s.cpl = 0 ∧ s.reg .ecx = 0x01) ∧
    (∃ s : State, s.cpl = 0 ∧ s.reg .ecx = 0x0E ∧ (s.reg .edx ++ s.reg .eax) &&& s.platform.reservedTr12 ≠ 0) ∧
    (∃ s : State, s.cpl = 0 ∧ s.reg .ecx = 0x0E ∧ (s.reg .edx ++ s.reg .eax) &&& s.platform.reservedTr12 = 0 ∧
      (s.reg .edx ++ s.reg .eax) &&& ~~~s.platform.reservedTr12 ≠ s.tr12 &&& ~~~s.platform.reservedTr12) ∧
    (∃ s : State, s.cpl = 0 ∧ s.reg .ecx = 0x0E ∧ (s.reg .edx ++ s.reg .eax) &&& s.platform.reservedTr12 = 0 ∧
      (s.reg .edx ++ s.reg .eax) &&& ~~~s.platform.reservedTr12 = s.tr12 &&& ~~~s.platform.reservedTr12) :=
  ⟨⟨{ State.reset with cpl := 1 }, by decide⟩, ⟨msrState 0xFFFFFFFF 0 0 0 0, by decide⟩,
    ⟨msrState 0 0 0 0 0, by decide⟩, ⟨msrState 1 0 0 0 0, by decide⟩,
    ⟨msrState 0x0E 0 0x11 0 0xFFFFFFFFFFFFFFF0, by decide⟩, ⟨msrState 0x0E 0 1 0 0, by decide⟩,
    ⟨msrState 0x0E 0 5 0xABCD000000000005 0xFFFFFFFFFFFFFFF0, by decide⟩⟩

theorem test_witness_InvdRule : (∃ s : State, s.cpl ≠ 0) ∧ startC.cpl = 0 :=
  ⟨⟨{ State.reset with cpl := 2 }, by decide⟩, rfl⟩

theorem test_witness_InvdLosesModifiedData :
    ∃ t u v, startC.Inv ∧ startC.NoWriteBetween ∧ exec .invd startC = .next t ∧ memRead .byte 0x1000 t = .next (v, u) := by
  have h : onNext (andThen (exec .invd startC) fun t => andThen (memRead .byte 0x1000 t) fun r => .next (t, r))
      (fun _ => ()) = some () := by decide +kernel
  obtain ⟨⟨t, ⟨v, u⟩⟩, hr, -⟩ := next_of_onNext h
  obtain ⟨t', h1, hr⟩ := andThen_eq_next.1 hr
  obtain ⟨q, h2, hr⟩ := andThen_eq_next.1 hr
  cases hr
  exact ⟨t, u, v, startC_inv, startC_no_write, h1, h2⟩

theorem test_witness_WbinvdRule :
    (∃ s : State, s.cpl ≠ 0) ∧
      (startC.cpl = 0 ∧ startC.Inv ∧ startC.between = [] ∧ startC.ModifiedLinesPopulated ∧
        ∃ l ∈ startC.dc.lines, l.state = .M) :=
  ⟨⟨{ State.reset with cpl := 2 }, by decide⟩, rfl, startC_inv, rfl, startC_populated, _, List.mem_cons_self, rfl⟩

/-- Start C with no memory at 303FH. -/
def holed : State :=
  { startC with platform := { Platform.reset with unpopulated := [⟨0x303F, 1⟩] } }

theorem test_witness_WbinvdWaitsAtAHole :
    holed.cpl = 0 ∧ holed.Inv ∧ holed.between = [] ∧ ¬holed.ModifiedLinesPopulated :=
  ⟨rfl, inv_intro (by decide +kernel), rfl, fun h =>
    absurd (h (dataLine 1 .one 3 .M 0xBB) (by decide) rfl 31 (by decide)) (by decide)⟩

/-- Start C where another master snoops line 181H inside the writeback. -/
def busy : State :=
  { startC with cr0 := 0, script := [0, 0, 0, 0, 0, 0], between := [[.inquireRead 0x181, .read 0x1000 4]] }

theorem busy_facts : busy.Inv ∧ busy.CleanLinesAgree ∧ busy.NoWriteBetween :=
  ⟨inv_intro (by decide +kernel), by unfold State.CleanLinesAgree; decide +kernel, by
    unfold State.NoWriteBetween; decide⟩

theorem test_witness_WbinvdLeavesMemoryCurrent :
    ∃ t, busy.Inv ∧ busy.CleanLinesAgree ∧ busy.NoWriteBetween ∧ exec .wbinvd busy = .next t := by
  have h : onNext (exec .wbinvd busy) (fun _ => ()) = some () := by decide +kernel
  obtain ⟨t, hr, -⟩ := next_of_onNext h
  exact ⟨t, busy_facts.1, busy_facts.2.1, busy_facts.2.2, hr⟩

theorem test_witness_WbinvdFrame :
    ∃ t, exec .wbinvd { busy with between := [[.write 0x1000 [1, 2]]] } = .next t := by
  have h : onNext (exec .wbinvd { busy with between := [[.write 0x1000 [1, 2]]] }) (fun _ => ()) = some () := by
    decide +kernel
  obtain ⟨t, hr, -⟩ := next_of_onNext h
  exact ⟨t, hr⟩

theorem test_witness_InvdAndWbinvdAgreeWithNoModifiedLine :
    (writing .E).cpl = 0 ∧ (∀ l ∈ (writing .E).dc.lines, l.state ≠ .M) ∧ (writing .E).dc.lines ≠ [] := by decide

theorem test_witness_FlushPinRule :
    ∃ s : State, s.cd = s.nw ∧ s.schedule = .assertFlush :: [] ∧ s.Inv ∧ s.between = [] ∧ s.ModifiedLinesPopulated ∧
      s.cpl = 3 ∧ ∃ l ∈ s.dc.lines, l.state = .M :=
  ⟨{ startC with schedule := [.assertFlush], cpl := 3 }, by decide, rfl, inv_intro (by decide +kernel), rfl,
    fun _ _ _ _ _ => rfl, rfl, _, List.mem_cons_self, rfl⟩

/-- Start C, its caches on, FLUSH# asserted, and another master that writes inside the step. -/
theorem test_witness_FlushPinFrame :
    ∃ s t : State, s.schedule = .assertFlush :: [] ∧ s.between ≠ [] ∧ step s = .next t := by
  let s : State := { busy with schedule := [.assertFlush], between := [[.write 0x1000 [1, 2]]] }
  have h : onNext (step s) (fun _ => ()) = some () := by decide +kernel
  obtain ⟨t, hr, -⟩ := next_of_onNext h
  exact ⟨s, t, rfl, by decide, hr⟩

theorem test_witness_MisalignedMeansCrossing : physicalUnit 0x1004 .dword = true ∧ physicalUnit 0x1008 .qword = true := by
  decide

theorem test_witness_SplitCoversTheOperand : misaligned 0x1007 .qword = true ∧ misaligned 0x1001 .word = false := by decide

theorem test_witness_ByteEnablesAreOneRun :
    busRunWf (0xFFFFFFFF : Dword).toNat 1 = true ∧ busRunWf (0x1000 : Dword).toNat 8 = true := by decide

theorem test_witness_BusCycleRule :
    startC.runPopulated 0x1000 8 ∧ ¬holed.runPopulated 0x3038 8 :=
  ⟨fun _ _ => rfl, fun h => absurd (h 7 (by decide)) (by decide)⟩

theorem test_witness_HitExactlyWhen : startC.Inv ∧ (startC.dc.hit (lineOf 0x303F)).isSome = true :=
  ⟨startC_inv, by decide⟩

theorem test_witness_VictimOfAFill :
    dataStateAt startC.dc 0 .one = .I ∧ codeStateAt startC.cc 0 .one = .I ∧
      (∃ c : Cache DataState, dataStateAt c 0 .zero ≠ .I ∧ dataStateAt c 0 .one ≠ .I ∧ c.lru.getLsbD 0 = true) ∧
      ∃ c : Cache CodeState, codeStateAt c 0 .zero ≠ .I ∧ codeStateAt c 0 .one ≠ .I ∧ c.lru.getLsbD 0 = true :=
  ⟨by decide, by decide, ⟨⟨[dataLine 0 .zero 2 .M 0xBB, dataLine 0 .one 3 .E 0], 1⟩, by decide⟩,
    ⟨[codeLine 0 .zero 2 (fill 0), codeLine 0 .one 3 (fill 0)], 1⟩, by decide⟩

theorem test_witness_ReadHitsReturnTheLine :
    startC.cd = startC.nw ∧ (0x303C : Dword).toNat + Width.dword.bytes ≤ 4294967296 ∧
      misaligned (0x303C : Dword).toNat .dword = false ∧
      startC.dc.hit (lineOf 0x303C) = some (dataLine 1 .one 3 .M 0xBB) := by decide

/-- In disabled mode, memory missing at 1004H. -/
def countingHoled : State :=
  { counting with platform := { counting.platform with unpopulated := [⟨0x1004, 1⟩] } }

theorem test_witness_ReadMissesInDisabledModeReadMemory :
    (counting.cd = true ∧ counting.nw = true ∧ counting.between = [] ∧
      (0xFFFFFFFD : Dword).toNat + Width.word.bytes ≤ 4294967296 ∧
      counting.runPopulated (0xFFFFFFFD : Dword).toNat Width.word.bytes ∧
      ∀ i, i < Width.word.bytes → counting.dc.hit (lineOf (BitVec.ofNat 32 ((0xFFFFFFFD : Dword).toNat + i))) = none) ∧
    (countingHoled.cd = true ∧ countingHoled.nw = true ∧ countingHoled.between = [] ∧
      ¬countingHoled.runPopulated (0x1003 : Dword).toNat Width.word.bytes ∧
      ∀ i, i < Width.word.bytes → countingHoled.dc.hit (lineOf (BitVec.ofNat 32 ((0x1003 : Dword).toNat + i))) = none) :=
  ⟨⟨by decide, by decide, rfl, by decide, fun _ _ => rfl, fun _ _ => rfl⟩, by decide, by decide, rfl,
    fun h => absurd (h 1 (by decide)) (by decide), fun _ _ => rfl⟩

/-- The caches on, both lines of set 0 valid, the modified one the victim, a byte of it at a hole. -/
def victimHoled : State :=
  { crowded [0, 0] with platform := { Platform.reset with unpopulated := [⟨0x7005, 1⟩] } }

/-- The mixed mode; the top of memory; a hole at the operand with no fill, in the line with one, and in the victim; KEN#
drawn as 1 (the second draw), with memory missing elsewhere in the line; drawn as 0, the victim modified and
memory missing elsewhere; and a read across two lines, the lower one hit in state M, E or S, the upper one missed. -/
theorem test_witness_ReadMissRule :
    ((∃ s : State, s.cd ≠ s.nw) ∧ startC.cd = startC.nw ∧ 4294967296 < (0xFFFFFFFD : Dword).toNat + Width.dword.bytes) ∧
    (misaligned (0x1010 : Dword).toNat .qword = false ∧ (crowded [0, 1]).dc.hit (lineOf 0x1010) = none ∧
      cacheable (crowded [0, 1]) 0x1010 ((crowded [0, 1]).loadDataTlb 0x1010).drawBit = false ∧
      ¬(crowded [0, 1]).runPopulated (0x1010 : Dword).toNat Width.qword.bytes) ∧
    ((crowded [0, 0]).dc.hit (lineOf 0x1000) = none ∧
      cacheable (crowded [0, 0]) 0x1000 ((crowded [0, 0]).loadDataTlb 0x1000).drawBit = true ∧
      ¬(crowded [0, 0]).runPopulated (32 * ((0x1000 : Dword).toNat / 32)) 32) ∧
    (victimHoled.Inv ∧ victimHoled.cd = victimHoled.nw ∧ victimHoled.between = [] ∧
      victimHoled.dc.hit (lineOf 0x5000) = none ∧
      cacheable victimHoled 0x5000 (victimHoled.loadDataTlb 0x5000).drawBit = true ∧
      ∀ draw, ∃ x, victimHoled.dc.lineAt (lineSet (lineOf 0x5000))
          (victimHoled.dc.victim (lineSet (lineOf 0x5000)) draw) = some x ∧ x.state = .M ∧
        ¬victimHoled.runPopulated (32 * x.address.toNat) 32) ∧
    ((crowded [0, 1]).Inv ∧ (crowded [0, 1]).cd = (crowded [0, 1]).nw ∧ (crowded [0, 1]).between = [] ∧
      (0x1000 : Dword).toNat + Width.qword.bytes ≤ 4294967296 ∧ misaligned (0x1000 : Dword).toNat .qword = false ∧
      (crowded [0, 1]).dc.hit (lineOf 0x1000) = none ∧
      cacheable (crowded [0, 1]) 0x1000 ((crowded [0, 1]).loadDataTlb 0x1000).drawBit = false ∧
      (crowded [0, 1]).runPopulated (0x1000 : Dword).toNat Width.qword.bytes) ∧
    ((crowded [0, 0]).Inv ∧ (crowded [0, 0]).cd = (crowded [0, 0]).nw ∧ (crowded [0, 0]).between = [] ∧
      (0x5000 : Dword).toNat + Width.qword.bytes ≤ 4294967296 ∧ misaligned (0x5000 : Dword).toNat .qword = false ∧
      (crowded [0, 0]).dc.hit (lineOf 0x5000) = none ∧
      cacheable (crowded [0, 0]) 0x5000 ((crowded [0, 0]).loadDataTlb 0x5000).drawBit = true ∧
      (crowded [0, 0]).runPopulated (32 * ((0x5000 : Dword).toNat / 32)) 32 ∧ (crowded [0, 0]).ModifiedLinesPopulated) ∧
    ∀ state, ∃ s : State, s = writing state ∧ s.Inv ∧ s.cd = s.nw ∧ s.between = [] ∧
      (0x101E : Dword).toNat + Width.dword.bytes ≤ 4294967296 ∧ misaligned (0x101E : Dword).toNat .dword = true ∧
      s.CleanLinesAgree ∧ s.ModifiedLinesPopulated ∧ (s.dc.hit (lineOf 0x101E)).isSome = true ∧
      s.dc.hit (lineOf 0x1020) = none ∧
      ∀ i, i < Width.dword.bytes → s.dc.hit (lineOf (BitVec.ofNat 32 ((0x101E : Dword).toNat + i))) = none →
        s.populated ((0x101E : Dword).toNat + i) = true ∧
        (cacheable s (BitVec.ofNat 32 ((0x101E : Dword).toNat + i)) false = true →
          s.runPopulated (32 * (((0x101E : Dword).toNat + i) / 32)) 32) :=
  ⟨⟨⟨{ State.reset with cr0 := 0x40000000 }, by decide⟩, by decide⟩,
    ⟨by decide, by decide, by decide, by unfold State.runPopulated; decide⟩,
    ⟨by decide, by decide, by unfold State.runPopulated; decide⟩,
    ⟨have h := crowded_inv [0, 0]; ⟨h.mem, h.io, h.dc, h.cc, h.data4k, h.data4m, h.code⟩, by decide, rfl, by decide,
      by decide, fun draw => ⟨dataLine 0 .zero 7 .M 0xAA, by cases draw <;> decide, rfl,
        by unfold State.runPopulated; decide⟩⟩,
    ⟨crowded_inv _, by decide, rfl, by decide, by decide, by decide, by decide, by unfold State.runPopulated; decide⟩,
    ⟨crowded_inv _, by decide, rfl, by decide, by decide, by decide, by decide, by unfold State.runPopulated; decide,
      crowded_populated _⟩,
    fun state => ⟨_, rfl, writing_inv state, by cases state <;> decide, rfl, by decide, by decide,
      by unfold State.CleanLinesAgree; cases state <;> decide +kernel, fun _ _ _ _ _ => rfl, by cases state <;> decide,
      by cases state <;> decide, fun _ _ _ => ⟨rfl, fun _ _ _ => rfl⟩⟩⟩

theorem test_witness_DataReadsReturnTheOneCopy :
    ∃ t v, busy.Inv ∧ busy.CleanLinesAgree ∧ busy.NoWriteBetween ∧ memRead .dword 0x101E busy = .next (v, t) := by
  have h : onNext (memRead .dword 0x101E busy) (fun _ => ()) = some () := by decide +kernel
  obtain ⟨⟨v, t⟩, hr, -⟩ := next_of_onNext h
  exact ⟨t, v, busy_facts.1, busy_facts.2.1, busy_facts.2.2, hr⟩

theorem test_witness_DataWritesUpdateTheOneCopy :
    ∃ t, busy.Inv ∧ busy.CleanLinesAgree ∧ busy.NoWriteBetween ∧ memWrite .dword 0x101E 0x04030201 busy = .next t := by
  have h : onNext (memWrite .dword 0x101E 0x04030201 busy) (fun _ => ()) = some () := by decide +kernel
  obtain ⟨t, hr, -⟩ := next_of_onNext h
  exact ⟨t, busy_facts.1, busy_facts.2.1, busy_facts.2.2, hr⟩

/-- In disabled mode, line 80H in both caches and line 81H in the data cache. -/
def bothHit : State :=
  { at' 0x2000 [] with
    dc := ⟨[dataLine 0 .zero 1 .M 0xAA, dataLine 1 .zero 1 .M 0xBB], 0⟩
    cc := ⟨[codeLine 0 .zero 1 (fill 0)], 0⟩ }

/-- The clauses: the mixed mode, the top of memory, a store over a code-cache line in normal mode, a hit in disabled
mode; then in disabled mode a part that hits both caches, and a lower part refused after an upper one that is not. -/
theorem test_witness_DataWriteRefusals :
    (∃ s : State, s.cd ≠ s.nw) ∧
    (startC.cd = startC.nw ∧ 4294967296 < (0xFFFFFFFD : Dword).toNat + Width.dword.bytes) ∧
    (busy.cd = false ∧ busy.nw = false ∧ ∃ i, i < Width.dword.bytes ∧
      (busy.cc.hit (lineOf (BitVec.ofNat 32 ((0x1FFE : Dword).toNat + i)))).isSome = true) ∧
    (startC.cd = true ∧ startC.nw = true ∧
      (¬∃ i, i < Width.dword.bytes ∧ (startC.codeRange ((0x101C : Dword).toNat + i) = true ∨
        (startC.cc.hit (lineOf (BitVec.ofNat 32 ((0x101C : Dword).toNat + i)))).isSome = true)) ∧
      ∃ i, i < Width.dword.bytes ∧
        (startC.dc.hit (lineOf (BitVec.ofNat 32 ((0x101C : Dword).toNat + i)))).isSome = true) ∧
    (bothHit.cd = true ∧ bothHit.nw = true ∧ (0x101C : Dword).toNat + Width.dword.bytes ≤ 4294967296 ∧
      split (0x101C : Dword).toNat .dword = [] ++ (0x101C, 4) :: [] ∧
      ((bothHit.cc.hit (lineOf (BitVec.ofNat 32 (0x101C + 0)))).isSome = true ∧
        (bothHit.dc.hit (lineOf (BitVec.ofNat 32 (0x101C + 0)))).isSome = true)) ∧
    ((0x103E : Dword).toNat + Width.dword.bytes ≤ 4294967296 ∧
      split (0x103E : Dword).toNat .dword = [(0x1040, 2)] ++ (0x103E, 2) :: [] ∧
      (¬∃ i, i < 2 ∧ (bothHit.codeRange (0x1040 + i) = true ∨
        (bothHit.cc.hit (lineOf (BitVec.ofNat 32 (0x1040 + i)))).isSome = true)) ∧
      (¬∃ i, i < 2 ∧ (bothHit.dc.hit (lineOf (BitVec.ofNat 32 (0x1040 + i)))).isSome = true) ∧
      (¬∃ i, i < 2 ∧ (bothHit.codeRange (0x103E + i) = true ∨
        (bothHit.cc.hit (lineOf (BitVec.ofNat 32 (0x103E + i)))).isSome = true)) ∧
      (bothHit.dc.hit (lineOf (BitVec.ofNat 32 (0x103E + 0)))).isSome = true) := by
  refine ⟨⟨{ State.reset with cr0 := 0x20000000 }, by decide⟩, by decide, ⟨by decide, by decide, 2, by decide, by decide⟩,
    ⟨by decide, by decide, ?_, 0, by decide, by decide⟩, by decide, by decide, by decide, by decide, by decide,
    by decide, by decide⟩
  rintro ⟨i, hi, h⟩
  revert h
  revert i
  decide

/-- The same with memory missing at 101DH and 301FH. -/
def writingHoled (state : DataState) : State :=
  { writing state with
    platform := { (writing state).platform with unpopulated := [⟨0x101D, 1⟩, ⟨0x301F, 1⟩] } }

/-- A hit in M, E and S, and a miss, of a write to the last dword of line 80H; for the miss, line 180H; and a hit in S
and a miss at a hole. -/
theorem test_witness_DataWriteTransitions :
    (∀ state, (writing state).Inv ∧ (writing state).cd = false ∧ (writing state).nw = false ∧
      (0x101C : Dword).toNat + Width.dword.bytes ≤ 4294967296 ∧ misaligned (0x101C : Dword).toNat .dword = false ∧
      (writing state).cc.hit (lineOf 0x101C) = none ∧
      (∀ i, i < Width.dword.bytes → (writing state).codeRange ((0x101C : Dword).toNat + i) = false) ∧
      (writing state).dc.hit (lineOf 0x101C) = some (dataLine 0 .zero 1 state 0x55) ∧
      (writing state).runPopulated (0x101C : Dword).toNat Width.dword.bytes) ∧
    ((0x301C : Dword).toNat + Width.dword.bytes ≤ 4294967296 ∧ misaligned (0x301C : Dword).toNat .dword = false ∧
      (writing .M).cc.hit (lineOf 0x301C) = none ∧
      (∀ i, i < Width.dword.bytes → (writing .M).codeRange ((0x301C : Dword).toNat + i) = false) ∧
      (writing .M).dc.hit (lineOf 0x301C) = none ∧
      (writing .M).runPopulated (0x301C : Dword).toNat Width.dword.bytes) ∧
    (∀ a ∈ [(0x101C : Dword), 0x301C], (writingHoled .S).Inv ∧ (writingHoled .S).cd = false ∧
      (writingHoled .S).nw = false ∧ misaligned a.toNat .dword = false ∧
      (∀ i, i < Width.dword.bytes → (writingHoled .S).codeRange (a.toNat + i) = false) ∧
      (a = 0x101C → (writingHoled .S).dc.hit (lineOf a) = some (dataLine 0 .zero 1 .S 0x55)) ∧
      (a = 0x301C → (writingHoled .S).dc.hit (lineOf a) = none) ∧
      ¬(writingHoled .S).runPopulated a.toNat Width.dword.bytes) :=
  ⟨fun state => ⟨writing_inv state, by cases state <;> decide, by cases state <;> decide, by decide, by decide, rfl, by cases state <;> decide, by cases state <;> decide,
    fun _ _ => rfl⟩, ⟨by decide, by decide, rfl, by decide, by decide, fun _ _ => rfl⟩,
    fun a ha => by
      have hi : (writingHoled .S).Inv :=
        have h := writing_inv .S; ⟨h.mem, h.io, h.dc, h.cc, h.data4k, h.data4m, h.code⟩
      rcases List.mem_cons.1 ha with rfl | ha
      · exact ⟨hi, by decide, by decide, by decide, by decide, by decide, by decide,
          by unfold State.runPopulated; decide⟩
      · obtain rfl := List.mem_singleton.1 ha
        exact ⟨hi, by decide, by decide, by decide, by decide, by decide, by decide,
          by unfold State.runPopulated; decide⟩⟩

/-- MW8: a misaligned word; and one at a hole. -/
theorem test_witness_WritesInDisabledModeGoToMemory :
    (∃ s : State, s = countingHoled ∧ s.cd = true ∧ s.nw = true ∧ s.between = [] ∧
      ¬s.runPopulated (0x1003 : Dword).toNat Width.word.bytes ∧
      ∀ i, i < Width.word.bytes → s.codeRange ((0x1003 : Dword).toNat + i) = false ∧
        s.cc.hit (lineOf (BitVec.ofNat 32 ((0x1003 : Dword).toNat + i))) = none ∧
        s.dc.hit (lineOf (BitVec.ofNat 32 ((0x1003 : Dword).toNat + i))) = none) ∧
    counting.cd = true ∧ counting.nw = true ∧ counting.between = [] ∧ misaligned (0x1003 : Dword).toNat .word = true ∧
      (0x1003 : Dword).toNat + Width.word.bytes ≤ 4294967296 ∧
      counting.runPopulated (0x1003 : Dword).toNat Width.word.bytes ∧
      ∀ i, i < Width.word.bytes → counting.codeRange ((0x1003 : Dword).toNat + i) = false ∧
        counting.cc.hit (lineOf (BitVec.ofNat 32 ((0x1003 : Dword).toNat + i))) = none ∧
        counting.dc.hit (lineOf (BitVec.ofNat 32 ((0x1003 : Dword).toNat + i))) = none :=
  ⟨⟨_, rfl, by decide, by decide, rfl, fun h => absurd (h 1 (by decide)) (by decide), by decide⟩, by decide, by decide, rfl, by decide, by decide, fun _ _ => rfl, by decide⟩

/-- A write across two lines, the lower one hit in state M, E or S, the upper one missed; and MW8. -/
theorem test_witness_DataWritesComplete :
    (∀ state, ∃ s : State, s = writing state ∧ s.Inv ∧ s.CleanLinesAgree ∧ s.cd = s.nw ∧ s.between = [] ∧
      (0x101E : Dword).toNat + Width.dword.bytes ≤ 4294967296 ∧ s.runPopulated (0x101E : Dword).toNat Width.dword.bytes ∧
      ∀ i, i < Width.dword.bytes → s.codeRange ((0x101E : Dword).toNat + i) = false ∧
        s.cc.hit (lineOf (BitVec.ofNat 32 ((0x101E : Dword).toNat + i))) = none ∧
        (s.cd = true → s.dc.hit (lineOf (BitVec.ofNat 32 ((0x101E : Dword).toNat + i))) = none)) ∧
    (counting.Inv ∧ counting.CleanLinesAgree ∧ counting.cd = true ∧ counting.nw = true) :=
  ⟨fun state => ⟨_, rfl, writing_inv state, by unfold State.CleanLinesAgree; cases state <;> decide +kernel,
    by cases state <;> decide, rfl, by decide, fun _ _ => rfl, by cases state <;> decide⟩,
    counting_inv, fun _ h => absurd h List.not_mem_nil, by decide, by decide⟩

theorem test_witness_CodeCacheIsWriteProtected :
    ∃ t, memWrite .dword 0x3FFE 0x04030201 busy = .next t ∧ busy.cc.lines ≠ [] := by
  have h : onNext (memWrite .dword 0x3FFE 0x04030201 busy) (fun _ => ()) = some () := by decide +kernel
  obtain ⟨t, hr, -⟩ := next_of_onNext h
  exact ⟨t, hr, by decide⟩

theorem test_witness_IoAccessesAreNotCached :
    startC.between = [] ∧ Width.word ≠ .qword ∧ (0xFFFE : BitVec 16).toNat + Width.word.bytes ≤ 65536 ∧
      65536 < (0xFFFF : BitVec 16).toNat + Width.word.bytes := by decide

/-- Refused; a miss; a hit in M, E and S; and a step whose next move it is. -/
theorem test_witness_InquireForAReadRule :
    (startC.Inv ∧ startC.between = [] ∧ startC.cd = true ∧ startC.anyLineValid) ∧
    (∀ state, (snooped state 0xAA).Inv ∧ (snooped state 0xAA).between = [] ∧
      ¬((snooped state 0xAA).cd = true ∧ (snooped state 0xAA).anyLineValid) ∧
      (snooped state 0xAA).dc.hit 0x81 = none ∧
      (snooped state 0xAA).dc.hit 0x80 = some (dataLine 0 .zero 1 state 0xAA) ∧
      (snooped state 0xAA).runPopulated (32 * (0x80 : BitVec 27).toNat) 32) ∧
    ∃ s : State, s.Inv ∧ s.between = [] ∧ s.cd = s.nw ∧ s.schedule = [.master (.inquireRead 0x80)] :=
  ⟨⟨startC_inv, rfl, by decide, .inl (by decide)⟩, fun state => ⟨snooped_inv state, rfl,
    fun h => absurd h.1 (by cases state <;> decide), by cases state <;> decide, by cases state <;> decide,
    fun _ _ => rfl⟩, { startC with schedule := [.master (.inquireRead 0x80)] }, inv_intro (by decide +kernel), rfl,
    by decide, rfl⟩

/-- The same states meet the hypotheses of the rule for a write, and there the line is in the code cache too; and a step
whose next move it is. -/
theorem test_witness_InquireForAWriteRule :
    (startC.Inv ∧ startC.between = [] ∧ startC.cd = true ∧ startC.anyLineValid) ∧
    (∀ state, (snooped state 0xAA).Inv ∧ (snooped state 0xAA).between = [] ∧
      ¬((snooped state 0xAA).cd = true ∧ (snooped state 0xAA).anyLineValid) ∧
      (snooped state 0xAA).dc.hit 0x81 = none ∧
      (snooped state 0xAA).dc.hit 0x80 = some (dataLine 0 .zero 1 state 0xAA) ∧
      (snooped state 0xAA).runPopulated (32 * (0x80 : BitVec 27).toNat) 32) ∧
    ∃ s : State, s.Inv ∧ s.between = [] ∧ s.cd = s.nw ∧ s.schedule = [.master (.inquireWrite 0x80)] :=
  ⟨test_witness_InquireForAReadRule.1, test_witness_InquireForAReadRule.2.1,
    { startC with schedule := [.master (.inquireWrite 0x80)] }, inv_intro (by decide +kernel), rfl, by decide, rfl⟩

theorem test_witness_InquireInDisabledEmptyModeChangesNothing :
    State.reset.cd = true ∧ State.reset.dc.lines = [] ∧ State.reset.cc.lines = [] := by decide

theorem test_witness_MasterAccessesTouchMemoryOnly :
    (∃ t, masterMove interleave (.read 0x1000 8) startC = .next t) ∧
    (∃ t, masterMove interleave (.write 0x1007 [1]) startC = .next t) ∧
    startC.runPopulated (0x1007 : Dword).toNat 1 ∧
    (∃ t, masterMove interleave (.write 0x3038 [1, 2, 3, 4, 5, 6, 7, 8]) holed = .next t) ∧
    ¬holed.runPopulated (0x3038 : Dword).toNat 8 ∧
    ∃ s : State, s.cd = s.nw ∧ s.schedule = [.master (.write 0x1007 [1])] :=
  ⟨⟨_, rfl⟩, ⟨_, rfl⟩, fun _ _ => rfl, ⟨_, rfl⟩, fun h => absurd (h 7 (by decide)) (by decide),
    { startC with schedule := [.master (.write 0x1007 [1])] }, by decide, rfl⟩

theorem test_witness_PointsInsideAnInteriorWriteback :
    startC.between = [] ∧ busy.between = [.inquireRead 0x181, .read 0x1000 4] :: [] := ⟨rfl, rfl⟩

/-- A modified line, a clean one, and a place with none; and a step for each cache whose next move it is. -/
theorem test_witness_ReplacementRule :
    startC.Inv ∧ startC.between = [] ∧ startC.ModifiedLinesPopulated ∧
      startC.dc.lineAt 1 .one = some (dataLine 1 .one 3 .M 0xBB) ∧
      startC.dc.lineAt 5 .zero = some (dataLine 5 .zero 7 .E 0) ∧ startC.dc.lineAt 5 .one = none ∧
      ∀ cache, ∃ s : State, s.Inv ∧ s.between = [] ∧ s.ModifiedLinesPopulated ∧ s.cd = s.nw ∧
        s.schedule = [.replaceLine cache 1 .one] :=
  ⟨startC_inv, rfl, startC_populated, by decide, by decide, by decide, fun cache =>
    ⟨{ startC with schedule := [.replaceLine cache 1 .one] },
      by cases cache <;> exact inv_intro (by decide +kernel), rfl, startC_populated,
      by cases cache <;> decide, rfl⟩⟩

theorem test_witness_PageEntryWriteSetsTheAttributes :
    (0x1FFF : Dword).toNat / 4096 = (0x1234 : Dword).toNat / 4096 ∧
    (0x2000 : Dword).toNat / 4096 ≠ (0x1234 : Dword).toNat / 4096 ∧
    (0x003FFFFF : Dword).toNat / 4194304 = (0x1234 : Dword).toNat / 4194304 ∧
    (0x00400000 : Dword).toNat / 4194304 ≠ (0x1234 : Dword).toNat / 4194304 ∧
    ∃ s : State, s.cd = s.nw ∧ s.schedule = [.setPage 0x1234 .mb4 8] :=
  ⟨by decide, by decide, by decide, by decide, { startC with schedule := [.setPage 0x1234 .mb4 8] }, by decide, rfl⟩

theorem test_witness_MachineCheckRecordsTheCycle : ∃ k, Config.cycleTypeCode .ioRead = Config.cycleTypeCode k := ⟨_, rfl⟩

theorem cached_steps : ∃ t, step cached = .next t := by
  have h : onNext (step cached) (fun _ => ()) = some () := by decide +kernel
  obtain ⟨t, hr, -⟩ := next_of_onNext h
  exact ⟨t, hr⟩

/-- A processor's step, one of another kind, and a step after which what was fetched before still is. -/
theorem test_witness_FetchedBytesAreProgramText :
    cached.platform.endPc ≠ some cached.pc ∧ cached.pc.toNat + 2 < 4294967296 ∧ (∃ t, (nextMove cached).1 = .processor ∧ step cached = .next t) ∧
    ∃ s t : State, (nextMove s).1 ≠ .processor ∧ s.fetched.contains 0x2000 = true ∧ step s = .next t :=
  ⟨by decide, by decide, cached_steps.imp fun _ h => ⟨rfl, h⟩,
    { cached.markFetched 0x2000 with schedule := [.setPage 0 .kb4 8] }, _, by decide, by decide, rfl⟩

theorem test_witness_StepKeepsTheInvariant : ∃ t, cached.Inv ∧ step cached = .next t :=
  cached_steps.imp fun _ h => ⟨inv_intro (by decide +kernel), h⟩

/-- Start C, about to run WBINVD from a line of the code cache. -/
def flushing : State :=
  { startC with cc := cached.cc, script := [0, 0, 0, 0, 0, 0, 0, 0] }

theorem flushing_facts : ∃ t, flushing.Inv ∧ flushing.CleanLinesAgree ∧ flushing.NoWriteBetween ∧
    (nextMove flushing).1.isMasterWrite = false ∧ step flushing = .next t := by
  have h : onNext (step flushing) (fun _ => ()) = some () := by decide +kernel
  obtain ⟨t, hr, -⟩ := next_of_onNext h
  exact ⟨t, inv_intro (by decide +kernel), startC_clean, startC_no_write, rfl, hr⟩

theorem test_witness_StepKeepsCleanLinesAgreeing :
    ∃ t, flushing.Inv ∧ flushing.CleanLinesAgree ∧ flushing.NoWriteBetween ∧
      (nextMove flushing).1.isMasterWrite = false ∧ step flushing = .next t :=
  flushing_facts

theorem test_witness_OneCopyOfMemory :
    ∃ t, flushing.Inv ∧ flushing.CleanLinesAgree ∧ flushing.NoWriteBetween ∧
      (nextMove flushing).1.isMasterWrite = false ∧
      ((nextMove flushing).1 = .processor → ∀ u, fetchInstr (nextMove flushing).2 ≠ .next (.invd, u)) ∧
      step flushing = .next t := by
  obtain ⟨t, h1, h2, h3, h4, h5⟩ := flushing_facts
  refine ⟨t, h1, h2, h3, h4, fun _ u hu => ?_, h5⟩
  have h : onNext (fetchInstr flushing) Prod.fst = some .wbinvd := by decide +kernel
  have hu' : fetchInstr flushing = .next (.invd, u) := hu
  rw [hu'] at h
  exact absurd h (by simp [onNext])

/-- A processor's step and a step of each kind that is not. -/
theorem test_witness_WhatStepsNeverChange :
    (∃ t, (nextMove cached).1 = .processor ∧ step cached = .next t) ∧
    (∃ (s t : State), (nextMove s).1 ≠ .processor ∧ step s = .next t) :=
  ⟨cached_steps.imp fun _ h => ⟨rfl, h⟩,
    { State.reset with schedule := [.setPage 0 .kb4 8] }, _, by decide, rfl⟩

theorem test_witness_OnlyOneMoveChangesCr0 :
    (∃ t, (∀ value, (nextMove cached).1 ≠ .setCacheBits value) ∧ step cached = .next t) ∧
    (∀ value, ∃ (s t : State), (nextMove s).1 = .setCacheBits value ∧ step s = .next t) ∧
    (∀ value, ∃ s : State, s.cd = s.nw ∧ s.schedule = .setCacheBits value :: []) :=
  ⟨cached_steps.imp fun _ h => ⟨fun value => by cases value <;> decide, h⟩,
    fun value => ⟨{ State.reset with schedule := [.setCacheBits value] },
      State.setCacheBits State.reset value, rfl, if_pos (by cases value <;> decide)⟩,
    fun value => ⟨{ State.reset with schedule := [.setCacheBits value] }, by cases value <;> decide, rfl⟩⟩

theorem test_witness_DisabledEmptyCachesStayEmpty :
    ∃ t, (placed 0x0F09 0).cd = true ∧ (placed 0x0F09 0).dc.lines = [] ∧ (placed 0x0F09 0).cc.lines = [] ∧
      (nextMove (placed 0x0F09 0)).1 ≠ .setCacheBits false ∧ step (placed 0x0F09 0) = .next t := by
  have h : onNext (step (placed 0x0F09 0)) (fun _ => ()) = some () := by decide
  obtain ⟨t, hr, -⟩ := next_of_onNext h
  exact ⟨t, by decide, by decide, by decide, by decide, hr⟩

/-- A fetch; a read of one part and of two; a write; an instruction; and a draw of each parity for a TLB with sets. -/
theorem test_witness_EachAccessUsesItsOwnTlb :
    (∃ r, fetchInstr cached = .next r) ∧ (∃ r, memRead .dword 0x1000 startC = .next r) ∧
      (∃ r, memRead .dword 0x101E busy = .next r) ∧ (∃ t, memWrite .dword 0x5000 1 startC = .next t) ∧
      (∃ t, exec .invd startC = .next t) ∧ 0 < Config.codeTlbSets ∧ 6 % 2 = 0 ∧ 7 % 2 = 1 := by
  have h1 : onNext (fetchInstr cached) (fun _ => ()) = some () := by decide +kernel
  have h2 : onNext (memRead .dword 0x1000 startC) (fun _ => ()) = some () := by decide +kernel
  have h3 : onNext (memWrite .dword 0x5000 1 startC) (fun _ => ()) = some () := by decide +kernel
  have h4 : onNext (memRead .dword 0x101E busy) (fun _ => ()) = some () := by decide +kernel
  obtain ⟨r, hr, -⟩ := next_of_onNext h1
  obtain ⟨q, hq, -⟩ := next_of_onNext h2
  obtain ⟨t, ht, -⟩ := next_of_onNext h3
  obtain ⟨x, hx, -⟩ := next_of_onNext h4
  exact ⟨⟨r, hr⟩, ⟨q, hq⟩, ⟨x, hx⟩, ⟨t, ht⟩, ⟨_, rfl⟩, by decide⟩

end Sys2Proof.Slice0Tests
end

section
/-!
PROOFS. What a step keeps of the registers: what each instruction and each agent's move answers, and of it the
statements about the registers, CR0, the modes, reset, RDMSR and the page entries.
-/

namespace Sys2Proof.Machine

/-! ### What a step keeps of the registers -/

theorem SameSpecial.trans {s t u : State} (h : SameSpecial s t) (h' : SameSpecial t u) : SameSpecial s u := by
  obtain ⟨cr0, cpl, msr, fpu⟩ := h
  obtain ⟨cr0', cpl', msr', fpu'⟩ := h'
  exact ⟨cr0'.trans cr0, cpl'.trans cpl, fun n => (msr' n).trans (msr n), fpu'.trans fpu⟩

/-- No register changes, general or special, and neither does the pc. -/
structure SameRegisters (s t : State) : Prop where
  regs : t.regs = s.regs
  pc : t.pc = s.pc
  special : SameSpecial s t

theorem SameCore.registers {s t : State} (h : SameCore s t) : SameRegisters s t := ⟨h.regs, h.pc, h.special⟩

theorem SameFetch.registers {s t : State} (h : SameFetch s t) : SameRegisters s t := ⟨h.regs, h.pc, h.special⟩

theorem SameRegisters.trans {s t u : State} (h : SameRegisters s t) (h' : SameRegisters t u) : SameRegisters s u :=
  ⟨h'.regs.trans h.regs, h'.pc.trans h.pc, h.special.trans h'.special⟩

/-! ### What the instructions answer -/

/-- All RDMSR can answer. -/
theorem rdmsr_next {s t : State} (h : exec .rdmsr s = .next t) :
    ∃ v, t = (s.afterDraw.setEdxEax v).advance := by
  simp only [exec, execRdmsr] at h
  split at h
  · split at h
    · cases h
    · cases h; exact ⟨_, rfl⟩
  · cases h

/-- A number whose bits outside a mask are another's, with the other's bits inside the mask, is the other. -/
theorem merge_eq_of_and_not_eq {v x r : Qword} (h : v &&& ~~~r = x &&& ~~~r) : (v &&& ~~~r) ||| (x &&& r) = x := by
  rw [h]
  ext i hi
  simp only [BitVec.getElem_or, BitVec.getElem_and, BitVec.getElem_not]
  cases x[i] <;> cases r[i] <;> rfl

/-- All a write of Test Register 12 can answer: where it is admitted, the register keeps its value. -/
theorem writeTr12_next {v : Qword} {s t : State} (h : writeTr12 v s = .next t) : t = s := by
  unfold writeTr12 at h
  dsimp only at h
  split at h
  · split at h
    · next hd =>
      rw [merge_eq_of_and_not_eq hd] at h
      cases h; rfl
    · cases h
  · cases h

/-- All WRMSR can answer. -/
theorem wrmsr_next {s t : State} (h : exec .wrmsr s = .next t) : t = s.advance := by
  simp only [exec, execWrmsr] at h
  split at h
  · split at h
    · cases h
    · cases h
    · cases h
    · obtain ⟨u, hu, h⟩ := andThen_eq_next.1 h
      cases h
      rw [writeTr12_next hu]
  · cases h

/-- What the execution of any instruction does: the pc moves past it, and of the registers at most EAX and EDX change.
-/
structure Executed (s t : State) : Prop where
  special : SameSpecial s t
  reg : ∀ r, r ≠ .eax → r ≠ .edx → t.reg r = s.reg r
  pc : t.pc = s.pc + 2
  tlbs : t.tlbs = s.tlbs

/-- An operation that leaves the core, then the move of the pc. -/
theorem SameCore.executed {s t : State} (h : SameCore s t) : Executed s t.advance :=
  ⟨h.special, fun r _ _ => sameRegs_of h.regs r, congrArg (· + 2) h.pc, h.tlbs⟩

theorem reg_setEdxEax_other (s : State) (v : Qword) {r : Reg} (ha : r ≠ .eax) (hd : r ≠ .edx) :
    (s.setEdxEax v).reg r = s.reg r := by
  rw [State.setEdxEax, reg_setReg_other _ _ ha, reg_setReg_other _ _ hd]

theorem edxEax_setEdxEax (s : State) (v : Qword) : (s.setEdxEax v).edxEax = v := by
  rw [State.edxEax, State.setEdxEax, reg_setReg_same, reg_setReg_other _ _ (by decide), reg_setReg_same, halves_append]

theorem exec_executed {i : Instr} {s t : State} (h : exec i s = .next t) : Executed s t := by
  cases i with
  | invd =>
    have hc : SameCore s (s.invalidateCaches.specialCycle .flush) := by constructor <;> rfl
    rw [invd_next h]
    exact hc.executed
  | wbinvd =>
    obtain ⟨u, hu, rfl⟩ := wbinvd_next h
    have hc : SameCore u ((u.invalidateCaches.specialCycle .writeback).specialCycle .flush) := by constructor <;> rfl
    exact ((sameCore_closed.writebackAll s u hu).trans hc).executed
  | wrmsr =>
    rw [wrmsr_next h]
    exact (SameCore.refl s).executed
  | rdmsr =>
    obtain ⟨v, rfl⟩ := rdmsr_next h
    exact ⟨sameSpecial_of _ _ rfl rfl rfl rfl rfl rfl, fun r ha hd => reg_setEdxEax_other s.afterDraw v ha hd, rfl, rfl⟩

/-! ### What a step answers -/

/-- Taking the next move changes the schedule only. -/
theorem nextMove_state (s : State) : (nextMove s).2 = { s with schedule := s.schedule.tail } := by
  unfold nextMove
  cases h : s.schedule with
  | nil => dsimp only [List.tail_nil]; rw [← h]
  | cons m rest => rfl

theorem nextMove_registers (s : State) : SameRegisters s (nextMove s).2 := by
  rw [nextMove_state]
  exact ⟨rfl, rfl, sameSpecial_of _ _ rfl rfl rfl rfl rfl rfl⟩

/-- A state whose CD and NW differ is refused, whoever moves next. -/
theorem step_of_mixed {s : State} (h : s.cd ≠ s.nw) : step s = .refused .cr0ModeNotInSource := by
  unfold step
  rw [if_neg (by simpa [State.modeInSource] using h)]

/-- All a step can answer: in a described mode, what the next move answers. -/
theorem step_next {s t : State} (h : step s = .next t) :
    s.cd = s.nw ∧ performMove (nextMove s).1 (nextMove s).2 = .next t := by
  by_cases hm : s.cd = s.nw
  · refine ⟨hm, ?_⟩
    rwa [step, if_pos (by simp [State.modeInSource, hm])] at h
  · rw [step_of_mixed hm] at h
    cases h

/-- All the processor's move can answer: a fetch, and the instruction it read executed. -/
theorem processor_next {s t : State} (h : performMove .processor s = .next t) :
    ∃ u, SameFetch s u ∧ Executed u t := by
  obtain ⟨r, hf, he⟩ := andThen_eq_next.1 h
  exact ⟨r.2, fetchInstr_frame hf, exec_executed he⟩

theorem flushPin_core {s t : State} (h : flushPin s = .next t) : SameCore s t := by
  obtain ⟨u, hu, h⟩ := andThen_eq_next.1 h
  cases h
  have hc : SameCore u (u.invalidateCaches.specialCycle .flushAcknowledge) := by constructor <;> rfl
  exact (sameCore_closed.writebackAll s u hu).trans hc

theorem replaceLine_core {cache : CacheName} {set : BitVec 7} {way : Way} {s t : State}
    (h : replaceLine cache set way s = .next t) : SameCore s t := by
  cases cache with
  | data => exact sameCore_closed.evictData sameCore_closed.interleave set way s t h
  | code => cases h; exact evictCode_core set way s

/-- A move of another agent but the change of CD and NW changes no register. -/
theorem performMove_registers {m : Move} {s t : State} (hp : m ≠ .processor) (hc : ∀ value, m ≠ .setCacheBits value)
    (h : performMove m s = .next t) : SameRegisters s t := by
  cases m with
  | processor => exact absurd rfl hp
  | assertFlush => exact (flushPin_core h).registers
  | master move => exact (sameCore_closed.masterMove sameCore_closed.interleave move s t h).registers
  | replaceLine cache set way => exact (replaceLine_core h).registers
  | setPage base size entry => cases h; exact ⟨rfl, rfl, sameSpecial_of _ _ rfl rfl rfl rfl rfl rfl⟩
  | setCacheBits value => exact absurd rfl (hc value)

/-- All the change of CD and NW does to the state before it. -/
theorem step_setCacheBits {s t : State} {value : Bool} (hm : (nextMove s).1 = .setCacheBits value)
    (h : step s = .next t) : t = ({ s with schedule := s.schedule.tail } : State).setCacheBits value := by
  have h' := (step_next h).2
  rw [hm, nextMove_state] at h'
  cases h'; rfl

/-- A step by another agent, but the change of CD and NW, changes no register. -/
theorem step_other_registers {s t : State} (hp : (nextMove s).1 ≠ .processor)
    (hc : ∀ value, (nextMove s).1 ≠ .setCacheBits value) (h : step s = .next t) : SameRegisters s t :=
  (nextMove_registers s).trans (performMove_registers hp hc (step_next h).2)

/-- A step by the processor changes no register but EAX, EDX and the pc, which moves past the instruction. -/
theorem step_processor_registers {s t : State} (hp : (nextMove s).1 = .processor) (h : step s = .next t) :
    SameSpecial s t ∧ (∀ r, r ≠ .eax → r ≠ .edx → t.reg r = s.reg r) ∧ t.pc = s.pc + 2 := by
  have h' := (step_next h).2
  rw [hp] at h'
  obtain ⟨u, hf, he⟩ := processor_next h'
  have hu := (nextMove_registers s).trans hf.registers
  exact ⟨hu.special.trans he.special, fun r ha hd => (he.reg r ha hd).trans (sameRegs_of hu.regs r),
    he.pc.trans (congrArg (· + 2) hu.pc)⟩

/-- Settles O56, by whose move the step is: the processor's, the change of CD and NW, or another agent's. -/
theorem whatStepsNeverChange : Obligations.WhatStepsNeverChange := by
  intro s t h
  by_cases hp : (nextMove s).1 = .processor
  · obtain ⟨⟨-, hcpl, hmsr, hfpu⟩, hreg, hpc⟩ := step_processor_registers hp h
    exact ⟨hmsr, hcpl, hfpu, hreg, fun hn => absurd hp hn, fun _ => hpc⟩
  · suffices (∀ n, t.msr n = s.msr n) ∧ t.cpl = s.cpl ∧ t.fpu = s.fpu ∧ t.regs = s.regs ∧ t.pc = s.pc by
      obtain ⟨hmsr, hcpl, hfpu, hregs, hpc⟩ := this
      exact ⟨hmsr, hcpl, hfpu, fun r _ _ => sameRegs_of hregs r, fun _ => ⟨hregs, hpc⟩, fun hn => absurd hn hp⟩
    by_cases hc : ∃ value, (nextMove s).1 = .setCacheBits value
    · obtain ⟨value, hc⟩ := hc
      rw [step_setCacheBits hc h]
      exact ⟨fun n => by cases n <;> rfl, rfl, rfl, rfl, rfl⟩
    · obtain ⟨hregs, hpc, -, hcpl, hmsr, hfpu⟩ := step_other_registers hp (fun value e => hc ⟨value, e⟩) h
      exact ⟨hmsr, hcpl, hfpu, hregs, hpc⟩

/-! ### The change of CD and NW -/

/-- The mask of CD and NW has bits 29 and 30. -/
theorem getLsbD_cacheBits (i : Nat) : (0x60000000 : Dword).getLsbD i = decide (i = 29 ∨ i = 30) := by
  by_cases h : i < 32
  · exact (by decide : ∀ k : Fin 32, (0x60000000 : Dword).getLsbD k = decide (k.val = 29 ∨ k.val = 30)) ⟨i, h⟩
  · rw [BitVec.getLsbD_of_ge _ _ (by omega), eq_comm, decide_eq_false_iff_not]
    omega

/-- The change gives bits 29 and 30 its value and leaves the others. -/
theorem getLsbD_setCacheBits (s : State) (value : Bool) (i : Nat) :
    (s.setCacheBits value).cr0.getLsbD i = if i = 29 ∨ i = 30 then value else s.cr0.getLsbD i := by
  have hmask : (0x9FFFFFFF : Dword) = ~~~0x60000000 := by decide
  cases value with
  | true =>
    rw [setCacheBits_cr0, if_pos rfl, BitVec.getLsbD_or, getLsbD_cacheBits]
    split <;> simp [*]
  | false =>
    rw [setCacheBits_cr0, if_neg Bool.false_ne_true, BitVec.getLsbD_and, hmask, BitVec.getLsbD_not, getLsbD_cacheBits]
    split
    · simp [*]
    · by_cases h : i < 32
      · simp [*]
      · rw [BitVec.getLsbD_of_ge s.cr0 i (by omega), Bool.false_and]

@[simp] theorem cd_setCacheBits (s : State) (value : Bool) : (s.setCacheBits value).cd = value :=
  getLsbD_setCacheBits s value 30

@[simp] theorem nw_setCacheBits (s : State) (value : Bool) : (s.setCacheBits value).nw = value :=
  getLsbD_setCacheBits s value 29

/-- Every step but the change of CD and NW leaves CR0. -/
theorem step_cr0 {s t : State} (hc : ∀ value, (nextMove s).1 ≠ .setCacheBits value) (h : step s = .next t) :
    t.cr0 = s.cr0 := by
  by_cases hp : (nextMove s).1 = .processor
  · obtain ⟨⟨hcr0, -⟩, -⟩ := step_processor_registers hp h
    exact hcr0
  · obtain ⟨-, -, hcr0, -⟩ := step_other_registers hp hc h
    exact hcr0

/-- Every step leaves a described mode. -/
theorem step_mode {s t : State} (h : step s = .next t) : t.cd = t.nw := by
  by_cases hc : ∃ value, (nextMove s).1 = .setCacheBits value
  · obtain ⟨value, hc⟩ := hc
    rw [step_setCacheBits hc h, cd_setCacheBits, nw_setCacheBits]
  · have hcr0 := step_cr0 (fun value e => hc ⟨value, e⟩) h
    have hm := (step_next h).1
    simpa only [State.cd, State.nw, hcr0] using hm

/-- Settles O57, by whether the move is the change of CD and NW. -/
theorem onlyOneMoveChangesCr0 : Obligations.OnlyOneMoveChangesCr0 := by
  refine ⟨fun s t h => ⟨fun hc => step_cr0 hc h, fun value hc => ?_, step_mode h⟩, fun s value rest hm hs => ?_⟩
  · rw [step_setCacheBits hc h]
    refine ⟨cd_setCacheBits _ _, nw_setCacheBits _ _, fun i h29 h30 => ?_⟩
    rw [getLsbD_setCacheBits, if_neg (by omega)]
  · exact ⟨_, step_move hm hs, rfl, rfl, rfl, ⟨rfl, rfl⟩, rfl, rfl, fun _ => rfl, rfl, rfl, fun n => by cases n <;> rfl,
      rfl, rfl, rfl, rfl, rfl⟩

/-! ### The modes and reset -/

/-- Settles O8: the mode test comes before every move. -/
theorem mixedCacheModesAreRefused : Obligations.MixedCacheModesAreRefused := fun _ => step_of_mixed

/-- Settles O51: neither cache of the reset state lists a line. -/
theorem resetValues : Obligations.ResetValues := ⟨rfl, allInvalid_of rfl rfl, rfl, rfl, rfl⟩

theorem wf_emptyMemory (size : Nat) : Memory.wf size [] := ⟨.nil, by simp⟩

theorem wf_emptyCache (σ : Type) : (Cache.empty σ).wf := ⟨.nil, .nil⟩

theorem wf_emptyTlb (sets w : Nat) : (Tlb.empty sets w).wf := ⟨by simp [Tlb.empty], .nil⟩

/-- Settles O52: memory, I/O space, the caches, the TLBs and the moves in between are empty at reset. -/
theorem invariantAtReset : Obligations.InvariantAtReset := by
  refine ⟨⟨wf_emptyMemory _, wf_emptyMemory _, wf_emptyCache _, wf_emptyCache _, wf_emptyTlb _ _, wf_emptyTlb _ _,
    wf_emptyTlb _ _⟩, fun l hl => ?_, fun ms hms => ?_⟩
  · exact absurd hl List.not_mem_nil
  · exact absurd hms List.not_mem_nil

/-! ### RDMSR -/

/-- What RDMSR of a register answers at level 0. -/
theorem rdmsr_eq {s : State} {n : MsrId} (hcpl : s.cpl = 0) (hn : s.reg .ecx = n.number) :
    exec .rdmsr s = .next (s.afterDraw.setEdxEax ((s.msr n &&& ~~~s.platform.msrReserved n) |||
      (BitVec.ofNat 64 s.drawValue &&& s.platform.msrReserved n))).advance := by
  simp only [exec, execRdmsr, if_pos hcpl, ofNumber_eq_some.2 hn]

/-- Settles O12: the draw RDMSR takes is the first of the script. -/
theorem reservedBitsReadAsAnyValue : Obligations.ReservedBitsReadAsAnyValue := by
  intro s n w rest hcpl hn hs
  have hdraw : BitVec.ofNat 64 s.drawValue = w := by
    rw [State.drawValue, hs, BitVec.ofNat_toNat, BitVec.setWidth_eq]
  refine ⟨_, rdmsr_eq hcpl hn, ?_, ?_⟩
  · rw [hdraw, BitVec.or_comm]
    exact edxEax_setEdxEax s.afterDraw _
  · exact congrArg List.tail hs

/-! ### Page entries -/

/-- The page entry just written is the one in force where its page holds the address. -/
theorem pageAttr_setPage (s : State) (base a entry : Dword) (size : PageSize) :
    (s.setPage base size entry).pageAttr a =
      if (⟨base, size, pageAttrOf entry⟩ : PageEntry).holds a then pageAttrOf entry else s.pageAttr a := by
  simp only [State.pageAttr, State.pageAt, State.setPage, List.find?_cons]
  cases (⟨base, size, pageAttrOf entry⟩ : PageEntry).holds a <;> rfl

theorem holds_kb4_iff {base a : Dword} {attr : PageAttr} :
    (⟨base, .kb4, attr⟩ : PageEntry).holds a = true ↔ a.toNat / 4096 = base.toNat / 4096 := by
  have ha := a.isLt
  have hb := base.isLt
  change (base.extractLsb' 12 20 == a.extractLsb' 12 20) = true ↔ _
  rw [beq_iff_eq, ← BitVec.toNat_inj]
  simp only [BitVec.extractLsb'_toNat, Nat.shiftRight_eq_div_pow]
  omega

theorem holds_mb4_iff {base a : Dword} {attr : PageAttr} :
    (⟨base, .mb4, attr⟩ : PageEntry).holds a = true ↔ a.toNat / 4194304 = base.toNat / 4194304 := by
  have ha := a.isLt
  have hb := base.isLt
  change (base.extractLsb' 22 10 == a.extractLsb' 22 10) = true ↔ _
  rw [beq_iff_eq, ← BitVec.toNat_inj]
  simp only [BitVec.extractLsb'_toNat, Nat.shiftRight_eq_div_pow]
  omega

/-- Settles O49: the entry written last stands first in the list of entries, and decides where it holds the address. -/
theorem pageEntryWriteSetsTheAttributes : Obligations.PageEntryWriteSetsTheAttributes := by
  intro s base a entry
  refine ⟨fun h => ?_, fun h => ?_, fun h => ?_, fun h => ?_, fun size => ?_⟩
  · exact (pageAttr_setPage ..).trans (if_pos (holds_kb4_iff.2 h))
  · exact (pageAttr_setPage ..).trans (if_neg (mt holds_kb4_iff.1 h))
  · exact (pageAttr_setPage ..).trans (if_pos (holds_mb4_iff.2 h))
  · exact (pageAttr_setPage ..).trans (if_neg (mt holds_mb4_iff.1 h))
  · exact ⟨fun _ => rfl, sameSpecial_of _ _ rfl rfl rfl rfl rfl rfl, fun _ => rfl, fun _ => rfl, ⟨rfl, rfl⟩, rfl, rfl,
      rfl, rfl, rfl, rfl, rfl, fun rest hm hs => step_move hm hs⟩

end Sys2Proof.Machine
end

section
/-!
PROOFS. Data accesses and I/O accesses: what they do to the code cache, to the TLBs and to I/O space.
-/

namespace Sys2Proof.Machine

/-! ### What a data access answers -/

/-- All a data read can answer: what its parts answer, as one value. -/
theorem memRead_next {w : Width} {a : Dword} {s t : State} {v : Qword} (h : memRead w a s = .next (v, t)) :
    ∃ bytes, readParts (split a.toNat w) s = .next (bytes, t) := by
  unfold memRead at h
  split at h
  · split at h
    · obtain ⟨r, hr, h⟩ := andThen_eq_next.1 h
      cases h; exact ⟨r.1, hr⟩
    · cases h
  · cases h

/-- All a data write can answer: what its parts answer, none being refused. -/
theorem memWrite_next {w : Width} {a : Dword} {v : Qword} {s t : State} (h : memWrite w a v s = .next t) :
    writeParts a.toNat (bytesOf v w.bytes) (split a.toNat w) s = .next t := by
  unfold memWrite at h
  split at h
  · split at h
    · split at h
      · cases h
      · exact h
    · cases h
  · cases h

/-! ### Data writes and the code cache -/

/-- The parts of a write leave the code cache, which only other masters between them take lines from. -/
theorem writeParts_shrinks (addr : Nat) (bytes : List Byte) : ∀ (ps : List (Nat × Nat)) (s t : State),
    writeParts addr bytes ps s = .next t → Shrinks s.cc t.cc
  | [], s, t, h => by cases h; exact .refl _
  | [p], s, t, h => by rw [(writePart_frame h).cc]; exact .refl _
  | p :: p' :: rest, s, t, h => by
    obtain ⟨u, hu, h⟩ := andThen_eq_next.1 h
    obtain ⟨x, hx, h⟩ := andThen_eq_next.1 h
    have hux := (tame_interleave u x hx).cc
    rw [(writePart_frame hu).cc] at hux
    exact hux.trans (writeParts_shrinks addr bytes (p' :: rest) x t h)

/-- Settles O41: the code cache only shrinks during a data write. -/
theorem codeCacheIsWriteProtected : Obligations.CodeCacheIsWriteProtected := by
  intro s t w a v h x hx
  obtain ⟨y, hy, hplace, htag, hdata⟩ := writeParts_shrinks _ _ _ s t (memWrite_next h) x hx
  obtain ⟨hset, hway⟩ := (place_eq_iff y x).1 hplace
  exact ⟨y, hy, hset, hway, htag, hdata⟩

/-! ### Translations -/

theorem codeTlbsAfter_congr {s t : State} (h : t.platform = s.platform) (a : Dword) (d : Nat) (x : Tlbs) :
    t.codeTlbsAfter a d x = s.codeTlbsAfter a d x := by
  simp only [State.codeTlbsAfter, State.pageAttr, State.pageAt, h]

/-- A fetch translates the two bytes at pc, the first with the first draw. -/
theorem fetchInstr_translated {s : State} {r : Instr × State} (h : fetchInstr s = .next r) :
    ∃ draw, r.2.tlbs = s.codeTlbsAfter (s.pc + 1) draw (s.codeTlbsAfter s.pc s.drawValue s.tlbs) := by
  obtain ⟨-, -, r0, r1, -, e0, e1, -, e2⟩ := fetchInstr_spec h
  have h0 := fetchByte_translated e0
  have h1 := fetchByte_translated e1
  refine ⟨r0.2.drawValue, ?_⟩
  rw [← e2, markFetched_tlbs, h1.tlbs, h0.tlbs, codeTlbsAfter_congr h0.platform]

theorem split_ne_nil (a : Nat) (w : Width) : split a w ≠ [] := by
  unfold split
  split <;> exact List.cons_ne_nil _ _

/-- The set that a load changes takes bits of the draw as its replacement bits. -/
theorem replace_load_same {sets w : Nat} (t : Tlb sets w) (page : BitVec w) (attr : PageAttr) (draw : Nat)
    (h : 0 < sets) :
    (t.load page attr draw).replace[Config.tlbIndex sets page.toNat % sets]? = some (BitVec.ofNat 3 (draw / 8)) :=
  (Vector.getElem?_setIfInBounds_self ..).trans (if_pos (Nat.mod_lt _ h))

theorem replace_load_other {sets w : Nat} (t : Tlb sets w) (page : BitVec w) (attr : PageAttr) (draw : Nat) {other : Nat}
    (h : other ≠ Config.tlbIndex sets page.toNat % sets) :
    (t.load page attr draw).replace[other]? = t.replace[other]? :=
  Vector.getElem?_setIfInBounds_ne h.symm

theorem entries_load_even {sets w : Nat} (t : Tlb sets w) (page : BitVec w) (attr : PageAttr) {draw : Nat}
    (h : draw % 2 = 0) : (t.load page attr draw).entries = t.entries :=
  if_neg (by omega)

/-- With an odd draw the entry of the page takes a place of the page's set. -/
theorem mem_entries_load_odd {sets w : Nat} (t : Tlb sets w) (page : BitVec w) (attr : PageAttr) {draw : Nat}
    (h : draw % 2 = 1) (e : TlbEntry w) :
    e ∈ (t.load page attr draw).entries ↔
      e = ⟨Config.tlbIndex sets page.toNat % sets, draw / 2 % Config.tlbWays, page, page, attr⟩ ∨
        (e ∈ t.entries ∧
          ¬(e.set = Config.tlbIndex sets page.toNat % sets ∧ e.way = draw / 2 % Config.tlbWays)) := by
  simp [Tlb.load, h, ← Decidable.not_and_iff_or_not]

/-- Settles O59, access by access; what one translation does to a TLB is `Tlb.load`. -/
theorem eachAccessUsesItsOwnTlb : Obligations.EachAccessUsesItsOwnTlb := by
  refine ⟨fun s u i h => ?_, fun s t w a v h => ?_, fun s t w a v h => ?_, fun s t i h => (exec_executed h).tlbs,
    fun sets bits t page attr draw hs => ?_⟩
  · have hf := fetchInstr_frame h
    exact ⟨hf.data4k, hf.data4m, fetchInstr_translated h⟩
  · obtain ⟨bytes, hr⟩ := memRead_next h
    obtain ⟨draws, hlen, hhead, ht⟩ := readParts_translated _ s _ hr
    have htlbs : t.tlbs = _ := ht.tlbs
    exact ⟨htlbs ▸ dataTlbsAfterParts_code .., draws, hlen, hhead (split_ne_nil _ _), htlbs⟩
  · obtain ⟨draws, hlen, hhead, ht⟩ := writeParts_translated _ _ _ s t (memWrite_next h)
    exact ⟨ht.tlbs ▸ dataTlbsAfterParts_code .., draws, hlen, hhead (split_ne_nil _ _), ht.tlbs⟩
  · exact ⟨replace_load_same t page attr draw hs, fun _ => replace_load_other t page attr draw,
      entries_load_even t page attr,
      fun h => ⟨_, Nat.mod_lt _ (by decide), mem_entries_load_odd t page attr h⟩⟩

/-! ### I/O space -/

/-- An I/O access leaves memory, the caches, the general registers and the moves in between. -/
structure IoFrame (s t : State) : Prop where
  caches : SameCaches s t
  mem : t.mem = s.mem
  regs : t.regs = s.regs
  between : t.between = s.between

theorem IoFrame.refl (s : State) : IoFrame s s := ⟨⟨rfl, rfl⟩, rfl, rfl, rfl⟩

theorem IoFrame.trans {s t u : State} (h : IoFrame s t) (h' : IoFrame t u) : IoFrame s u :=
  ⟨⟨h'.caches.1.trans h.caches.1, h'.caches.2.trans h.caches.2⟩, h'.mem.trans h.mem, h'.regs.trans h.regs,
    h'.between.trans h.between⟩

theorem ioReadPart_frame (first count : Nat) (s : State) : IoFrame s (ioReadPart first count s).2 :=
  ⟨⟨rfl, rfl⟩, rfl, rfl, rfl⟩

theorem ioWritePart_frame (first : Nat) (bytes : List Byte) (s : State) : IoFrame s (ioWritePart first bytes s) :=
  ⟨⟨rfl, rfl⟩, rfl, rfl, rfl⟩

/-- With no other master in between, the parts of an I/O read follow one another. -/
theorem ioReadParts_cons_alone (p : Nat × Nat) (rest : List (Nat × Nat)) {s : State} (hb : s.between = []) :
    ioReadParts (p :: rest) s = andThen (ioReadParts rest (ioReadPart p.1 p.2 s).2) fun lower =>
      .next (lower.1 ++ (ioReadPart p.1 p.2 s).1, lower.2) := by
  have hb' : (ioReadPart p.1 p.2 s).2.between = [] := hb
  cases rest with
  | nil => rfl
  | cons p' rest => simp only [ioReadParts, interleave_alone hb', andThen_next]

/-- With no other master in between, the parts of an I/O write follow one another. -/
theorem ioWriteParts_cons_alone (port : Nat) (bytes : List Byte) (p : Nat × Nat) (rest : List (Nat × Nat)) {s : State}
    (hb : s.between = []) :
    ioWriteParts port bytes (p :: rest) s =
      ioWriteParts port bytes rest (ioWritePart p.1 ((bytes.drop (p.1 - port)).take p.2) s) := by
  have hb' : (ioWritePart p.1 ((bytes.drop (p.1 - port)).take p.2) s).between = [] := hb
  cases rest with
  | nil => rfl
  | cons p' rest => simp only [ioWriteParts, interleave_alone hb', andThen_next]

theorem ioReadParts_alone : ∀ (ps : List (Nat × Nat)) (s : State), s.between = [] →
    ∃ r, ioReadParts ps s = .next r ∧ IoFrame s r.2 ∧ r.2.io = s.io
  | [], s, _ => ⟨([], s), rfl, .refl s, rfl⟩
  | p :: rest, s, hb => by
    obtain ⟨r, hr, hf, hio⟩ := ioReadParts_alone rest (ioReadPart p.1 p.2 s).2 hb
    exact ⟨(r.1 ++ (ioReadPart p.1 p.2 s).1, r.2), by rw [ioReadParts_cons_alone p rest hb, hr]; rfl,
      (ioReadPart_frame ..).trans hf, hio⟩

/-- The byte of an address lies in the part. -/
def InPart (p : Nat × Nat) (a : Nat) : Prop :=
  p.1 ≤ a ∧ a < p.1 + p.2

/-- The parts of the operand at `port` are in I/O space, which is else as it was. -/
structure IoWritten (port : Nat) (bytes : List Byte) (ps : List (Nat × Nat)) (s t : State) : Prop where
  inside : ∀ p ∈ ps, ∀ a, InPart p a → bytes[a - port]? = some (Memory.read t.io a)
  outside : ∀ a, (∀ p ∈ ps, ¬InPart p a) → Memory.read t.io a = Memory.read s.io a

/-- A part that lies in the operand writes its bytes of it. -/
theorem ioWritePart_written {port : Nat} {bytes : List Byte} {p : Nat × Nat} (h1 : port ≤ p.1)
    (h2 : p.1 + p.2 ≤ port + bytes.length) (s : State) :
    IoWritten port bytes [p] s (ioWritePart p.1 ((bytes.drop (p.1 - port)).take p.2) s) := by
  have hlen : ((bytes.drop (p.1 - port)).take p.2).length = p.2 := by simp; omega
  refine ⟨fun q hq a ha => ?_, fun a ha => ?_⟩
  · obtain rfl := List.mem_singleton.1 hq
    obtain ⟨ha1, ha2⟩ := ha
    have hread := Memory.read_writeRun_inside ((bytes.drop (q.1 - port)).take q.2) s.io q.1 (a - q.1) (by omega)
    rw [show q.1 + (a - q.1) = a by omega, List.getElem_take, List.getElem_drop] at hread
    rw [List.getElem?_eq_getElem (by omega)]
    refine congrArg some (Eq.trans ?_ hread.symm)
    congr 1
    omega
  · have hout := ha p (List.mem_singleton.2 rfl)
    exact Memory.read_writeRun_outside _ _ _ (by rw [hlen]; unfold InPart at hout; omega)

/-- With no other master in between, an I/O write of parts that lie in the operand writes them. -/
theorem ioWriteParts_alone (port : Nat) (bytes : List Byte) : ∀ (ps : List (Nat × Nat)) (s : State), s.between = [] →
    (∀ p ∈ ps, port ≤ p.1 ∧ p.1 + p.2 ≤ port + bytes.length) →
    ∃ t, ioWriteParts port bytes ps s = .next t ∧ IoFrame s t ∧ IoWritten port bytes ps s t
  | [], s, _, _ => ⟨s, rfl, .refl s, fun _ hp => absurd hp List.not_mem_nil, fun _ _ => rfl⟩
  | p :: rest, s, hb, hps => by
    obtain ⟨hp, hrest⟩ := List.forall_mem_cons.1 hps
    have hfirst := ioWritePart_written hp.1 hp.2 s
    obtain ⟨t, ht, hf, hw⟩ := ioWriteParts_alone port bytes rest
      (ioWritePart p.1 ((bytes.drop (p.1 - port)).take p.2) s) hb hrest
    refine ⟨t, (ioWriteParts_cons_alone port bytes p rest hb).trans ht, (ioWritePart_frame ..).trans hf,
      fun q hq a ha => ?_, fun a ha => ?_⟩
    · by_cases hlater : ∃ q' ∈ rest, InPart q' a
      · obtain ⟨q', hq', ha'⟩ := hlater
        exact hw.inside q' hq' a ha'
      · rw [hw.outside a fun q' hq' ha' => hlater ⟨q', hq', ha'⟩]
        rcases List.mem_cons.1 hq with rfl | hq
        · exact hfirst.inside q (List.mem_singleton.2 rfl) a ha
        · exact absurd ⟨q, hq, ha⟩ hlater
    · obtain ⟨hap, harest⟩ := List.forall_mem_cons.1 ha
      rw [hw.outside a harest, hfirst.outside a (by simpa using hap)]

theorem ioWf_iff {w : Width} : w.ioWf = true ↔ w ≠ .qword := by
  cases w <;> simp [Width.ioWf]

theorem ioOperandWf_iff {first count : Nat} : ioOperandWf first count = true ↔ first + count ≤ 65536 :=
  decide_eq_true_iff

/-- An operand of I/O space is moved by its parts. -/
theorem ioRead_eq {w : Width} {p : BitVec 16} (s : State) (hw : w ≠ .qword) (hp : p.toNat + w.bytes ≤ 65536) :
    ioRead w p s = andThen (ioReadParts (split p.toNat w) s) fun r => .next (BitVec.ofNat 32 (littleEndian r.1), r.2) := by
  rw [ioRead, if_pos (ioWf_iff.2 hw), if_pos (ioOperandWf_iff.2 hp)]

theorem ioWrite_eq {w : Width} {p : BitVec 16} (v : Dword) (s : State) (hw : w ≠ .qword)
    (hp : p.toNat + w.bytes ≤ 65536) :
    ioWrite w p v s = ioWriteParts p.toNat (bytesOf (v.setWidth 64) w.bytes) (split p.toNat w) s := by
  rw [ioWrite, if_pos (ioWf_iff.2 hw), if_pos (ioOperandWf_iff.2 hp)]

theorem io_qword (p : BitVec 16) (v : Dword) (s : State) :
    ioRead .qword p s = .refused .qwordIo ∧ ioWrite .qword p v s = .refused .qwordIo := ⟨rfl, rfl⟩

theorem io_addressWrap {w : Width} {p : BitVec 16} (v : Dword) (s : State) (hw : w ≠ .qword)
    (hp : 65536 < p.toNat + w.bytes) :
    ioRead w p s = .refused .addressWrap ∧ ioWrite w p v s = .refused .addressWrap := by
  have hn : ¬ioOperandWf p.toNat w.bytes = true := mt ioOperandWf_iff.1 (by omega)
  rw [ioRead, ioWrite, if_pos (ioWf_iff.2 hw), if_neg hn, if_pos (ioWf_iff.2 hw), if_neg hn]
  exact ⟨rfl, rfl⟩

/-- The byte of a dword at a place inside it is that of its extension to a quadword. -/
theorem getElem?_bytesOf_setWidth (v : Dword) {n i : Nat} (h : i < n) :
    (bytesOf (v.setWidth 64) n)[i]? = some (v.extractLsb' (8 * i) 8) := by
  have hbyte : (v.setWidth 64).extractLsb' (8 * i) 8 = v.extractLsb' (8 * i) 8 := by
    apply BitVec.eq_of_toNat_eq
    rw [BitVec.extractLsb'_toNat, BitVec.extractLsb'_toNat, BitVec.toNat_setWidth_of_le (by decide)]
  rw [bytesOf, List.getElem?_map, List.getElem?_range h, Option.map_some, hbyte]

/-- With no other master in between, an I/O write inside I/O space completes and writes the operand. -/
theorem ioWrite_alone {w : Width} {p : BitVec 16} (v : Dword) {s : State} (hb : s.between = []) (hw : w ≠ .qword)
    (hp : p.toNat + w.bytes ≤ 65536) :
    ∃ t, ioWrite w p v s = .next t ∧ IoFrame s t ∧
      ∀ a, Memory.read t.io a = if p.toNat ≤ a ∧ a < p.toNat + w.bytes
        then v.extractLsb' (8 * (a - p.toNat)) 8 else Memory.read s.io a := by
  obtain ⟨t, ht, hf, hwr⟩ := ioWriteParts_alone p.toNat (bytesOf (v.setWidth 64) w.bytes) (split p.toNat w) s hb
    fun q hq => by rw [length_bytesOf]; exact part_sub hq
  refine ⟨t, (ioWrite_eq v s hw hp).trans ht, hf, fun a => ?_⟩
  split
  · next ha =>
    obtain ⟨q, hq, hq1, hq2⟩ := part_cover (a := p.toNat) (w := w) (i := a - p.toNat) (by omega)
    have hread := hwr.inside q hq a ⟨by omega, by omega⟩
    rw [getElem?_bytesOf_setWidth v (by omega)] at hread
    exact (Option.some.inj hread).symm
  · next ha =>
    refine hwr.outside a fun q hq haq => ha ?_
    obtain ⟨hq1, hq2⟩ := part_sub hq
    exact ⟨Nat.le_trans hq1 haq.1, Nat.lt_of_lt_of_le haq.2 hq2⟩

/-- Settles O42: an I/O operand moves by its parts, none of which touches a cache or memory. -/
theorem ioAccessesAreNotCached : Obligations.IoAccessesAreNotCached := by
  intro s w p v hb
  refine ⟨fun hw => ?_, fun hw hp => ⟨?_, ?_⟩, io_addressWrap v s, fun c => ⟨⟨rfl, rfl⟩, fun _ => rfl⟩⟩
  · rw [hw]; exact io_qword p v s
  · obtain ⟨r, hr, hf, hio⟩ := ioReadParts_alone (split p.toNat w) s hb
    exact ⟨_, r.2, by rw [ioRead_eq s hw hp, hr]; rfl, hf.caches, hf.mem, hio, hf.regs⟩
  · obtain ⟨t, ht, hf, hread⟩ := ioWrite_alone v hb hw hp
    exact ⟨t, ht, hf.caches, hf.mem, hf.regs, hread⟩

end Sys2Proof.Machine
end

section
/-!
PROOFS. Every step of any agent: it keeps the invariant, clean lines and the one current copy, and disabled, empty
caches as they are; and the one copy under data accesses.
-/

namespace Sys2Proof.Machine

/-! ### The invariant -/

/-- The invariant speaks of memory, I/O space, the caches' lines and the TLBs only. -/
theorem State.Inv.congr {s t : State} (i : s.Inv) (hmem : t.mem = s.mem) (hio : t.io = s.io)
    (hdc : t.dc.lines = s.dc.lines) (hcc : t.cc.lines = s.cc.lines) (htlbs : t.tlbs = s.tlbs) : t.Inv := by
  obtain ⟨mem, io, dc, cc, data4k, data4m, code⟩ := i
  refine ⟨hmem ▸ mem, hio ▸ io, ?_, ?_, htlbs ▸ data4k, htlbs ▸ data4m, htlbs ▸ code⟩
  · unfold Cache.wf; rw [hdc]; exact dc
  · unfold Cache.wf; rw [hcc]; exact cc

theorem invalidateCaches_inv {s : State} (i : s.Inv) : s.invalidateCaches.Inv :=
  ⟨i.mem, i.io, wf_invalidate _, wf_invalidate _, i.data4k, i.data4m, i.code⟩

theorem exec_inv {i : Instr} {s t : State} (h : exec i s = .next t) (hs : s.Inv) : t.Inv := by
  cases i with
  | invd =>
    rw [invd_next h]
    exact (invalidateCaches_inv hs).congr rfl rfl rfl rfl rfl
  | wbinvd =>
    obtain ⟨u, hu, rfl⟩ := wbinvd_next h
    exact (invalidateCaches_inv ((tame_closed.writebackAll s u hu).inv hs)).congr rfl rfl rfl rfl rfl
  | wrmsr => rw [wrmsr_next h]; exact hs.congr rfl rfl rfl rfl rfl
  | rdmsr => obtain ⟨v, rfl⟩ := rdmsr_next h; exact hs.congr rfl rfl rfl rfl rfl

/-- All the flush that FLUSH# starts can answer. -/
theorem flushPin_next {s t : State} (h : flushPin s = .next t) :
    ∃ u, writebackAll interleave s = .next u ∧ t = u.invalidateCaches.specialCycle .flushAcknowledge := by
  obtain ⟨u, hu, h⟩ := andThen_eq_next.1 h
  cases h; exact ⟨u, hu, rfl⟩

theorem replaceLine_tame {cache : CacheName} {set : BitVec 7} {way : Way} {s t : State}
    (h : replaceLine cache set way s = .next t) : Tame s t := by
  cases cache with
  | data => exact tame_closed.evictData tame_interleave set way s t h
  | code => cases h; exact evictCode_tame set way s

theorem performMove_inv {m : Move} {s t : State} (h : performMove m s = .next t) (i : s.Inv) : t.Inv := by
  cases m with
  | processor =>
    obtain ⟨r, hf, he⟩ := andThen_eq_next.1 h
    exact exec_inv he (fetchInstr_inv hf i)
  | assertFlush =>
    obtain ⟨u, hu, rfl⟩ := flushPin_next h
    exact (invalidateCaches_inv ((tame_closed.writebackAll s u hu).inv i)).congr rfl rfl rfl rfl rfl
  | master move => exact (tame_closed.masterMove tame_interleave move s t h).inv i
  | replaceLine cache set way => exact (replaceLine_tame h).inv i
  | setPage base size entry => cases h; exact i.congr rfl rfl rfl rfl rfl
  | setCacheBits value => cases h; exact i.congr rfl rfl rfl rfl rfl

theorem nextMove_inv {s : State} (i : s.Inv) : (nextMove s).2.Inv := by
  rw [nextMove_state]; exact i.congr rfl rfl rfl rfl rfl

/-- Settles O53, by the move the step makes. -/
theorem stepKeepsTheInvariant : Obligations.StepKeepsTheInvariant :=
  fun _ _ i h => performMove_inv (step_next h).2 (nextMove_inv i)

/-! ### The one copy under the moves of every agent -/

/-- Where memory holds every byte that a data read returns, both caches may be emptied. -/
theorem quiet_invalidate {s t : State} (g : s.Good) (hset : ∀ a, a < Config.memorySize → s.Settled a) (hi : t.Inv)
    (hb : t.between = s.between) (hl : t.dc.lines = []) (hm : t.mem = s.mem) : Quiet s t := by
  have hmiss : ∀ a, t.view a = Memory.read t.mem a := fun a => view_miss (by simp [Cache.hit, hl])
  refine ⟨⟨hi, fun l hl' => ?_, fun ms h => g.between ms (hb ▸ h)⟩, fun a ha => ?_, fun a _ _ => (hmiss a).symm⟩
  · rw [hl] at hl'; exact absurd hl' List.not_mem_nil
  · rw [hmiss, hm]; exact hset a ha

/-- With the data cache emptied there is no line that could differ from memory. -/
theorem good_invalidate {s t : State} (g : s.Good) (hi : t.Inv) (hb : t.between = s.between) (hl : t.dc.lines = []) :
    t.Good := by
  refine ⟨hi, fun l hl' => ?_, fun ms h => g.between ms (hb ▸ h)⟩
  rw [hl] at hl'; exact absurd hl' List.not_mem_nil

/-- Every instruction but INVD keeps the one copy. -/
theorem quiet_exec {i : Instr} {s t : State} (g : s.Good) (hi : i ≠ .invd) (h : exec i s = .next t) : Quiet s t := by
  cases i with
  | invd => exact absurd rfl hi
  | wbinvd =>
    have hinv := exec_inv h g.inv
    obtain ⟨u, hu, rfl⟩ := wbinvd_next h
    obtain ⟨hq, hset⟩ := quiet_writebackAll g hu
    exact hq.trans (quiet_invalidate hq.good hset hinv rfl rfl rfl)
  | wrmsr =>
    have hinv := exec_inv h g.inv
    rw [wrmsr_next h] at hinv ⊢
    exact quiet_same g hinv rfl rfl rfl
  | rdmsr =>
    have hinv := exec_inv h g.inv
    obtain ⟨v, rfl⟩ := rdmsr_next h
    exact quiet_same g hinv rfl rfl rfl

theorem good_exec {i : Instr} {s t : State} (g : s.Good) (h : exec i s = .next t) : t.Good := by
  by_cases hi : i = .invd
  · subst hi
    have hinv := exec_inv h g.inv
    rw [invd_next h] at hinv ⊢
    exact good_invalidate g hinv rfl rfl
  · exact (quiet_exec g hi h).good

/-- Every move of another agent but another master's write keeps the one copy. -/
theorem quiet_otherMove {m : Move} {s t : State} (g : s.Good) (hw : m.isMasterWrite = false) (hp : m ≠ .processor)
    (h : performMove m s = .next t) : Quiet s t := by
  have hinv := performMove_inv h g.inv
  cases m with
  | processor => exact absurd rfl hp
  | assertFlush =>
    obtain ⟨u, hu, rfl⟩ := flushPin_next h
    obtain ⟨hq, hset⟩ := quiet_writebackAll g hu
    exact hq.trans (quiet_invalidate hq.good hset hinv rfl rfl rfl)
  | master move => exact quiet_masterMove quiet_interleave hw g h
  | replaceLine cache set way =>
    cases cache with
    | data => exact quiet_evictData quiet_interleave tame_interleave g h
    | code => cases h; exact quiet_same g hinv rfl rfl rfl
  | setPage base size entry => cases h; exact quiet_same g hinv rfl rfl rfl
  | setCacheBits value => cases h; exact quiet_same g hinv rfl rfl rfl

theorem quiet_nextMove {s : State} (g : s.Good) : Quiet s (nextMove s).2 := by
  have hinv := nextMove_inv g.inv
  rw [nextMove_state] at hinv ⊢
  exact quiet_same g hinv rfl rfl rfl

/-- Settles O54: the processor's fetch and the other agents' moves keep the one copy, and an instruction executed keeps
what is asked of a state, INVD included. -/
theorem stepKeepsCleanLinesAgreeing : Obligations.StepKeepsCleanLinesAgreeing := by
  intro s t hi hc hb hw h
  have g := (quiet_nextMove ⟨hi, hc, hb⟩).good
  have hm := (step_next h).2
  have gt : t.Good := by
    by_cases hp : (nextMove s).1 = .processor
    · rw [hp] at hm
      obtain ⟨r, hf, he⟩ := andThen_eq_next.1 hm
      exact good_exec (quiet_fetchInstr g hf).good he
    · exact (quiet_otherMove g hw hp hm).good
  exact ⟨gt.inv, gt.clean, gt.between⟩

/-- Settles O55: the fetch, every instruction but INVD and every move of another agent but a write keep the one copy. -/
theorem oneCopyOfMemory : Obligations.OneCopyOfMemory := by
  intro s t hi hc hb hw hinvd h
  have hn := quiet_nextMove ⟨hi, hc, hb⟩
  have hm := (step_next h).2
  have hq : Quiet s t := by
    by_cases hp : (nextMove s).1 = .processor
    · have hinvd := hinvd hp
      rw [hp] at hm
      obtain ⟨⟨i, u⟩, hf, he⟩ := andThen_eq_next.1 hm
      have hne : i ≠ .invd := fun e => hinvd u (e ▸ hf)
      have hfetch := quiet_fetchInstr hn.good hf
      exact (hn.trans hfetch).trans (quiet_exec hfetch.good hne he)
    · exact hn.trans (quiet_otherMove hn.good hw hp hm)
  exact ⟨hq.view, hq.good.inv, hq.good.clean, hq.good.between⟩

/-! ### The one copy under data accesses -/

/-- Settles O34: a data read is quiet, and its value is the one copy of its bytes. -/
theorem dataReadsReturnTheOneCopy : Obligations.DataReadsReturnTheOneCopy := by
  intro s t w a v hi hc hb h
  obtain ⟨hq, hv⟩ := quiet_memRead ⟨hi, hc, hb⟩ h
  subst hv
  exact ⟨hasBytes_viewRun s a.toNat w, hq.view, hq.good.inv, hq.good.clean⟩

theorem getElem_bytesOf (v : Qword) (n : Nat) {i : Nat} (h : i < (bytesOf v n).length) :
    (bytesOf v n)[i] = v.extractLsb' (8 * i) 8 := by
  simp [bytesOf]

/-- What a completed data write leaves, byte by byte. -/
theorem Stored.operand {s t : State} {w : Width} {a : Dword} {v : Qword}
    (h : Stored s t a.toNat (bytesOf v w.bytes)) :
    (∀ i, i < w.bytes → t.view (a.toNat + i) = v.extractLsb' (8 * i) 8) ∧
      ∀ x, x < 4294967296 → x < a.toNat ∨ a.toNat + w.bytes ≤ x → t.view x = s.view x := by
  have hlen := length_bytesOf v w.bytes
  refine ⟨fun i hi => ?_, fun x hx hout => h.outside x hx (by rwa [hlen])⟩
  rw [h.inside i (by rwa [hlen]), getElem_bytesOf]

/-- Settles O35: a data write stores its bytes in the one copy. -/
theorem dataWritesUpdateTheOneCopy : Obligations.DataWritesUpdateTheOneCopy := by
  intro s t w a v hi hc hb h
  have hst := stored_memWrite ⟨hi, hc, hb⟩ h
  exact ⟨hst.operand.1, hst.operand.2, hst.good.inv, hst.good.clean⟩

/-! ### Disabled, empty caches -/

/-- The caches are disabled and every line is in state I. -/
structure DisabledEmpty (s : State) : Prop where
  cd : s.cd = true
  dc : s.dc.lines = []
  cc : s.cc.lines = []

theorem DisabledEmpty.congr {s t : State} (h : DisabledEmpty s) (hcr0 : t.cr0 = s.cr0)
    (hdc : t.dc.lines = s.dc.lines) (hcc : t.cc.lines = s.cc.lines) : DisabledEmpty t :=
  ⟨by simpa only [State.cd, hcr0] using h.cd, hdc.trans h.dc, hcc.trans h.cc⟩

theorem Shrinks.eq_nil {σ : Type} {c d : Cache σ} (h : Shrinks c d) (hc : c.lines = []) : d.lines = [] := by
  refine List.eq_nil_iff_forall_not_mem.2 fun x hx => ?_
  obtain ⟨y, hy, -⟩ := h x hx
  rw [hc] at hy
  exact absurd hy List.not_mem_nil

/-- What only takes lines from the caches and leaves CR0 keeps disabled, empty caches. -/
theorem DisabledEmpty.tame {s t : State} (h : DisabledEmpty s) (ht : Tame s t) (hc : SameCore s t) : DisabledEmpty t :=
  ⟨by simpa only [State.cd, hc.cr0] using h.cd, ht.dc.eq_nil h.dc, ht.cc.eq_nil h.cc⟩

/-- A fetch with disabled, empty caches is a bus read, which fills no line. -/
theorem DisabledEmpty.fetchByte {s : State} (h : DisabledEmpty s) {a : Dword} {r : Byte × State}
    (hf : fetchByte a s = .next r) : DisabledEmpty r.2 := by
  have hmiss : s.cc.hit (lineOf a) = none := by simp [Cache.hit, h.cc]
  have hc := not_cacheable_of_cd h.cd a (s.loadCodeTlb a).drawBit
  cases hp : s.populated a.toNat with
  | false =>
    rw [fetchByte_hole hmiss hc hp] at hf
    cases hf
  | true =>
    obtain ⟨t, ht, -, hft⟩ := fetchByte_bus hmiss hc hp
    rw [ht] at hf
    cases hf
    exact h.congr hft.same.cr0 (congrArg Cache.lines hft.dc) hft.lines

theorem DisabledEmpty.fetchInstr {s : State} (h : DisabledEmpty s) {r : Instr × State}
    (hf : fetchInstr s = .next r) : DisabledEmpty r.2 := by
  obtain ⟨-, -, r0, r1, -, h0, h1, -, hr⟩ := fetchInstr_spec hf
  rw [← hr]
  exact ((h.fetchByte h0).fetchByte h1).congr rfl rfl rfl

theorem DisabledEmpty.exec {s t : State} (h : DisabledEmpty s) {i : Instr} (he : exec i s = .next t) :
    DisabledEmpty t := by
  cases i with
  | invd => rw [invd_next he]; exact ⟨h.cd, rfl, rfl⟩
  | wbinvd =>
    obtain ⟨u, hu, rfl⟩ := wbinvd_next he
    exact ⟨(h.tame (tame_closed.writebackAll s u hu) (sameCore_closed.writebackAll s u hu)).cd, rfl, rfl⟩
  | wrmsr => rw [wrmsr_next he]; exact h.congr rfl rfl rfl
  | rdmsr => obtain ⟨v, rfl⟩ := rdmsr_next he; exact h.congr rfl rfl rfl

theorem DisabledEmpty.performMove {s t : State} (h : DisabledEmpty s) {m : Move} (hm : m ≠ .setCacheBits false)
    (he : performMove m s = .next t) : DisabledEmpty t := by
  cases m with
  | processor =>
    obtain ⟨r, hf, he⟩ := andThen_eq_next.1 he
    exact (h.fetchInstr hf).exec he
  | assertFlush =>
    obtain ⟨u, hu, rfl⟩ := flushPin_next he
    exact ⟨(h.tame (tame_closed.writebackAll s u hu) (sameCore_closed.writebackAll s u hu)).cd, rfl, rfl⟩
  | master move =>
    exact h.tame (tame_closed.masterMove tame_interleave move s t he)
      (sameCore_closed.masterMove sameCore_closed.interleave move s t he)
  | replaceLine cache set way => exact h.tame (replaceLine_tame he) (replaceLine_core he)
  | setPage base size entry => cases he; exact h.congr rfl rfl rfl
  | setCacheBits value =>
    cases value with
    | false => exact absurd rfl hm
    | true => cases he; exact ⟨cd_setCacheBits s true, h.dc, h.cc⟩

/-- Settles O58: of the moves only the one that turns the caches on clears CD, and with CD set nothing is filled. -/
theorem disabledEmptyCachesStayEmpty : Obligations.DisabledEmptyCachesStayEmpty := by
  intro s t hcd hdc hcc hm h
  have hn : DisabledEmpty (nextMove s).2 := by rw [nextMove_state]; exact ⟨hcd, hdc, hcc⟩
  have ht := hn.performMove hm (step_next h).2
  exact ⟨ht.cd, ht.dc, ht.cc⟩

end Sys2Proof.Machine
end

section
/-!
PROOFS. The fetch and the program text, FLUSH#, operands and bus cycles, and lookups in the caches.
-/

namespace Sys2Proof.Machine

/-! ### Fetches (20_memory.md R80) -/

/-- Marking program text is no part of a fetch's frame. -/
theorem Fetched.markFetched {s t : State} {e : List BusEvent} (h : Fetched s t e) (pc : Dword) :
    Fetched s (t.markFetched pc) e :=
  ⟨h.same.trans (by constructor <;> rfl), h.mem, h.dc, h.lines, h.between, h.history⟩

/-- What a fetch from the code cache leaves. -/
theorem Fetched.frame {s t : State} (h : Fetched s t []) :
    t.pc = s.pc ∧ SameRegs s t ∧ SameSpecial s t ∧ t.mem = s.mem ∧ t.io = s.io ∧ t.dc = s.dc ∧
      t.cc.lines = s.cc.lines ∧ SameLaunch s t ∧ t.between = s.between ∧ t.history = s.history :=
  ⟨h.same.pc, sameRegs_of h.same.regs, h.same.special, h.mem, h.same.io, h.dc, h.lines,
    ⟨h.same.platform, h.same.schedule⟩, h.between, h.history⟩

/-- The processor executes what its two byte fetches read, if they decode. -/
theorem runInstruction_of {s u v : State} {i : Instr} {b0 b1 : Byte} {rest : List Byte}
    (he : s.platform.endPc ≠ some s.pc) (hw : s.pc.toNat + 2 < Config.memorySize)
    (h0 : fetchByte s.pc s = .next (b0, u)) (h1 : fetchByte (s.pc + 1) u = .next (b1, v))
    (hd : decode [b0, b1] = .ok (i, rest)) : runInstruction s = exec i (v.markFetched s.pc) := by
  rw [runInstruction, fetchInstr_of he hw h0 h1, hd]
  rfl

/-- Settles O6: a fetch that hits reads its line and keeps the lines, so the second byte hits where it did. -/
theorem stepFetchesFromTheCodeCache : Obligations.StepFetchesFromTheCodeCache := by
  refine ⟨fun s i rest l0 l1 hm hs he hw h0 h1 hd => ?_, fun s a l hl => ?_⟩
  · obtain ⟨u, hu, hfu⟩ := fetchByte_hit h0
    obtain ⟨v, hv, hfv⟩ := fetchByte_hit ((hfu.hit (lineOf (s.pc + 1))).trans h1)
    rw [toNat_pc_succ hw] at hv
    exact ⟨v.markFetched s.pc, (step_run hm hs).trans (runInstruction_of he hw hu hv hd),
      ((hfu.trans hfv).markFetched s.pc).frame⟩
  · obtain ⟨u, hu, hfu⟩ := fetchByte_hit hl
    exact ⟨u, hu, hfu.frame⟩

/-- The 32 bytes at an address's line lie in memory exactly when its line is populated. -/
theorem linePopulated_lineOf {s : State} {a : Dword} :
    LinePopulated s (lineOf a) ↔ s.runPopulated (32 * (a.toNat / 32)) 32 := by
  rw [LinePopulated, toNat_lineOf]; rfl

/-- The fetch of a byte that misses and may not fill. -/
theorem fetchMiss_bus {s : State} {a : Dword} (i : s.Inv) (hm : s.cc.hit (lineOf a) = none)
    (hc : cacheable s a (s.loadCodeTlb a).drawBit = false) (hp : s.populated a.toNat = true) :
    ∃ u, fetchByte a s = .next (Memory.read s.mem a.toNat, u) ∧ u.mem = s.mem ∧ SameCaches s u ∧ u.pc = s.pc ∧
      SameRegs s u ∧ SameSpecial s u ∧ u.io = s.io ∧ SameLaunch s u ∧ u.between = s.between ∧ u.Inv ∧
      u.history = s.readEvent a.toNat 1 :: s.history := by
  obtain ⟨u, hu, hcc, hf⟩ := fetchByte_bus hm hc hp
  exact ⟨u, hu, hf.mem, ⟨hf.dc, hcc⟩, hf.same.pc, sameRegs_of hf.same.regs, hf.same.special, hf.same.io,
    ⟨hf.same.platform, hf.same.schedule⟩, hf.between, fetchByte_inv hu i, hf.history⟩

/-- Settles O7, by whether the miss may fill and whether memory is there. -/
theorem fetchMissReadsMemory : Obligations.FetchMissReadsMemory := by
  intro s a i hb hm
  refine ⟨fetchMiss_bus i hm, fun hc hp => ?_, fetchByte_hole hm, fun hc hp => ?_⟩
  · have ha := toNat_lineOf a
    obtain ⟨l, u, hu, hf, hsame⟩ := fetchByte_fill i hb hm hc (linePopulated_lineOf.2 hp)
    obtain ⟨order, hperm, hhist⟩ := hf.history
    rw [quadReads, ha] at hhist
    have hdata := hf.data
    rw [ha] at hdata
    exact ⟨u, l, hu, hf.mem, hf.dc, hsame.pc, sameRegs_of hsame.regs, hsame.special, hsame.io,
      ⟨hsame.platform, hsame.schedule⟩, hf.between, fetchByte_inv hu i, hf.hit, by cases l.state; rfl, hdata, hf.place,
      hf.others, order, hperm, hhist⟩
  · exact stuck_fetchByte hb hm hc (mt linePopulated_lineOf.1 hp)

/-! ### Program text (20_memory.md R87) -/

/-- The execution of an instruction leaves the addresses fetched and the launch's parameters. -/
theorem exec_text {i : Instr} {s t : State} (h : exec i s = .next t) :
    t.fetched = s.fetched ∧ t.platform = s.platform := by
  cases i with
  | invd => rw [invd_next h]; exact ⟨rfl, rfl⟩
  | wbinvd =>
    obtain ⟨u, hu, rfl⟩ := wbinvd_next h
    have hcore := sameCore_closed.writebackAll s u hu
    exact ⟨hcore.fetched, hcore.platform⟩
  | wrmsr => rw [wrmsr_next h]; exact ⟨rfl, rfl⟩
  | rdmsr => obtain ⟨v, rfl⟩ := rdmsr_next h; exact ⟨rfl, rfl⟩

/-- The processor's move fetches away from END_PC and the top of memory, marks the two bytes at its pc, and moves past
them. -/
theorem processor_text {s t : State} (h : performMove .processor s = .next t) :
    s.platform.endPc ≠ some s.pc ∧ s.pc.toNat + 2 < Config.memorySize ∧ t.platform = s.platform ∧ t.pc = s.pc + 2 ∧
      t.fetched = (s.markFetched s.pc).fetched := by
  obtain ⟨r, hf, he⟩ := andThen_eq_next.1 h
  obtain ⟨hend, hwrap, -⟩ := fetchInstr_spec hf
  have hframe := fetchInstr_frame hf
  obtain ⟨hfetched, hplatform⟩ := exec_text he
  exact ⟨hend, hwrap, hplatform.trans hframe.platform, (exec_executed he).pc.trans (congrArg (· + 2) hframe.pc),
    hfetched.trans (fetchInstr_fetched hf)⟩

/-- What is program text where the processor does not move: the pc, the addresses fetched and two of the launch's
parameters. -/
structure SameText (s t : State) : Prop where
  pc : t.pc = s.pc
  fetched : t.fetched = s.fetched
  codeRanges : t.platform.codeRanges = s.platform.codeRanges
  endPc : t.platform.endPc = s.platform.endPc

theorem SameCore.text {s t : State} (h : SameCore s t) : SameText s t :=
  ⟨h.pc, h.fetched, by rw [h.platform], by rw [h.platform]⟩

theorem otherMove_text {m : Move} {s t : State} (hp : m ≠ .processor) (h : performMove m s = .next t) :
    SameText s t := by
  cases m with
  | processor => exact absurd rfl hp
  | assertFlush => exact (flushPin_core h).text
  | master move => exact (sameCore_closed.masterMove sameCore_closed.interleave move s t h).text
  | replaceLine cache set way => exact (replaceLine_core h).text
  | setPage base size entry => cases h; exact ⟨rfl, rfl, rfl, rfl⟩
  | setCacheBits value => cases h; exact ⟨rfl, rfl, rfl, rfl⟩

theorem nextMove_text (s : State) : SameText s (nextMove s).2 := by
  rw [nextMove_state]; exact ⟨rfl, rfl, rfl, rfl⟩

theorem SameText.codeRange {s t : State} (h : SameText s t) (a : Nat) : t.codeRange a = s.codeRange a :=
  codeRange_congr h.codeRanges h.endPc h.pc h.fetched a

theorem toNat_pc_add_two {pc : Dword} (h : pc.toNat + 2 < Config.memorySize) : (pc + 2).toNat = pc.toNat + 2 := by
  rw [BitVec.toNat_add]
  exact Nat.mod_eq_of_lt h

/-- What a step does to the program text, and to the addresses fetched. -/
theorem step_text {s t : State} (h : step s = .next t) :
    (∀ x, t.codeRange x = s.codeRange x) ∧
      ((nextMove s).1 = .processor → t.fetched = (s.markFetched s.pc).fetched) ∧
      ((nextMove s).1 ≠ .processor → t.fetched = s.fetched) := by
  have hm := (step_next h).2
  have hn := nextMove_text s
  by_cases hp : (nextMove s).1 = .processor
  · rw [hp] at hm
    obtain ⟨hend, hwrap, hplatform, hpc, hfetched⟩ := processor_text hm
    have hpc' : t.pc.toNat = (nextMove s).2.pc.toNat + 2 := by rw [hpc, toNat_pc_add_two hwrap]
    refine ⟨fun x => (codeRange_advance hend hwrap hplatform hpc' hfetched x).trans (hn.codeRange x), fun _ => ?_,
      fun hne => absurd hp hne⟩
    rw [hfetched, State.markFetched, State.markFetched, hn.pc, hn.fetched]
  · have ht := otherMove_text hp hm
    exact ⟨fun x => (ht.codeRange x).trans (hn.codeRange x), fun e => absurd e hp, fun _ => ht.fetched.trans hn.fetched⟩

/-- A step takes no address away from those fetched. -/
theorem step_fetched_grows {s t : State} (h : step s = .next t) {x : Nat} (hx : x ∈ s.fetched) : x ∈ t.fetched := by
  obtain ⟨-, hproc, hother⟩ := step_text h
  by_cases hp : (nextMove s).1 = .processor
  · rw [hproc hp]; exact mem_markFetched.2 (.inr (.inr hx))
  · rwa [hother hp]

/-- Settles O40: what is fetched at pc lies in the text ahead, and a step moves addresses from there to those fetched.
-/
theorem fetchedBytesAreProgramText : Obligations.FetchedBytesAreProgramText := by
  refine ⟨fun s he hw => ⟨?_, ?_⟩, fun s t h => ?_⟩
  · exact codeRange_at_pc he hw (Nat.le_refl _) (by omega)
  · exact codeRange_at_pc he hw (by omega) (by omega)
  · obtain ⟨hrange, hproc, hother⟩ := step_text h
    simp only [List.contains_iff_mem]
    refine ⟨hrange, fun x hx => ?_, fun hp => ?_, hother⟩
    · have hx' := step_fetched_grows h hx
      exact ⟨hx', codeRange_of_fetched hx'⟩
    · rw [hproc hp]
      exact ⟨mem_markFetched.2 (.inl rfl), mem_markFetched.2 (.inr (.inl rfl))⟩

/-! ### FLUSH# (20_memory.md R82) -/

theorem modifiedLinesWritten_congr {s t : State} (hd : t.dc = s.dc) (hp : t.platform = s.platform)
    {events : List BusEvent} (h : ModifiedLinesWritten t events) : ModifiedLinesWritten s events := by
  obtain ⟨order, hperm, hw⟩ := h
  exact ⟨order, hd ▸ hperm, linesWritten_congr hp hw⟩

/-- Settles O21: with no other master in between, the writebacks of the modified lines, then the caches emptied. -/
theorem flushPinRule : Obligations.FlushPinRule := by
  intro s rest hm hs i hb hp
  let r : State := { s with schedule := rest }
  obtain ⟨u, f, hu, hw, ⟨writes, hwrites, hhist⟩, hin, hout⟩ := writebackAll_alone (s := r) i.dc hb hp
  have hcore := hw.only.core
  have hstep : step s = .next (u.invalidateCaches.specialCycle .flushAcknowledge) := by
    rw [step_move hm hs]
    exact andThen_eq_next.2 ⟨u, hu, rfl⟩
  refine ⟨_, writes, hstep, allInvalid_of rfl rfl, fun l hl hl' o ho => ?_, fun a ha => ?_,
    congrArg (BusEvent.special .flushAcknowledge :: ·) hhist,
    modifiedLinesWritten_congr (s := s) (t := r) rfl rfl hwrites, hcore.pc, sameRegs_of hcore.regs, hcore.special,
    fun a => congrArg (Memory.read · a) hcore.io, hcore.tlbs, hcore.schedule⟩
  · exact (hw.mem _).trans (by rw [hin l hl hl' o ho]; rfl)
  · exact (hw.mem _).trans (by rw [hout a ha]; rfl)

/-- Settles O22: whatever the writebacks do, the caches are emptied after them. -/
theorem flushPinFrame : Obligations.FlushPinFrame := by
  intro s t rest hs h
  have hm := (step_next h).2
  rw [nextMove, hs] at hm
  have hcore := flushPin_core hm
  obtain ⟨u, -, rfl⟩ := flushPin_next hm
  exact ⟨allInvalid_of rfl rfl, ⟨u.history, rfl⟩, hcore.pc, sameRegs_of hcore.regs, hcore.special,
    fun a => congrArg (Memory.read · a) hcore.io, hcore.platform, hcore.tlbs, hcore.fetched, hcore.schedule⟩

/-! ### Operands (20_memory.md R50, R51) -/

theorem misaligned_iff (a : Nat) (w : Width) :
    misaligned a w = true ↔ a / splitUnit w ≠ (a + w.bytes - 1) / splitUnit w := by
  cases w with
  | byte => simp [misaligned, Width.bytes]
  | word => simp only [misaligned, splitUnit, Width.bytes, decide_eq_true_eq]; omega
  | dword => simp only [misaligned, splitUnit, Width.bytes, decide_eq_true_eq]; omega
  | qword => simp only [misaligned, splitUnit, Width.bytes, decide_eq_true_eq]; omega

theorem aligned_of_physicalUnit {a : Nat} {w : Width} (h : physicalUnit a w = true) : misaligned a w = false := by
  have h := of_decide_eq_true h
  cases w <;> simp only [misaligned, Width.bytes, decide_eq_false_iff_not] at h ⊢ <;> omega

/-- Settles O23, width by width. -/
theorem misalignedMeansCrossing : Obligations.MisalignedMeansCrossing :=
  fun a w => ⟨misaligned_iff a w, rfl, rfl, rfl, rfl, aligned_of_physicalUnit⟩

/-- The boundary of its unit that a misaligned operand crosses lies inside it. -/
theorem boundary_inside {a : Nat} {w : Width} (h : misaligned a w = true) :
    a < splitUnit w * (a / splitUnit w + 1) ∧ splitUnit w * (a / splitUnit w + 1) < a + w.bytes := by
  cases w <;> simp only [misaligned, splitUnit, Width.bytes, decide_eq_true_eq, Bool.false_eq_true] at h ⊢ <;> omega

theorem split_of_misaligned {a : Nat} {w : Width} (h : misaligned a w = true) :
    split a w = [(splitUnit w * (a / splitUnit w + 1), a + w.bytes - splitUnit w * (a / splitUnit w + 1)),
      (a, splitUnit w * (a / splitUnit w + 1) - a)] := by
  rw [split, if_pos h]

theorem busRunWf_iff {first count : Nat} : busRunWf first count = true ↔ 1 ≤ count ∧ first % 8 + count ≤ 8 := by
  simp [busRunWf]

/-- An operand that crosses no boundary lies in one quadword. -/
theorem busRunWf_aligned {a : Nat} {w : Width} (h : misaligned a w = false) : busRunWf a w.bytes = true := by
  rw [busRunWf_iff]
  cases w <;> simp only [misaligned, Width.bytes, decide_eq_false_iff_not] at h ⊢ <;> omega

/-- Each half of an operand cut at its boundary lies in one quadword. -/
theorem busRunWf_halves {a : Nat} {w : Width} (h : misaligned a w = true) :
    busRunWf (splitUnit w * (a / splitUnit w + 1)) (a + w.bytes - splitUnit w * (a / splitUnit w + 1)) = true ∧
      busRunWf a (splitUnit w * (a / splitUnit w + 1) - a) = true := by
  rw [busRunWf_iff, busRunWf_iff]
  cases w <;> simp only [misaligned, splitUnit, Width.bytes, decide_eq_true_eq, Bool.false_eq_true] at h ⊢ <;> omega

/-- Every part is a run that one bus cycle carries. -/
theorem busRunWf_part {a : Nat} {w : Width} {p : Nat × Nat} (hp : p ∈ split a w) : busRunWf p.1 p.2 = true := by
  cases h : misaligned a w with
  | false =>
    rw [split_of_aligned h, List.mem_singleton] at hp
    rw [hp]; exact busRunWf_aligned h
  | true =>
    rw [split_of_misaligned h, List.mem_cons, List.mem_singleton] at hp
    rcases hp with rfl | rfl
    · exact (busRunWf_halves h).1
    · exact (busRunWf_halves h).2

/-- The parts, from the lower up, are the operand's bytes. -/
theorem split_bytes (a : Nat) (w : Width) :
    (split a w).reverse.flatMap (fun p => (List.range p.2).map (p.1 + ·)) = (List.range w.bytes).map (a + ·) := by
  simp only [← List.range'_eq_map_range]
  cases h : misaligned a w with
  | false => rw [split_of_aligned h]; simp
  | true =>
    obtain ⟨h1, h2⟩ := boundary_inside h
    rw [split_of_misaligned h]
    generalize splitUnit w * (a / splitUnit w + 1) = b at *
    calc _ = List.range' a (b - a) ++ List.range' (a + 1 * (b - a)) (a + w.bytes - b) := by
          simp [show a + (b - a) = b by omega]
      _ = List.range' a w.bytes := by rw [List.range'_append]; congr 1; omega

/-- Settles O24, by whether the operand crosses its boundary. -/
theorem splitCoversTheOperand : Obligations.SplitCoversTheOperand := by
  intro a w
  refine ⟨split_bytes a w, fun p hp => busRunWf_part hp, split_of_aligned, fun h => ?_⟩
  obtain ⟨h1, -⟩ := boundary_inside h
  exact ⟨_, _, split_of_misaligned h, rfl, by dsimp only; omega, rfl⟩

/-! ### Bus cycles (20_memory.md R55, R56) -/

theorem toNat_quadOf (a : Dword) : (quadOf a).toNat = a.toNat / 8 := by
  have ha := a.isLt
  simp only [quadOf, BitVec.extractLsb'_toNat, Nat.shiftRight_eq_div_pow]
  omega

/-- The lowest enable of a run is its first byte's. -/
theorem lowAddress_byteEnables {a : Dword} {n : Nat} (h : 1 ≤ n) : lowAddress (byteEnables a n) = a.toNat % 8 := by
  have hfirst : (List.range 8).find? (fun i => (byteEnables a n).getLsbD i) = some (a.toNat % 8) := by
    rw [List.find?_range_eq_some]
    refine ⟨?_, List.mem_range.2 (by omega), fun j hj => ?_⟩
    · rw [byteEnables_bit (by omega), decide_eq_true_eq]; omega
    · rw [byteEnables_bit (by omega), Bool.not_eq_true', decide_eq_false_iff_not]; omega
  rw [lowAddress, hfirst, Option.getD_some]

/-- Settles O25: the enables are a run from the address's offset in its quadword. -/
theorem byteEnablesAreOneRun : Obligations.ByteEnablesAreOneRun := by
  intro a n h
  refine ⟨fun i hi => byteEnables_bit hi, toNat_quadOf a, ?_⟩
  rw [toNat_quadOf, lowAddress_byteEnables (busRunWf_iff.1 h).1]
  omega

/-- A read cycle on memory answers its bytes and is one event. -/
theorem busRead_populated {s : State} {a : Dword} {n : Nat} (h : s.runPopulated a.toNat n) :
    busRead a n s = .next (Memory.readRun s.mem a.toNat n, s.log (s.readEvent a.toNat n)) := by
  rw [busRead_eq_next, State.readEvent, ofNat_toNat32]
  exact ⟨firstHole_eq_none.2 h, rfl⟩

/-- A write cycle on memory stores its bytes and is one event. -/
theorem busWrite_populated {s : State} {a : Dword} {bytes : List Byte} (h : s.runPopulated a.toNat bytes.length) :
    busWrite a bytes s = .next { s.log (s.writeEvent a.toNat bytes) with
      mem := Memory.writeRun s.mem a.toNat bytes } := by
  rw [busWrite_eq_next, State.writeEvent, ofNat_toNat32]
  exact ⟨firstHole_eq_none.2 h, rfl⟩

/-- Settles O26, by whether the run meets a hole. -/
theorem busCycleRule : Obligations.BusCycleRule := by
  intro s a n bytes
  refine ⟨fun h => ?_, fun h => ?_, fun h => ?_, fun h => ?_⟩
  · exact ⟨_, busRead_populated h, rfl, rfl, ⟨rfl, rfl⟩, sameOutside_of rfl rfl rfl rfl rfl rfl rfl rfl rfl rfl rfl⟩
  · exact ⟨_, busWrite_populated h, rfl, Memory.read_writeRun_inside bytes s.mem a.toNat,
      fun x => Memory.read_writeRun_outside bytes s.mem a.toNat, ⟨rfl, rfl⟩,
      sameOutside_of rfl rfl rfl rfl rfl rfl rfl rfl rfl rfl rfl⟩
  · obtain ⟨j, hj, hhole⟩ := not_runPopulated.1 h
    exact stuck_busRead hj hhole
  · obtain ⟨j, hj, hhole⟩ := not_runPopulated.1 h
    exact stuck_busWrite hj hhole

/-! ### Lookups in the caches (20_memory.md R61, R62, R65, R74) -/

/-- Settles O27, field by field. -/
theorem addressFields : Obligations.AddressFields := by
  intro a
  have hline := toNat_lineOf a
  refine ⟨offsetOf_eq a, hline, ?_, ?_, lineAddress_fields _, fun q hq => ?_⟩
  · rw [toNat_lineSet, hline]
  · rw [toNat_lineTag, hline]; omega
  · rw [toNat_lineQuad _ hq, hline]

/-- Settles O28: the predicate is the three tests. -/
theorem cacheableExactlyWhen : Obligations.CacheableExactlyWhen := by
  intro s a ken
  simp [cacheable, and_assoc]

theorem dataStateAt_ne_I_of {c : Cache DataState} {set : BitVec 7} {way : Way} {l : CacheLine DataState}
    (h : c.lineAt set way = some l) : dataStateAt c set way ≠ .I := stateAt_ne_I.2 ⟨l, h⟩

theorem codeStateAt_ne_I_of {c : Cache CodeState} {set : BitVec 7} {way : Way} {l : CacheLine CodeState}
    (h : c.lineAt set way = some l) : codeStateAt c set way ≠ .I := fun e => by
  rw [codeStateAt_eq_I.1 e] at h; cases h

/-- Settles O29: a place that lists a line is not in state I. -/
theorem hitExactlyWhen : Obligations.HitExactlyWhen := by
  intro s a i
  rw [hit_iff_lineAt i.dc, hit_iff_lineAt i.cc]
  refine ⟨⟨?_, ?_⟩, ⟨?_, ?_⟩⟩
  · rintro ⟨way, l, hl, ht⟩; exact ⟨way, l, dataStateAt_ne_I_of hl, hl, ht⟩
  · rintro ⟨way, l, -, hl, ht⟩; exact ⟨way, l, hl, ht⟩
  · rintro ⟨way, l, hl, ht⟩; exact ⟨way, l, codeStateAt_ne_I_of hl, hl, ht⟩
  · rintro ⟨way, l, -, hl, ht⟩; exact ⟨way, l, hl, ht⟩

/-- A set with a place that holds no line has such a place taken. -/
theorem lineAt_victim_of_vacant {σ : Type} {c : Cache σ} {set : BitVec 7} (draw : Bool)
    (h : c.lineAt set .zero = none ∨ c.lineAt set .one = none) : c.lineAt set (c.victim set draw) = none := by
  unfold Cache.victim
  cases h0 : c.lineAt set .zero with
  | none =>
    cases h1 : c.lineAt set .one with
    | none => cases draw <;> assumption
    | some y => exact h0
  | some x =>
    have h1 := h.resolve_left (by rw [h0]; exact Option.some_ne_none x)
    rw [h1]; exact h1

/-- In a set with two lines the LRU bit decides. -/
theorem victim_of_full {σ : Type} {c : Cache σ} {set : BitVec 7} (draw : Bool)
    (h0 : c.lineAt set .zero ≠ none) (h1 : c.lineAt set .one ≠ none) :
    c.victim set draw = if c.lru.getLsbD set.toNat then .one else .zero := by
  obtain ⟨x, hx⟩ := Option.ne_none_iff_exists'.1 h0
  obtain ⟨y, hy⟩ := Option.ne_none_iff_exists'.1 h1
  rw [Cache.victim, hx, hy]

/-- Settles O30, for either cache by the two lookups of the set. -/
theorem victimOfAFill : Obligations.VictimOfAFill := by
  intro d c set draw
  simp only [ne_eq, stateAt_eq_I, codeStateAt_eq_I]
  exact ⟨lineAt_victim_of_vacant draw, victim_of_full draw, lineAt_victim_of_vacant draw, victim_of_full draw⟩

end Sys2Proof.Machine
end

section
/-!
PROOFS. Other bus masters and replacement: the two inquire cycles (20_memory.md R75, R76), and a line that leaves its
cache with no fill (R73).
-/

namespace Sys2Proof.Machine

/-! ### The line an inquire cycle hits -/

theorem anyValid_iff {σ : Type} {c : Cache σ} : c.anyValid = true ↔ c.lines ≠ [] := by
  simp [Cache.anyValid]

theorem snoopRefused_iff {s : State} : s.snoopRefused = true ↔ s.cd = true ∧ s.anyLineValid := by
  simp [State.snoopRefused, State.anyLineValid, anyValid_iff]

/-- The inquire cycle has reached the line it hits: the event is in the history and, if the line was modified, its four
quadwords are in memory; nothing else changed. -/
structure SnoopedLineWritten (s u : State) (l : CacheLine DataState) (line : BitVec 27) (e : BusEvent) : Prop where
  only : OnlyMemory s u
  modified : l.state = .M → LineInMemory s u line l.data ∧
    ∃ writes, LineWrites s line l.data writes ∧ u.history = writes ++ e :: s.history
  clean : l.state ≠ .M → SameMem s u ∧ u.history = e :: s.history

theorem onlyMemory_log (s : State) (e : BusEvent) : OnlyMemory s (s.log e) := ⟨by constructor <;> rfl, rfl, rfl, rfl⟩

/-- A line that is not modified needs no writeback. -/
theorem snoopedLineWritten_clean (s : State) {l : CacheLine DataState} (line : BitVec 27) (e : BusEvent)
    (hs : l.state ≠ .M) : SnoopedLineWritten s (s.log e) l line e :=
  ⟨onlyMemory_log s e, fun hm => absurd hm hs, fun _ => ⟨fun _ => rfl, rfl⟩⟩

/-- A modified line reaches memory, where memory is at its bytes. -/
theorem snoopedLineWritten_modified {s : State} {l : CacheLine DataState} {line : BitVec 27} (e : BusEvent)
    (hb : s.between = []) (ha : l.address = line) (hm : l.state = .M) (hp : s.runPopulated (32 * line.toNat) 32) :
    ∃ u, writeback interleave l (s.log e) = .next u ∧ SnoopedLineWritten s u l line e := by
  subst ha
  obtain ⟨u, hu, hw⟩ := writeback_alone (s := s.log e) (l := l) hb hp
  obtain ⟨writes, hwrites, hhist⟩ := writeback_events (s := s.log e) hb hu
  refine ⟨u, hu, (onlyMemory_log s e).trans hw.only, fun _ => ⟨fun a => ?_, writes, hwrites, hhist⟩,
    fun hn => absurd hm hn⟩
  exact (hw.mem a).trans (by rw [bytesOfLine]; split <;> rfl)

theorem log_hit (s : State) (e : BusEvent) (line : BitVec 27) : (s.log e).dc.hit line = s.dc.hit line := rfl

/-- The inquire cycle for a read that hits: the line's writeback if it is modified, then the line's new state. -/
theorem inquireRead_hit {s : State} {line : BitVec 27} {l : CacheLine DataState} (hb : s.between = [])
    (hr : ¬s.snoopRefused = true) (hh : s.dc.hit line = some l)
    (hp : l.state = .M → s.runPopulated (32 * line.toNat) 32) :
    ∃ u, inquireRead interleave line s = .next (u.afterReadSnoop line) ∧
      SnoopedLineWritten s u l line (.inquire line false) := by
  rw [inquireRead, if_neg hr]
  simp only [log_hit, hh]
  cases hs : l.state with
  | M =>
    obtain ⟨u, hu, hw⟩ := snoopedLineWritten_modified (.inquire line false) hb (hit_spec hh).2 hs (hp hs)
    exact ⟨u, by rw [hu]; rfl, hw⟩
  | E => exact ⟨_, rfl, snoopedLineWritten_clean s line _ (by rw [hs]; decide)⟩
  | S => exact ⟨_, rfl, snoopedLineWritten_clean s line _ (by rw [hs]; decide)⟩

/-- The inquire cycle for a write that hits: the line's writeback if it is modified, then the line leaves. -/
theorem inquireWrite_hit {s : State} {line : BitVec 27} {l : CacheLine DataState} (hb : s.between = [])
    (hr : ¬s.snoopRefused = true) (hh : s.dc.hit line = some l)
    (hp : l.state = .M → s.runPopulated (32 * line.toNat) 32) :
    ∃ u, inquireWrite interleave line s = .next (u.afterWriteSnoop line) ∧
      SnoopedLineWritten s u l line (.inquire line true) := by
  rw [inquireWrite, if_neg hr]
  simp only [log_hit, hh]
  cases hs : l.state with
  | M =>
    obtain ⟨u, hu, hw⟩ := snoopedLineWritten_modified (.inquire line true) hb (hit_spec hh).2 hs (hp hs)
    exact ⟨u, by rw [hu]; rfl, hw⟩
  | E => exact ⟨_, rfl, snoopedLineWritten_clean s line _ (by rw [hs]; decide)⟩
  | S => exact ⟨_, rfl, snoopedLineWritten_clean s line _ (by rw [hs]; decide)⟩

theorem inquireRead_miss {s : State} {line : BitVec 27} (point : State → Result State) (hr : ¬s.snoopRefused = true)
    (hh : s.dc.hit line = none) : inquireRead point line s = .next (s.log (.inquire line false)) := by
  rw [inquireRead, if_neg hr]
  simp only [log_hit, hh]

theorem inquireWrite_miss {s : State} {line : BitVec 27} (point : State → Result State) (hr : ¬s.snoopRefused = true)
    (hh : s.dc.hit line = none) :
    inquireWrite point line s = .next ((s.log (.inquire line true)).afterWriteSnoop line) := by
  rw [inquireWrite, if_neg hr]
  simp only [log_hit, hh]

theorem inquire_refused {s : State} {line : BitVec 27} (point : State → Result State) (hr : s.snoopRefused = true) :
    inquireRead point line s = .refused .disabledModeWithValidLines ∧
      inquireWrite point line s = .refused .disabledModeWithValidLines := by
  rw [inquireRead, inquireWrite, if_pos hr, if_pos hr]
  exact ⟨rfl, rfl⟩

/-! ### What an inquire cycle does to the caches -/

theorem dropHit_of_miss {σ : Type} {c : Cache σ} {line : BitVec 27} (h : c.hit line = none) : c.dropHit line = c := by
  rw [Cache.dropHit, h]

theorem setHit_of_hit {σ : Type} {c : Cache σ} {line : BitVec 27} {l : CacheLine σ} (h : c.hit line = some l)
    (state : σ) : c.setHit line state = c.put { l with state := state } := by
  rw [Cache.setHit, h]

/-- After the inquire cycle for a read the line it hits has left, or is in S with the same bytes. -/
theorem hit_afterReadSnoop {s : State} {line : BitVec 27} {l : CacheLine DataState} (hwf : s.dc.wf)
    (hh : s.dc.hit line = some l) :
    (s.afterReadSnoop line).dc.hit line = none ∨
      ∃ l', (s.afterReadSnoop line).dc.hit line = some l' ∧ l'.state = .S ∧ l'.data = l.data := by
  rw [afterReadSnoop_dc]
  cases s.drawBit with
  | false => exact .inl (hit_dropHit hwf line)
  | true =>
    obtain ⟨hl, ha⟩ := hit_spec hh
    have hput := hit_put_same hwf hl (l' := { l with state := .S }) rfl rfl
    rw [ha] at hput
    exact .inr ⟨{ l with state := .S }, by rw [if_pos rfl, setHit_of_hit hh, hput], rfl, rfl⟩

theorem sameOtherLines_afterReadSnoop {s : State} (hwf : s.dc.wf) (line : BitVec 27) :
    SameOtherLines s (s.afterReadSnoop line) line := by
  intro other hne
  rw [afterReadSnoop_dc]
  cases s.drawBit with
  | false => exact hit_dropHit_other hwf hne
  | true =>
    rw [if_pos rfl]
    cases hh : s.dc.hit line with
    | none => rw [Cache.setHit, hh]
    | some l =>
      obtain ⟨hl, ha⟩ := hit_spec hh
      rw [setHit_of_hit hh]
      exact hit_put_other (l' := { l with state := .S }) hwf hl rfl rfl (by rwa [ha])

theorem afterReadSnoop_core (s : State) (line : BitVec 27) : SameCore s (s.afterReadSnoop line) := by
  constructor <;> rfl

theorem afterWriteSnoop_core (s : State) (line : BitVec 27) : SameCore s (s.afterWriteSnoop line) := by
  constructor <;> rfl

/-- Settles O43, by whether the cycle is refused, misses or hits. -/
theorem inquireForAReadRule : Obligations.InquireForAReadRule := by
  intro s line i hb
  refine ⟨fun hr => (inquire_refused interleave (snoopRefused_iff.2 hr)).1, fun hr hh => ?_, fun l hr hh hp => ?_,
    fun rest hm hs => step_move hm hs⟩
  · exact ⟨_, inquireRead_miss interleave (mt snoopRefused_iff.1 hr) hh, ⟨rfl, rfl⟩, fun _ => rfl, rfl,
      (onlyMemory_log s _).core.outside, rfl⟩
  · obtain ⟨u, hu, hw⟩ := inquireRead_hit hb (mt snoopRefused_iff.1 hr) hh hp
    obtain ⟨hcore, hdc, hcc, -⟩ := hw.only
    have hwf : u.dc.wf := by rw [hdc]; exact i.dc
    have hcore' := hcore.trans (afterReadSnoop_core u line)
    exact ⟨_, hu, hit_afterReadSnoop hwf (by rw [hdc]; exact hh),
      fun other hne => (sameOtherLines_afterReadSnoop hwf line other hne).trans (by rw [hdc]), hcc, hcore'.pc,
      hcore'.outside, hw.modified, hw.clean⟩

/-- Settles O44, by whether the cycle is refused, misses or hits. -/
theorem inquireForAWriteRule : Obligations.InquireForAWriteRule := by
  intro s line i hb
  refine ⟨fun hr => (inquire_refused interleave (snoopRefused_iff.2 hr)).2, fun hr hh => ?_, fun l hr hh hp => ?_,
    fun rest hm hs => step_move hm hs⟩
  · exact ⟨_, inquireWrite_miss interleave (mt snoopRefused_iff.1 hr) hh, dropHit_of_miss hh, hit_dropHit i.cc line,
      fun other hne => hit_dropHit_other i.cc hne, fun _ => rfl, rfl,
      ((onlyMemory_log s _).core.trans (afterWriteSnoop_core _ line)).outside, rfl⟩
  · obtain ⟨u, hu, hw⟩ := inquireWrite_hit hb (mt snoopRefused_iff.1 hr) hh hp
    obtain ⟨hcore, hdc, hcc, -⟩ := hw.only
    have hwf : u.dc.wf := by rw [hdc]; exact i.dc
    have hwfc : u.cc.wf := by rw [hcc]; exact i.cc
    have hcore' := hcore.trans (afterWriteSnoop_core u line)
    exact ⟨_, hu, hit_dropHit hwf line, hit_dropHit hwfc line,
      fun other hne => (hit_dropHit_other hwf hne).trans (by rw [hdc]),
      fun other hne => (hit_dropHit_other hwfc hne).trans (by rw [hcc]), hcore'.pc, hcore'.outside, hw.modified,
      hw.clean⟩

/-- Settles O45: with no line in either cache both cycles miss, and there is nothing to take out. -/
theorem inquireInDisabledEmptyModeChangesNothing : Obligations.InquireInDisabledEmptyModeChangesNothing := by
  intro s line _ hdc hcc
  have hr : ¬s.snoopRefused = true := fun h => by
    obtain ⟨-, hv⟩ := snoopRefused_iff.1 h
    exact hv.elim (· hdc) (· hcc)
  have hd : s.dc.hit line = none := by simp [Cache.hit, hdc]
  have hc : s.cc.hit line = none := by simp [Cache.hit, hcc]
  refine ⟨inquireRead_miss interleave hr hd, (inquireWrite_miss interleave hr hd).trans ?_⟩
  have hdd : (s.log (.inquire line true)).dc.dropHit line = s.dc := dropHit_of_miss hd
  have hcd : (s.log (.inquire line true)).cc.dropHit line = s.cc := dropHit_of_miss hc
  rw [State.afterWriteSnoop, hdd, hcd]
  rfl

/-! ### Replacement without a fill (20_memory.md R73) -/

/-- Settles O48: of the data cache it is an eviction with no other master in between, of the code cache a line
dropped. -/
theorem replacementRule : Obligations.ReplacementRule := by
  intro s set way i hb hp
  refine ⟨?_, ?_, fun cache rest hm hs => step_move hm hs⟩
  · obtain ⟨t, ht, he⟩ := evictData_alone (set := set) (way := way) hb fun x hx hs => hp x (lineAt_spec hx).1 hs
    exact ⟨t, ht, stateAt_eq_I.2 he.empty, he.others, he.cc, he.core.pc, he.core.outside, he.mem, he.history⟩
  · exact ⟨_, rfl, codeStateAt_eq_I.2 (lineAt_drop_same ..), sameOtherPlaces_drop _ _ _, rfl, fun _ => rfl, rfl,
      (evictCode_core set way s).outside, rfl⟩

end Sys2Proof.Machine
end

section
/-!
PROOFS. Data reads (20_memory.md R78): hits, misses by the bus or by a fill, reads that meet a hole, and operands of two
parts.
-/

namespace Sys2Proof.Machine

/-! ### Operands of one part -/

theorem part_of_aligned {a : Nat} {w : Width} (h : misaligned a w = false) (hw : a + w.bytes ≤ 4294967296) :
    PartInLine a w.bytes := ⟨bytes_pos w, aligned_in_line h, hw⟩

/-- A read of an operand inside one line is the read of its one part. -/
theorem memRead_aligned {s : State} {w : Width} {a : Dword} (hm : s.cd = s.nw) (hw : a.toNat + w.bytes ≤ 4294967296)
    (hal : misaligned a.toNat w = false) :
    memRead w a s =
      andThen (readPart a.toNat w.bytes s) fun r => .next (BitVec.ofNat 64 (littleEndian r.1), r.2) := by
  rw [memRead_eq hm hw, split_of_aligned hal, readParts]

theorem hasBytes_readRun (m : List Host.Cell) (a : Nat) (w : Width) :
    HasBytes (BitVec.ofNat 64 (littleEndian (Memory.readRun m a w.bytes))) w.bytes (fun i => Memory.read m (a + i)) :=
  hasBytes_littleEndian (Memory.length_readRun _ _ _) (bytes_le w) (Memory.getElem_readRun m a w.bytes)

/-- The bytes of a line at an operand inside it make a value. -/
theorem hasBytes_lineBytes {data : Vector Byte 32} {a : Dword} {w : Width} {f : Nat → Byte}
    (hal : misaligned a.toNat w = false) (hf : ∀ i, i < w.bytes → lineByte data (a.toNat % 32 + i) = f i) :
    HasBytes (BitVec.ofNat 64 (littleEndian (lineBytes data (offsetOf a) w.bytes))) w.bytes f := by
  have hline := aligned_in_line hal
  have hlen : (lineBytes data (offsetOf a) w.bytes).length = w.bytes := by
    rw [length_lineBytes, offsetOf_eq]; omega
  refine hasBytes_littleEndian hlen (bytes_le w) fun i hi => ?_
  rw [getElem_lineBytes, offsetOf_eq]
  exact hf i (hlen ▸ hi)

/-! ### Hits -/

/-- A part of a read that hits takes its bytes from the line. -/
theorem readPart_hit {first n : Nat} {s : State} {l : CacheLine DataState}
    (h : s.dc.hit (lineOf (BitVec.ofNat 32 first)) = some l) :
    readPart first n s = .next (lineBytes l.data (offsetOf (BitVec.ofNat 32 first)) n,
      (s.loadDataTlb (BitVec.ofNat 32 first)).touchData l.set) := by
  have h' : (s.loadDataTlb (BitVec.ofNat 32 first)).dc.hit (lineOf (BitVec.ofNat 32 first)) = some l := h
  unfold readPart
  dsimp only [translate]
  rw [h']

/-- Settles O31: the one part hits. -/
theorem readHitsReturnTheLine : Obligations.ReadHitsReturnTheLine := by
  intro s w a l hm hw hal hl
  have hread := readPart_hit (first := a.toNat) (n := w.bytes) (s := s) (by rwa [ofNat_toNat32])
  rw [ofNat_toNat32] at hread
  exact ⟨_, (s.loadDataTlb a).touchData l.set, by rw [memRead_aligned hm hw hal, hread]; rfl,
    hasBytes_lineBytes hal fun _ _ => rfl, rfl, rfl, rfl, rfl, rfl, fun _ => rfl,
    sameSpecial_of _ _ rfl rfl rfl rfl rfl rfl⟩

/-! ### Parts one after another -/

/-- What holds of every byte of an operand holds of every byte of its parts, and the other way round. -/
theorem forall_operand_iff {P : Nat → Prop} {a : Nat} {w : Width} :
    (∀ i, i < w.bytes → P (a + i)) ↔ ∀ p ∈ split a w, ∀ i, i < p.2 → P (p.1 + i) := by
  constructor
  · intro h p hp i hi
    obtain ⟨h1, h2⟩ := part_sub hp
    have hx := h (p.1 - a + i) (by omega)
    rwa [show a + (p.1 - a + i) = p.1 + i by omega] at hx
  · intro h i hi
    obtain ⟨p, hp, h1, h2⟩ := part_cover (a := a) hi
    have hx := h p hp (a + i - p.1) (by omega)
    rwa [show p.1 + (a + i - p.1) = a + i by omega] at hx

/-- The parts' bytes of memory, from the lower part up, are the operand's. -/
theorem readRun_split (m : List Host.Cell) (a : Nat) (w : Width) :
    (split a w).reverse.flatMap (fun p => Memory.readRun m p.1 p.2) = Memory.readRun m a w.bytes := by
  have h := congrArg (List.map (Memory.read m)) (split_bytes a w)
  simp only [List.map_flatMap, List.map_map] at h
  exact h

/-- With no other master in between, the later parts of a read follow the first. -/
theorem readParts_cons_of_next {p : Nat × Nat} {rest : List (Nat × Nat)} {s : State} {r : List Byte × State}
    (h : readPart p.1 p.2 s = .next r) (hb : r.2.between = []) :
    readParts (p :: rest) s = andThen (readParts rest r.2) fun lower => .next (lower.1 ++ r.1, lower.2) := by
  cases rest with
  | nil => exact h
  | cons p' rest => simp only [readParts, h, andThen_next, interleave_alone hb]

theorem MeetsHole.readParts {p : Nat × Nat} {s : State} (h : MeetsHole s (readPart p.1 p.2 s))
    (rest : List (Nat × Nat)) : MeetsHole s (readParts (p :: rest) s) := by
  cases rest with
  | nil => exact h
  | cons p' rest => exact h.andThen _

/-! ### Misses in disabled mode -/

/-- An access that only the bus answers: no byte of memory and no cache changes, and these events are new. -/
structure OnBus (s t : State) (events : List BusEvent) : Prop where
  access : SameAccess s t
  mem : t.mem = s.mem
  dc : t.dc = s.dc
  history : t.history = events ++ s.history

theorem SameAccess.refl (s : State) : SameAccess s s := (SameCore.refl s).access rfl rfl

theorem SameAccess.cd {s t : State} (h : SameAccess s t) : t.cd = s.cd := by
  simp only [State.cd, h.special.1]

theorem SameAccess.runPopulated {s t : State} (h : SameAccess s t) (a n : Nat) :
    t.runPopulated a n ↔ s.runPopulated a n := by
  simp only [State.runPopulated, State.populated, h.platform]

theorem OnBus.trans {s t u : State} {e f : List BusEvent} (h : OnBus s t e) (h' : OnBus t u f) : OnBus s u (f ++ e) :=
  ⟨h.access.trans h'.access, h'.mem.trans h.mem, h'.dc.trans h.dc, by
    rw [h'.history, h.history, List.append_assoc]⟩

theorem readEvent_congr {s t : State} (hm : t.mem = s.mem) (hp : t.platform = s.platform) (first n : Nat) :
    t.readEvent first n = s.readEvent first n := by
  simp only [State.readEvent, State.pageAttr, State.pageAt, hm, hp]

/-- A part of a read that misses and may not fill is one bus read. -/
theorem readPart_onBus {first n : Nat} {s : State} (hp : PartInLine first n)
    (hm : s.dc.hit (lineOf (BitVec.ofNat 32 first)) = none)
    (hc : cacheable s (BitVec.ofNat 32 first) (s.loadDataTlb (BitVec.ofNat 32 first)).drawBit = false)
    (hpop : s.runPopulated first n) :
    ∃ t, readPart first n s = .next (Memory.readRun s.mem first n, t) ∧ OnBus s t [s.readEvent first n] :=
  ⟨_, readPart_bus_eq hp hm hc hpop,
    (sameAccess_loadDataTlb s (BitVec.ofNat 32 first)).trans (SameCore.access (by constructor <;> rfl) rfl rfl),
    rfl, rfl, rfl⟩

/-- The part of a read needs the bus in disabled mode. -/
structure BusPart (s : State) (p : Nat × Nat) : Prop where
  part : PartInLine p.1 p.2
  miss : s.dc.hit (lineOf (BitVec.ofNat 32 p.1)) = none

theorem OnBus.busPart {s t : State} {e : List BusEvent} (h : OnBus s t e) {p : Nat × Nat} (hp : BusPart s p) :
    BusPart t p := ⟨hp.part, by rw [h.dc]; exact hp.miss⟩

theorem readParts_onBus : ∀ (ps : List (Nat × Nat)) (s : State), s.cd = true → s.between = [] →
    (∀ p ∈ ps, BusPart s p) → (∀ p ∈ ps, s.runPopulated p.1 p.2) →
    ∃ t, readParts ps s = .next (ps.reverse.flatMap (fun p => Memory.readRun s.mem p.1 p.2), t) ∧
      OnBus s t (ps.map fun p => s.readEvent p.1 p.2).reverse
  | [], s, _, _, _, _ => ⟨s, rfl, .refl s, rfl, rfl, rfl⟩
  | p :: rest, s, hcd, hb, hps, hpop => by
    obtain ⟨hp, hrest⟩ := List.forall_mem_cons.1 hps
    obtain ⟨hpopp, hpoprest⟩ := List.forall_mem_cons.1 hpop
    obtain ⟨u, hu, hbus⟩ := readPart_onBus hp.part hp.miss (not_cacheable_of_cd hcd _ _) hpopp
    obtain ⟨t, ht, hbus'⟩ := readParts_onBus rest u (hbus.access.cd.trans hcd) (hbus.access.between.trans hb)
      (fun q hq => hbus.busPart (hrest q hq)) (fun q hq => (hbus.access.runPopulated _ _).2 (hpoprest q hq))
    simp only [hbus.mem, readEvent_congr hbus.mem hbus.access.platform] at ht hbus'
    refine ⟨t, ?_, by simpa using hbus.trans hbus'⟩
    rw [readParts_cons_of_next hu (hbus.access.between.trans hb), ht]
    simp [List.flatMap_append]

theorem stuck_readParts : ∀ (ps : List (Nat × Nat)) (s : State), s.cd = true → s.between = [] →
    (∀ p ∈ ps, BusPart s p) → (∃ p ∈ ps, ¬s.runPopulated p.1 p.2) → MeetsHole s (readParts ps s)
  | [], _, _, _, _, h => by simp at h
  | p :: rest, s, hcd, hb, hps, h => by
    obtain ⟨hp, hrest⟩ := List.forall_mem_cons.1 hps
    have hc := not_cacheable_of_cd hcd (BitVec.ofNat 32 p.1) (s.loadDataTlb (BitVec.ofNat 32 p.1)).drawBit
    by_cases hpop : s.runPopulated p.1 p.2
    · obtain ⟨u, hu, hbus⟩ := readPart_onBus hp.part hp.miss hc hpop
      have hb' := hbus.access.between.trans hb
      have hlater : ∃ q ∈ rest, ¬u.runPopulated q.1 q.2 := by
        obtain ⟨q, hq, hhole⟩ := h
        rcases List.mem_cons.1 hq with rfl | hq
        · exact absurd hpop hhole
        · exact ⟨q, hq, mt (hbus.access.runPopulated _ _).1 hhole⟩
      rw [readParts_cons_of_next hu hb']
      exact ((stuck_readParts rest u (hbus.access.cd.trans hcd) hb' (fun q hq => hbus.busPart (hrest q hq))
        hlater).andThen _).of_platform hbus.access.platform
    · exact (stuck_readPart_bus hp.part hp.miss hc hpop).readParts rest

theorem runPopulated_operand {s : State} {a : Nat} {w : Width} :
    s.runPopulated a w.bytes ↔ ∀ p ∈ split a w, s.runPopulated p.1 p.2 :=
  forall_operand_iff (P := fun x => s.populated x = true)

/-- Where no byte of an operand hits, no part does. -/
theorem busPart_of_miss {s : State} {a : Nat} {w : Width} (hw : a + w.bytes ≤ 4294967296)
    (hm : ∀ i, i < w.bytes → s.dc.hit (lineOf (BitVec.ofNat 32 (a + i))) = none) : ∀ p ∈ split a w, BusPart s p := by
  intro p hp
  have hpart := split_parts hw p hp
  exact ⟨hpart, (forall_operand_iff (P := fun x => s.dc.hit (lineOf (BitVec.ofNat 32 x)) = none)).1 hm p hp 0 hpart.1⟩

/-- Settles O32: the parts are bus reads one after another, up to one that meets a hole. -/
theorem readMissesInDisabledModeReadMemory : Obligations.ReadMissesInDisabledModeReadMemory := by
  intro s w a hcd hnw hb hw hm
  have hparts := busPart_of_miss hw hm
  rw [memRead_eq (hcd.trans hnw.symm) hw]
  refine ⟨fun hpop => ?_, fun hpop => ?_⟩
  · obtain ⟨t, ht, hbus⟩ := readParts_onBus _ s hcd hb hparts (runPopulated_operand.1 hpop)
    rw [readRun_split] at ht
    exact ⟨_, t, by rw [ht]; rfl, hasBytes_readRun _ _ w, hbus.mem, ⟨hbus.dc, hbus.access.cc⟩, hbus.access.pc,
      sameRegs_of hbus.access.regs, hbus.access.special, hbus.history⟩
  · rw [runPopulated_operand] at hpop
    push Not at hpop
    exact (stuck_readParts _ s hcd hb hparts hpop).andThen _

/-! ### Misses -/

/-- The tests before a data read. -/
theorem memRead_refusals (s : State) (w : Width) (a : Dword) :
    (s.cd ≠ s.nw → memRead w a s = .refused .cr0ModeNotInSource) ∧
      (s.cd = s.nw → 4294967296 < a.toNat + w.bytes → memRead w a s = .refused .addressWrap) := by
  refine ⟨fun hm => ?_, fun hm hw => ?_⟩
  · rw [memRead, if_neg (by simpa [State.modeInSource] using hm)]
  · rw [memRead, if_pos (by simp [State.modeInSource, hm]), if_neg (mt operandWf_iff.1 (by omega))]

section
variable {s : State} {w : Width} {a : Dword} (hcd : s.cd = s.nw) (hw : a.toNat + w.bytes ≤ 4294967296)
  (hal : misaligned a.toNat w = false) (hm : s.dc.hit (lineOf a) = none)
include hcd hw hal hm

theorem memRead_onBus (hc : cacheable s a (s.loadDataTlb a).drawBit = false) (hpop : s.runPopulated a.toNat w.bytes) :
    ∃ v t, memRead w a s = .next (v, t) ∧ HasBytes v w.bytes (fun i => Memory.read s.mem (a.toNat + i)) ∧
      SameCaches s t ∧ t.mem = s.mem ∧ t.history = s.readEvent a.toNat w.bytes :: s.history ∧ t.pc = s.pc ∧
      SameRegs s t ∧ SameSpecial s t := by
  obtain ⟨t, ht, hbus⟩ := readPart_onBus (s := s) (part_of_aligned hal hw) (by rwa [ofNat_toNat32])
    (by rwa [ofNat_toNat32]) hpop
  exact ⟨_, t, by rw [memRead_aligned hcd hw hal, ht]; rfl, hasBytes_readRun _ _ w, ⟨hbus.dc, hbus.access.cc⟩, hbus.mem,
    hbus.history, hbus.access.pc, sameRegs_of hbus.access.regs, hbus.access.special⟩

theorem stuck_memRead_onBus (hc : cacheable s a (s.loadDataTlb a).drawBit = false)
    (hpop : ¬s.runPopulated a.toNat w.bytes) : MeetsHole s (memRead w a s) := by
  rw [memRead_aligned hcd hw hal]
  exact (stuck_readPart_bus (part_of_aligned hal hw) (by rwa [ofNat_toNat32]) (by rwa [ofNat_toNat32]) hpop).andThen _

theorem stuck_memRead_fill (hb : s.between = []) (hc : cacheable s a (s.loadDataTlb a).drawBit = true)
    (h : ¬LinePopulated s (lineOf a) ∨
      ∀ draw, VictimAtHole s (lineSet (lineOf a)) (s.dc.victim (lineSet (lineOf a)) draw)) :
    MeetsHole s (memRead w a s) := by
  rw [memRead_aligned hcd hw hal]
  exact (stuck_readPart_fill hb (by rwa [ofNat_toNat32]) (by rwa [ofNat_toNat32]) (by rwa [ofNat_toNat32])).andThen _

theorem memRead_fill (i : s.Inv) (hb : s.between = []) (hc : cacheable s a (s.loadDataTlb a).drawBit = true)
    (hp : LinePopulated s (lineOf a)) (hv : s.ModifiedLinesPopulated) :
    ∃ v t l, memRead w a s = .next (v, t) ∧ HasBytes v w.bytes (fun i => Memory.read s.mem (a.toNat + i)) ∧
      DataLineFilled s t (lineOf a) l ∧ SameAccess s t := by
  obtain ⟨l, t, ht, hf, hacc⟩ := readPart_fill (first := a.toNat) (n := w.bytes) i hb (by rwa [ofNat_toNat32])
    (by rwa [ofNat_toNat32]) (by rwa [ofNat_toNat32]) hv
  rw [ofNat_toNat32] at ht hf
  refine ⟨_, t, l, by rw [memRead_aligned hcd hw hal, ht]; rfl, hasBytes_lineBytes hal fun j hj => ?_, hf, hacc⟩
  have hline := aligned_in_line hal
  rw [hf.data _ (by omega), toNat_lineOf]
  congr 1
  omega

end

/-! ### Any operand -/

/-- The lines of two addresses less than a line apart are one, or lie in different sets. -/
theorem same_line_or_other_set {a b : Nat} (h1 : a ≤ b) (h2 : b < a + 32) (hb : b < 4294967296) :
    lineOf (BitVec.ofNat 32 a) = lineOf (BitVec.ofNat 32 b) ∨
      lineSet (lineOf (BitVec.ofNat 32 a)) ≠ lineSet (lineOf (BitVec.ofNat 32 b)) := by
  simp only [ne_eq, ← BitVec.toNat_inj, toNat_lineSet, toNat_lineOf, BitVec.toNat_ofNat]
  omega

/-- A data read, of two parts or one, completes where the memory its parts may need is there. -/
theorem readParts_split_alone {s : State} {a : Nat} {w : Width} (g : s.Good) (hb : s.between = [])
    (hv : s.ModifiedLinesPopulated) (hw : a + w.bytes ≤ 4294967296)
    (hpop : ∀ p ∈ split a w, ReadPopulated s p.1 p.2) :
    ∃ r, readParts (split a w) s = .next r ∧ SameAccess s r.2 := by
  have hpart := split_parts (w := w) hw
  cases hal : misaligned a w with
  | false =>
    simp only [split_of_aligned hal, List.forall_mem_singleton] at hpart hpop ⊢
    obtain ⟨r, hr, hacc, -⟩ := readPart_alone g hb hpart hv hpop
    exact ⟨r, hr, hacc⟩
  | true =>
    obtain ⟨b, h1, h2, hsplit⟩ := split_two hal
    rw [hsplit] at hpart hpop ⊢
    simp only [List.forall_mem_cons] at hpart hpop
    have hle := bytes_le w
    exact readParts_two g hb hv hpart.1 hpart.2.1 hpop.1 hpop.2.1
      (same_line_or_other_set (by omega) (by omega) (by omega))

/-- What is asked of memory byte by byte gives what each part may need. -/
theorem readPopulated_split {s : State} {a : Nat} {w : Width} (hw : a + w.bytes ≤ 4294967296)
    (h : ∀ i, i < w.bytes → s.dc.hit (lineOf (BitVec.ofNat 32 (a + i))) = none →
      s.populated (a + i) = true ∧ (cacheable s (BitVec.ofNat 32 (a + i)) false = true →
        s.runPopulated (32 * ((a + i) / 32)) 32)) : ∀ p ∈ split a w, ReadPopulated s p.1 p.2 := by
  intro p hp hm
  have hpart := split_parts hw p hp
  have hbyte := (forall_operand_iff (P := fun x => s.dc.hit (lineOf (BitVec.ofNat 32 x)) = none →
    s.populated x = true ∧ (cacheable s (BitVec.ofNat 32 x) false = true → s.runPopulated (32 * (x / 32)) 32))).1 h p hp
  refine ⟨fun i hi => (hbyte i hi (by rwa [part_line hpart hi])).1, fun hc => ?_⟩
  rw [linePopulated_lineOf, part_toNat hpart]
  exact (hbyte 0 hpart.1 hm).2 hc

theorem noWriteBetween_of_nil {s : State} (hb : s.between = []) : s.NoWriteBetween := fun ms h => by
  rw [hb] at h; exact absurd h List.not_mem_nil

/-- Settles O33: the refusals, an operand of one part that misses, by whether it may fill and meets a hole, and any
operand. -/
theorem readMissRule : Obligations.ReadMissRule := by
  refine ⟨memRead_refusals, fun s w a i hcd hb hw => ⟨fun hal hm => stuck_memRead_onBus hcd hw hal hm,
    fun hal hm hc h => ?_, fun hal hm => memRead_onBus hcd hw hal hm, fun hal hm hc hp hv => ?_,
    fun hclean hv hpop => ?_⟩⟩
  · refine stuck_memRead_fill hcd hw hal hm hb hc (h.imp (mt linePopulated_lineOf.1) fun h draw => h draw)
  · have ha := toNat_lineOf a
    obtain ⟨v, t, l, ht, hbytes, hf, hacc⟩ := memRead_fill hcd hw hal hm i hb hc (linePopulated_lineOf.2 hp) hv
    obtain ⟨order, writes, hperm, hwrites, hhist⟩ := hf.history
    rw [quadReads, ha] at hhist
    have hdata := hf.data
    rw [ha] at hdata
    exact ⟨v, t, l, ht, hbytes, hf.hit, hf.state, hdata, hf.place, hf.others, hf.mem,
      ⟨order, writes, hperm, hwrites, hhist⟩, hacc.cc, hacc.pc, sameRegs_of hacc.regs, hacc.special⟩
  · have g : s.Good := ⟨i, hclean, noWriteBetween_of_nil hb⟩
    obtain ⟨r, hr, hacc⟩ := readParts_split_alone g hb hv hw (readPopulated_split hw hpop)
    have hread : memRead w a s = .next (BitVec.ofNat 64 (littleEndian r.1), r.2) := by rw [memRead_eq hcd hw, hr]; rfl
    obtain ⟨hq, hval⟩ := quiet_memRead g hread
    refine ⟨_, r.2, hread, ?_, hq.view, hacc.cc, hacc.pc, sameRegs_of hacc.regs, hacc.special⟩
    dsimp only at hval
    rw [hval]
    exact hasBytes_viewRun s a.toNat w

end Sys2Proof.Machine
end

section
/-!
PROOFS. Data writes (20_memory.md R79): the refusals, the transitions of the line hit, misses in disabled mode, and
completion.
-/

namespace Sys2Proof.Machine

/-! ### Refusals -/

/-- The part has a byte in program text or in a line of the code cache. -/
def State.CodeAt (s : State) (p : Nat × Nat) : Prop :=
  ∃ i, i < p.2 ∧ (s.codeRange (p.1 + i) = true ∨ (s.cc.hit (lineOf (BitVec.ofNat 32 (p.1 + i)))).isSome = true)

/-- The part has a byte in a line of the data cache. -/
def State.HitAt (s : State) (p : Nat × Nat) : Prop :=
  ∃ i, i < p.2 ∧ (s.dc.hit (lineOf (BitVec.ofNat 32 (p.1 + i)))).isSome = true

/-- The part of a write is tested as a whole: its line in the code cache, and each byte in the program text. -/
theorem codeAt_iff {s : State} {p : Nat × Nat} (hp : PartInLine p.1 p.2) :
    s.CodeAt p ↔ ((s.cc.hit (lineOf (BitVec.ofNat 32 p.1))).isSome ||
      (List.range p.2).any (fun i => s.codeRange (p.1 + i))) = true := by
  simp only [State.CodeAt, Bool.or_eq_true, List.any_eq_true, List.mem_range]
  constructor
  · rintro ⟨i, hi, h | h⟩
    · exact .inr ⟨i, hi, h⟩
    · rw [part_line hp hi] at h; exact .inl h
  · rintro (h | ⟨i, hi, h⟩)
    · exact ⟨0, hp.1, .inr h⟩
    · exact ⟨i, hi, .inl h⟩

theorem hitAt_iff {s : State} {p : Nat × Nat} (hp : PartInLine p.1 p.2) :
    s.HitAt p ↔ (s.dc.hit (lineOf (BitVec.ofNat 32 p.1))).isSome = true := by
  constructor
  · rintro ⟨i, hi, h⟩; rwa [part_line hp hi] at h
  · exact fun h => ⟨0, hp.1, h⟩

theorem writeRefusal_code {s : State} {p : Nat × Nat} (hp : PartInLine p.1 p.2) (h : s.CodeAt p) :
    writeRefusal s p = some .storeToCode := if_pos ((codeAt_iff hp).1 h)

theorem writeRefusal_hit {s : State} {p : Nat × Nat} (hp : PartInLine p.1 p.2) (hc : ¬s.CodeAt p)
    (hcd : s.cd = true) (h : s.HitAt p) : writeRefusal s p = some .disabledModeWithValidLines :=
  (if_neg (mt (codeAt_iff hp).2 hc)).trans (if_pos (by simp only [Bool.and_eq_true]; exact ⟨hcd, (hitAt_iff hp).1 h⟩))

theorem writeRefusal_none {s : State} {p : Nat × Nat} (hp : PartInLine p.1 p.2) (hc : ¬s.CodeAt p)
    (h : ¬(s.cd = true ∧ s.HitAt p)) : writeRefusal s p = none :=
  (if_neg (mt (codeAt_iff hp).2 hc)).trans
    (if_neg (by rw [Bool.and_eq_true]; exact mt (And.imp_right (hitAt_iff hp).2) h))

/-- A property of some byte of an operand is one of some byte of a part. -/
theorem exists_operand_iff {P : Nat → Prop} {a : Nat} {w : Width} :
    (∃ i, i < w.bytes ∧ P (a + i)) ↔ ∃ p ∈ split a w, ∃ i, i < p.2 ∧ P (p.1 + i) := by
  have h := forall_operand_iff (P := fun x => ¬P x) (a := a) (w := w)
  rw [← not_iff_not]
  push Not
  exact h

/-- The first answer of a list is the one that every element gives, if it gives one, and some element does. -/
theorem findSome?_of_same {α β : Type} {f : α → Option β} {b : β} {l : List α} (h : ∃ x ∈ l, f x = some b)
    (hsame : ∀ x ∈ l, f x = none ∨ f x = some b) : l.findSome? f = some b := by
  obtain ⟨x, hx, hfx⟩ := h
  cases hl : l.findSome? f with
  | none => rw [List.findSome?_eq_none_iff.1 hl x hx] at hfx; cases hfx
  | some c =>
    obtain ⟨y, hy, hfy⟩ := List.exists_of_findSome?_eq_some hl
    rcases hsame y hy with h | h
    · rw [h] at hfy; cases hfy
    · rw [← hfy, h]

/-- A write is refused as the first part is that is refused. -/
theorem memWrite_refused {s : State} {w : Width} {a : Dword} {v : Qword} {r : Refusal} (hm : s.cd = s.nw)
    (hw : a.toNat + w.bytes ≤ 4294967296) (h : (split a.toNat w).findSome? (writeRefusal s) = some r) :
    memWrite w a v s = .refused r := by
  rw [memWrite_eq hm hw, h]

/-- The tests before a data write. -/
theorem memWrite_refusals (s : State) (w : Width) (a : Dword) (v : Qword) :
    (s.cd ≠ s.nw → memWrite w a v s = .refused .cr0ModeNotInSource) ∧
      (s.cd = s.nw → 4294967296 < a.toNat + w.bytes → memWrite w a v s = .refused .addressWrap) := by
  refine ⟨fun hm => ?_, fun hm hw => ?_⟩
  · rw [memWrite, if_neg (by simpa [State.modeInSource] using hm)]
  · rw [memWrite, if_pos (by simp [State.modeInSource, hm]), if_neg (mt operandWf_iff.1 (by omega))]

/-- Settles O36: each part's test gives one answer, and the first part that answers decides. -/
theorem dataWriteRefusals : Obligations.DataWriteRefusals := by
  intro s w a v
  have hparts (hw : a.toNat + w.bytes ≤ 4294967296) := split_parts (a := a.toNat) (w := w) hw
  have hcode := exists_operand_iff (a := a.toNat) (w := w) (P := fun x => s.codeRange x = true ∨
    (s.cc.hit (lineOf (BitVec.ofNat 32 x))).isSome = true)
  have hhit := exists_operand_iff (a := a.toNat) (w := w) (P := fun x =>
    (s.dc.hit (lineOf (BitVec.ofNat 32 x))).isSome = true)
  refine ⟨(memWrite_refusals s w a v).1, (memWrite_refusals s w a v).2, fun hm hw hc hnh => ?_,
    fun hcd hnw hw hnc hh => ?_, fun earlier later p hcd hnw hw hsplit hearlier => ?_⟩
  · refine memWrite_refused hm hw (findSome?_of_same ?_ fun q hq => ?_)
    · obtain ⟨q, hq, h⟩ := hcode.1 hc
      exact ⟨q, hq, writeRefusal_code (hparts hw q hq) h⟩
    · by_cases hq' : s.CodeAt q
      · exact .inr (writeRefusal_code (hparts hw q hq) hq')
      · refine .inl (writeRefusal_none (hparts hw q hq) hq' fun ⟨hcd, h⟩ => ?_)
        exact hnh.elim (fun hf => Bool.false_ne_true (hf.symm.trans hcd)) (fun hn => hn (hhit.2 ⟨q, hq, h⟩))
  · have hnc' : ∀ q ∈ split a.toNat w, ¬s.CodeAt q := fun q hq h => hnc (hcode.2 ⟨q, hq, h⟩)
    refine memWrite_refused (hcd.trans hnw.symm) hw (findSome?_of_same ?_ fun q hq => ?_)
    · obtain ⟨q, hq, h⟩ := hhit.1 hh
      exact ⟨q, hq, writeRefusal_hit (hparts hw q hq) (hnc' q hq) hcd h⟩
    · by_cases hq' : s.HitAt q
      · exact .inr (writeRefusal_hit (hparts hw q hq) (hnc' q hq) hcd hq')
      · exact .inl (writeRefusal_none (hparts hw q hq) (hnc' q hq) fun h => hq' h.2)
  · have hpart := hparts hw
    rw [hsplit] at hpart
    have hnone : earlier.findSome? (writeRefusal s) = none := List.findSome?_eq_none_iff.2 fun q hq =>
      writeRefusal_none (hpart q (List.mem_append_left _ hq)) (hearlier q hq).1 fun h => (hearlier q hq).2 h.2
    have hp := hpart p (List.mem_append_right _ List.mem_cons_self)
    have hfirst : ∀ r, writeRefusal s p = some r → memWrite w a v s = .refused r := fun r hr =>
      memWrite_refused (hcd.trans hnw.symm) hw (by
        rw [hsplit, List.findSome?_append, hnone, List.findSome?_cons, hr]; rfl)
    exact ⟨fun hc => hfirst _ (writeRefusal_code hp hc), fun hc hh => hfirst _ (writeRefusal_hit hp hc hcd hh)⟩

/-! ### The transitions of the line hit (20_memory.md R73) -/

/-- The line after a write of these bytes at an address in it, in this state. -/
def CacheLine.written (l : CacheLine DataState) (a : Dword) (bytes : List Byte) (state : DataState) :
    CacheLine DataState :=
  { l with data := putLineBytes l.data (offsetOf a) bytes, state := state }

/-- A part of a write that hits a line in M or E changes the line only. -/
theorem writePart_exclusive {s : State} {first : Nat} {bytes : List Byte} {l : CacheLine DataState}
    (h : s.dc.hit (lineOf (BitVec.ofNat 32 first)) = some l) (hs : l.state = .M ∨ l.state = .E) :
    ∃ t, writePart first bytes s = .next t ∧ t.mem = s.mem ∧ t.history = s.history ∧
      t.dc.lines = (s.dc.put (l.written (BitVec.ofNat 32 first) bytes .M)).lines := by
  have h' : (s.loadDataTlb (BitVec.ofNat 32 first)).dc.hit (lineOf (BitVec.ofNat 32 first)) = some l := h
  unfold writePart
  dsimp only [translate]
  rw [h']
  rcases hs with hs | hs
  · simp only [hs]
    refine ⟨_, rfl, rfl, rfl, ?_⟩
    rw [CacheLine.written, ← hs]
    rfl
  · simp only [hs]
    exact ⟨_, rfl, rfl, rfl, rfl⟩

/-- A part of a write that hits a line in S changes the line and memory, by one bus write. -/
theorem writePart_shared {s : State} {first : Nat} {bytes : List Byte} {l : CacheLine DataState}
    (hp : PartInLine first bytes.length) (h : s.dc.hit (lineOf (BitVec.ofNat 32 first)) = some l) (hs : l.state = .S)
    (hpop : s.runPopulated first bytes.length) :
    ∃ t state, writePart first bytes s = .next t ∧ (state = .S ∨ state = .E) ∧
      t.mem = Memory.writeRun s.mem first bytes ∧ t.history = s.writeEvent first bytes :: s.history ∧
      t.dc.lines = (s.dc.put (l.written (BitVec.ofNat 32 first) bytes state)).lines := by
  have hbus := busWrite_populated (s := s.loadDataTlb (BitVec.ofNat 32 first)) (a := BitVec.ofNat 32 first)
    (bytes := bytes) (by rw [part_toNat hp]; exact hpop)
  rw [part_toNat hp] at hbus
  have h' : (s.loadDataTlb (BitVec.ofNat 32 first)).dc.hit (lineOf (BitVec.ofNat 32 first)) = some l := h
  unfold writePart
  dsimp only [translate]
  rw [h']
  simp only [hs, hbus, andThen_next]
  refine ⟨_, _, rfl, ?_, rfl, rfl, rfl⟩
  split
  · exact .inr rfl
  · exact .inl rfl

/-- A line written is hit where it was, and no other line address is. -/
theorem hit_of_written {s t : State} {a : Dword} {l : CacheLine DataState} {bytes : List Byte} {state : DataState}
    (i : s.Inv) (h : s.dc.hit (lineOf a) = some l) (ht : t.dc.lines = (s.dc.put (l.written a bytes state)).lines) :
    t.dc.hit (lineOf a) = some (l.written a bytes state) ∧ SameOtherLines s t (lineOf a) := by
  obtain ⟨hl, ha⟩ := hit_spec h
  refine ⟨?_, fun other hne => ?_⟩
  · rw [hit_of_lines ht, ← ha]
    exact hit_put_same i.dc hl rfl rfl
  · rw [hit_of_lines ht]
    exact hit_put_other (l' := l.written a bytes state) i.dc hl rfl rfl (by rwa [ha])

/-- Settles O37, by the state of the line hit. -/
theorem dataWriteTransitions : Obligations.DataWriteTransitions := by
  intro s w a v i hcd hnw hw hal hcc hcr
  have hlen := length_bytesOf v w.bytes
  have hpart : PartInLine a.toNat (bytesOf v w.bytes).length := by rw [hlen]; exact part_of_aligned hal hw
  have hline : lineOf (BitVec.ofNat 32 a.toNat) = lineOf a := by rw [ofNat_toNat32]
  have hone := memWrite_one (v := v) hcd hnw hw hal hcc hcr
  have hcc' {t : State} (ht : memWrite w a v s = .next t) : t.cc = s.cc := (writePart_frame (hone ▸ ht)).cc
  refine ⟨fun l hl hs => ?_, fun l hl hs hpop => ?_, fun hm hpop => ?_, fun hm hpop => ?_⟩
  · obtain ⟨t, ht, hmem, hhist, hdc⟩ := writePart_exclusive (bytes := bytesOf v w.bytes) (hline ▸ hl) hs
    rw [ofNat_toNat32] at hdc
    obtain ⟨hhit, hother⟩ := hit_of_written i hl hdc
    exact ⟨t, _, hone.trans ht, hmem, hhist, hcc' (hone.trans ht), hhit, rfl, lineByte_updated l .M, hother⟩
  · obtain ⟨t, state, ht, hstate, hmem, hhist, hdc⟩ := writePart_shared hpart (hline ▸ hl) hs (hlen.symm ▸ hpop)
    rw [ofNat_toNat32] at hdc
    obtain ⟨hhit, hother⟩ := hit_of_written i hl hdc
    exact ⟨t, _, hone.trans ht, fun x => by rw [hmem]; exact read_written s v x, hhist, hcc' (hone.trans ht), hhit,
      hstate, lineByte_updated l state, hother⟩
  · obtain ⟨t, ht, hmem, hdc, hhist⟩ := writePart_miss hpart (hline ▸ hm) (hlen.symm ▸ hpop)
    exact ⟨t, hone.trans ht, fun x => by rw [hmem]; exact read_written s v x, hhist, hdc, hcc' (hone.trans ht)⟩
  · rw [hone]
    exact stuck_writePart hpart (hline ▸ hm) (hlen.symm ▸ hpop)

/-! ### Parts one after another -/

/-- The bytes of a part of the operand at `addr`. -/
def partBytes (addr : Nat) (bytes : List Byte) (p : Nat × Nat) : List Byte :=
  (bytes.drop (p.1 - addr)).take p.2

theorem length_partBytes {addr : Nat} {bytes : List Byte} {p : Nat × Nat} (h1 : addr ≤ p.1)
    (h2 : p.1 + p.2 ≤ addr + bytes.length) : (partBytes addr bytes p).length = p.2 := by
  simp only [partBytes, List.length_take, List.length_drop]; omega

/-- The parts' bytes of an operand fill them. -/
theorem length_partBytes_split {a : Nat} {w : Width} {v : Qword} {p : Nat × Nat} (hp : p ∈ split a w) :
    (partBytes a (bytesOf v w.bytes) p).length = p.2 := by
  obtain ⟨h1, h2⟩ := part_sub hp
  exact length_partBytes h1 (by rwa [length_bytesOf])

/-- With no other master in between, the later parts of a write follow the first. -/
theorem writeParts_cons_of_next {addr : Nat} {bytes : List Byte} {p : Nat × Nat} {rest : List (Nat × Nat)} {s u : State}
    (h : writePart p.1 (partBytes addr bytes p) s = .next u) (hb : u.between = []) :
    writeParts addr bytes (p :: rest) s = writeParts addr bytes rest u := by
  rw [partBytes] at h
  cases rest with
  | nil => exact h
  | cons p' rest => simp only [writeParts, h, andThen_next, interleave_alone hb]

theorem MeetsHole.writeParts {addr : Nat} {bytes : List Byte} {p : Nat × Nat} {s : State}
    (h : MeetsHole s (writePart p.1 (partBytes addr bytes p) s)) (rest : List (Nat × Nat)) :
    MeetsHole s (writeParts addr bytes (p :: rest) s) := by
  cases rest with
  | nil => exact h
  | cons p' rest => exact h.andThen _

/-- The part lies in one line, and its bytes fill it. -/
structure WritePart (addr : Nat) (bytes : List Byte) (p : Nat × Nat) : Prop where
  part : PartInLine p.1 p.2
  length : (partBytes addr bytes p).length = p.2

theorem writePart_split {a : Nat} {w : Width} (v : Qword) (hw : a + w.bytes ≤ 4294967296) :
    ∀ p ∈ split a w, WritePart a (bytesOf v w.bytes) p :=
  fun p hp => ⟨split_parts hw p hp, length_partBytes_split hp⟩

theorem WritePart.partInLine {addr : Nat} {bytes : List Byte} {p : Nat × Nat} (h : WritePart addr bytes p) :
    PartInLine p.1 (partBytes addr bytes p).length := by rw [h.length]; exact h.part

/-- With no other master in between, parts at which memory is are written, whether they hit or miss. -/
theorem writeParts_complete {addr : Nat} {bytes : List Byte} : ∀ (ps : List (Nat × Nat)) (s : State), s.between = [] →
    (∀ p ∈ ps, WritePart addr bytes p) → (∀ p ∈ ps, s.runPopulated p.1 p.2) →
    ∃ t, writeParts addr bytes ps s = .next t ∧ SameAccess s t
  | [], s, _, _, _ => ⟨s, rfl, .refl s⟩
  | p :: rest, s, hb, hps, hpop => by
    obtain ⟨hp, hrest⟩ := List.forall_mem_cons.1 hps
    obtain ⟨hpopp, hpoprest⟩ := List.forall_mem_cons.1 hpop
    obtain ⟨u, hu⟩ := writePart_completes hp.partInLine (hp.length.symm ▸ hpopp)
    have hacc := writePart_frame hu
    have hb' := hacc.between.trans hb
    obtain ⟨t, ht, hacc'⟩ := writeParts_complete rest u hb' hrest
      fun q hq => (hacc.runPopulated _ _).2 (hpoprest q hq)
    exact ⟨t, (writeParts_cons_of_next hu hb').trans ht, hacc.trans hacc'⟩

/-! ### Misses in disabled mode -/

/-- Memory after bus writes of these parts, one after another. -/
def writtenParts (addr : Nat) (bytes : List Byte) (ps : List (Nat × Nat)) (m : List Host.Cell) : List Host.Cell :=
  ps.foldl (fun m p => Memory.writeRun m p.1 (partBytes addr bytes p)) m

/-- Two runs that meet are written as one. -/
theorem read_writeRun_halves (m : List Host.Cell) (a : Nat) {k : Nat} {bytes : List Byte} (hk : k ≤ bytes.length)
    (x : Nat) : Memory.read (Memory.writeRun (Memory.writeRun m (a + k) (bytes.drop k)) a (bytes.take k)) x =
      Memory.read (Memory.writeRun m a bytes) x := by
  have htake : (bytes.take k).length = k := by simp [hk]
  have hdrop : (bytes.drop k).length = bytes.length - k := by simp
  by_cases hin : a ≤ x ∧ x < a + bytes.length
  · have hall := Memory.read_writeRun_inside bytes m a (x - a) (by omega)
    rw [show a + (x - a) = x by omega] at hall
    rw [hall]
    by_cases hlow : x < a + k
    · have hlower := Memory.read_writeRun_inside (bytes.take k) (Memory.writeRun m (a + k) (bytes.drop k)) a (x - a)
        (by omega)
      rwa [show a + (x - a) = x by omega, List.getElem_take] at hlower
    · have hupper := Memory.read_writeRun_inside (bytes.drop k) m (a + k) (x - (a + k)) (by omega)
      rw [show a + k + (x - (a + k)) = x by omega, List.getElem_drop] at hupper
      rw [Memory.read_writeRun_outside _ _ _ (by omega), hupper]
      congr 1
      omega
  · rw [Memory.read_writeRun_outside _ _ _ (by omega), Memory.read_writeRun_outside _ _ _ (by omega),
      Memory.read_writeRun_outside _ _ _ (by omega)]

/-- The parts of an operand are written as the operand is. -/
theorem read_writtenParts_split (a : Nat) (w : Width) (bytes : List Byte) (hlen : bytes.length = w.bytes)
    (m : List Host.Cell) (x : Nat) :
    Memory.read (writtenParts a bytes (split a w) m) x = Memory.read (Memory.writeRun m a bytes) x := by
  cases hal : misaligned a w with
  | false =>
    rw [split_of_aligned hal]
    simp [writtenParts, partBytes, ← hlen]
  | true =>
    obtain ⟨b, h1, h2, hsplit⟩ := split_two hal
    rw [hsplit, ← read_writeRun_halves m a (k := b - a) (by omega), show a + (b - a) = b by omega]
    simp only [writtenParts, List.foldl_cons, List.foldl_nil, partBytes, Nat.sub_self, List.drop_zero]
    rw [List.take_of_length_le (i := a + w.bytes - b) (by simp; omega)]

/-- The part of a write misses the data cache. -/
def State.MissesData (s : State) (p : Nat × Nat) : Prop :=
  s.dc.hit (lineOf (BitVec.ofNat 32 p.1)) = none

/-- With no other master in between, parts that miss where memory is are bus writes one after another. -/
theorem writeParts_onBus {addr : Nat} {bytes : List Byte} : ∀ (ps : List (Nat × Nat)) (s : State), s.between = [] →
    (∀ p ∈ ps, WritePart addr bytes p) → (∀ p ∈ ps, s.MissesData p) → (∀ p ∈ ps, s.runPopulated p.1 p.2) →
    ∃ t, writeParts addr bytes ps s = .next t ∧ SameAccess s t ∧ t.dc = s.dc ∧
      t.mem = writtenParts addr bytes ps s.mem ∧
      t.history = (ps.map fun p => s.writeEvent p.1 (partBytes addr bytes p)).reverse ++ s.history
  | [], s, _, _, _, _ => ⟨s, rfl, .refl s, rfl, rfl, rfl⟩
  | p :: rest, s, hb, hps, hmiss, hpop => by
    obtain ⟨hp, hrest⟩ := List.forall_mem_cons.1 hps
    obtain ⟨hm, hmrest⟩ := List.forall_mem_cons.1 hmiss
    obtain ⟨hpopp, hpoprest⟩ := List.forall_mem_cons.1 hpop
    obtain ⟨u, hu, hmem, hdc, hhist⟩ := writePart_miss hp.partInLine hm (hp.length.symm ▸ hpopp)
    have hacc := writePart_frame hu
    have hb' := hacc.between.trans hb
    obtain ⟨t, ht, hacc', hdc', hmem', hhist'⟩ := writeParts_onBus rest u hb' hrest
      (fun q hq => by rw [State.MissesData, hdc]; exact hmrest q hq)
      (fun q hq => (hacc.runPopulated _ _).2 (hpoprest q hq))
    refine ⟨t, (writeParts_cons_of_next hu hb').trans ht, hacc.trans hacc', hdc'.trans hdc, ?_, ?_⟩
    · rw [hmem', hmem]; rfl
    · rw [hhist', hhist]
      simp [writeEvent_congr hacc.platform]

/-- With no other master in between, parts that miss are written up to one that meets a hole. -/
theorem stuck_writeParts {addr : Nat} {bytes : List Byte} : ∀ (ps : List (Nat × Nat)) (s : State), s.between = [] →
    (∀ p ∈ ps, WritePart addr bytes p) → (∀ p ∈ ps, s.MissesData p) → (∃ p ∈ ps, ¬s.runPopulated p.1 p.2) →
    MeetsHole s (writeParts addr bytes ps s)
  | [], _, _, _, _, h => by simp at h
  | p :: rest, s, hb, hps, hmiss, h => by
    obtain ⟨hp, hrest⟩ := List.forall_mem_cons.1 hps
    obtain ⟨hm, hmrest⟩ := List.forall_mem_cons.1 hmiss
    by_cases hpop : s.runPopulated p.1 p.2
    · obtain ⟨u, hu, -, hdc, -⟩ := writePart_miss hp.partInLine hm (hp.length.symm ▸ hpop)
      have hacc := writePart_frame hu
      have hb' := hacc.between.trans hb
      have hlater : ∃ q ∈ rest, ¬u.runPopulated q.1 q.2 := by
        obtain ⟨q, hq, hhole⟩ := h
        rcases List.mem_cons.1 hq with rfl | hq
        · exact absurd hpop hhole
        · exact ⟨q, hq, mt (hacc.runPopulated _ _).1 hhole⟩
      rw [writeParts_cons_of_next hu hb']
      exact (stuck_writeParts rest u hb' hrest (fun q hq => by rw [State.MissesData, hdc]; exact hmrest q hq)
        hlater).of_platform hacc.platform
    · exact (stuck_writePart hp.partInLine (.inl hm) (hp.length.symm ▸ hpop)).writeParts rest

/-- Settles O38: the parts are bus writes one after another, up to one that meets a hole. -/
theorem writesInDisabledModeGoToMemory : Obligations.WritesInDisabledModeGoToMemory := by
  intro s w a v hcd hnw hb hw h
  have hparts := writePart_split v hw
  have hmiss : ∀ p ∈ split a.toNat w, s.MissesData p := fun p hp =>
    (busPart_of_miss hw (fun i hi => (h i hi).2.2) p hp).miss
  rw [memWrite_admitted (hcd.trans hnw.symm) hw fun i hi => ⟨(h i hi).1, (h i hi).2.1, fun _ => (h i hi).2.2⟩]
  refine ⟨fun hpop => ?_, fun hpop => ?_⟩
  · obtain ⟨t, ht, hacc, hdc, hmem, hhist⟩ := writeParts_onBus _ s hb hparts hmiss (runPopulated_operand.1 hpop)
    refine ⟨t, ht, fun x => ?_, ⟨hdc, hacc.cc⟩, hacc.pc, sameRegs_of hacc.regs, hacc.special,
      fun x => congrArg (Memory.read · x) hacc.io, hhist⟩
    rw [hmem, read_writtenParts_split _ _ _ (length_bytesOf v w.bytes), read_written]
  · rw [runPopulated_operand] at hpop
    push Not at hpop
    exact stuck_writeParts _ s hb hparts hmiss hpop

/-! ### Completion -/

/-- Settles O39: no part is refused and each completes; what is then read, the store of the one copy says. -/
theorem dataWritesComplete : Obligations.DataWritesComplete := by
  intro s w a v i hclean hm hb hw hpop h
  have g : s.Good := ⟨i, hclean, noWriteBetween_of_nil hb⟩
  obtain ⟨t, ht, hacc⟩ := writeParts_complete _ s hb (writePart_split v hw) (runPopulated_operand.1 hpop)
  have hwrite := (memWrite_admitted hm hw h).trans ht
  obtain ⟨hin, hout⟩ := (stored_memWrite g hwrite).operand
  exact ⟨t, hwrite, hin, hout, hacc.cc, hacc.pc, sameRegs_of hacc.regs, hacc.special⟩

end Sys2Proof.Machine
end

section
/-!
PROOFS. The decoder and the opcode table, and the step that fetches, decodes and executes.
-/

namespace Sys2Proof

/-! ### The decoder (30_encoding.md R89 to R94) -/

theorem decode_encode (i : Instr) (rest : List Byte) : decode (encode i ++ rest) = .ok (i, rest) := by
  cases i <;> rfl

theorem encode_length (i : Instr) : (encode i).length = 2 := by cases i <;> rfl

/-- What decodes is an encoding and the rest after it. -/
theorem eq_encode_of_decode {bytes rest : List Byte} {i : Instr} (h : decode bytes = .ok (i, rest)) :
    bytes = encode i ++ rest := by
  rcases bytes with _ | ⟨escape, _ | ⟨opcode, tail⟩⟩
  · cases h
  · cases h
  · simp only [decode] at h
    split at h
    · next hescape =>
      subst hescape
      iterate 4
        split at h
        · next hopcode => subst hopcode; cases h; rfl
      cases h
    · cases h

/-- Two bytes decode exactly to the instruction they encode, and nothing is left over. -/
theorem decode_pair {b0 b1 : Byte} {i : Instr} {rest : List Byte} :
    decode [b0, b1] = .ok (i, rest) ↔ encode i = [b0, b1] ∧ rest = [] := by
  constructor
  · intro h
    have hbytes := eq_encode_of_decode h
    have hrest : rest = [] := by
      have hlength := congrArg List.length hbytes
      rw [List.length_append, encode_length] at hlength
      exact List.length_eq_zero_iff.1 (by simpa using hlength)
    rw [hrest, List.append_nil] at hbytes
    exact ⟨hbytes.symm, hrest⟩
  · rintro ⟨hbytes, rfl⟩
    rw [← hbytes, ← List.append_nil (encode i)]
    exact decode_encode i []

/-- Settles O2: an encoding decodes whatever follows it, and each branch that answers has read an encoding. -/
theorem decodeExactlyTheEncodings : Obligations.DecodeExactlyTheEncodings := by
  intro bytes rest i
  exact ⟨eq_encode_of_decode, fun h => h ▸ decode_encode i rest⟩

/-- Settles O1: the four patterns are the four encodings, and the other three are computed. -/
theorem decodeTheFourPatterns : Obligations.DecodeTheFourPatterns :=
  ⟨decode_encode .invd [], decode_encode .wbinvd [], decode_encode .wrmsr [], decode_encode .rdmsr [], rfl, rfl, rfl⟩

/-! ### The opcode table (30_encoding.md R92) -/

theorem tableBytes_sixteen (w : Nat) : tableBytes 16 w = [BitVec.ofNat 8 (w >>> 8), BitVec.ofNat 8 w] := rfl

/-- A 16-bit table number selects the instruction that its two bytes encode. -/
theorem decodeTableWord_sixteen {w : Nat} {i : Instr} :
    decodeTableWord 16 w = some i ↔ encode i = [BitVec.ofNat 8 (w >>> 8), BitVec.ofNat 8 w] := by
  unfold decodeTableWord
  rw [tableBytes_sixteen]
  split
  · next j rest hd =>
    obtain ⟨hj, rfl⟩ := decode_pair.1 hd
    rw [Option.some.injEq]
    refine ⟨fun e => e ▸ hj, fun hi => ?_⟩
    have hdi := decode_pair.2 ⟨hi, rfl⟩
    rw [hd] at hdi
    cases hdi; rfl
  · next hd =>
    refine ⟨nofun, fun hi => ?_⟩
    rw [decode_pair.2 ⟨hi, rfl⟩] at hd
    cases hd

/-- Two bytes are those of a number exactly when they make up its low 16 bits, the first the high ones. -/
theorem pair_eq_tableBytes {w : Nat} {b0 b1 : Byte} :
    [b0, b1] = [BitVec.ofNat 8 (w >>> 8), BitVec.ofNat 8 w] ↔ w &&& 0xFFFF = 256 * b0.toNat + b1.toNat := by
  have hmask : w &&& 0xFFFF = w % 65536 := Nat.and_two_pow_sub_one_eq_mod w 16
  have h0 := b0.isLt
  have h1 := b1.isLt
  rw [hmask, List.cons.injEq, List.cons.injEq, ← BitVec.toNat_inj, ← BitVec.toNat_inj, BitVec.toNat_ofNat,
    BitVec.toNat_ofNat, Nat.shiftRight_eq_div_pow]
  simp only [and_true]
  omega

/-- Settles O3: the match value of a row is its encoding read as one number. -/
theorem tableNumberSelectsItsRow : Obligations.TableNumberSelectsItsRow := by
  intro w i
  rw [decodeTableWord_sixteen]
  cases i with
  | invd => exact pair_eq_tableBytes
  | wbinvd => exact pair_eq_tableBytes
  | wrmsr => exact pair_eq_tableBytes
  | rdmsr => exact pair_eq_tableBytes

end Sys2Proof

namespace Sys2Proof.Machine

/-! ### The step (30_encoding.md R130) -/

theorem nextMove_pc (s : State) : (nextMove s).2.pc = s.pc := (nextMove_text s).pc

theorem nextMove_platform (s : State) : (nextMove s).2.platform = s.platform := by rw [nextMove_state]

/-- In a described cache mode the processor's turn runs one instruction. -/
theorem step_processor {s : State} (hm : s.cd = s.nw) (hp : (nextMove s).1 = .processor) :
    step s = runInstruction (nextMove s).2 := by
  rw [step, if_pos (by simp [State.modeInSource, hm]), hp, performMove]

/-- Away from END_PC and the top of memory a fault of either byte fetch is the fetch's. -/
theorem fetchInstr_fault {s : State} {x : Fault} (he : s.platform.endPc ≠ some s.pc)
    (hw : s.pc.toNat + 2 < Config.memorySize)
    (h : fetchByte s.pc s = .fault x ∨ ∃ b0 u, fetchByte s.pc s = .next (b0, u) ∧ fetchByte (s.pc + 1) u = .fault x) :
    fetchInstr s = .fault x := by
  unfold fetchInstr
  rw [if_neg he, if_neg (Nat.not_le_of_lt hw)]
  rcases h with h0 | ⟨b0, u, h0, h1⟩
  · rw [h0, andThen_fault]
  · rw [h0, andThen_next, h1, andThen_fault]

/-- Settles O4: the instruction runs on what its fetch answers, and the fetch on what its two byte fetches do. -/
theorem stepRunsTheDecodedInstruction : Obligations.StepRunsTheDecodedInstruction := by
  intro s hm hp r
  rw [step_processor hm hp]
  rw [← nextMove_pc s, ← nextMove_platform s]
  refine ⟨fun i u h => ?_, fun i b0 b1 u v he hw h0 h1 hi => ?_, fun x he hw h => ?_, fun x h => ?_, fun x h => ?_⟩
  · rw [runInstruction, h, andThen_next]
  · exact runInstruction_of he hw h0 h1 (decode_pair.2 ⟨hi, rfl⟩)
  · rw [runInstruction, fetchInstr_fault he hw h, andThen_fault]
  · rw [runInstruction, h, andThen_fault]
  · rw [runInstruction, h, andThen_refused]

/-- Settles O10: the decoder answers no instruction on bytes that encode none. -/
theorem otherBytesAreRefused : Obligations.OtherBytesAreRefused := by
  intro s u v b0 b1 hm hp he hw h0 h1 hnone
  rw [← nextMove_pc s] at he hw h0 h1
  rw [← nextMove_platform s] at he
  rw [step_processor hm hp, runInstruction, fetchInstr_of he hw h0 h1]
  cases hd : decode [b0, b1] with
  | error e => rfl
  | ok r => exact absurd (decode_pair.1 hd).1 (hnone r.1)

/-- With CD set a fetch that misses and has memory reads it from the bus and leaves both caches. -/
theorem fetchByte_disabled {s : State} {a : Dword} (hcd : s.cd = true) (h : s.cc.hit (lineOf a) = none)
    (hp : s.populated a.toNat = true) :
    ∃ t, fetchByte a s = .next (Memory.read s.mem a.toNat, t) ∧ t.cc = s.cc ∧ Fetched s t [s.readEvent a.toNat 1] :=
  fetchByte_bus h (not_cacheable_of_cd hcd a _) hp

/-- Settles O5: the first byte's bus read leaves what the second one's depends on. -/
theorem stepFetchesFromMemoryInDisabledMode : Obligations.StepFetchesFromMemoryInDisabledMode := by
  intro s i rest hcd hnw hs he hw h0 h1 hp hd
  have hsucc := toNat_pc_succ hw
  obtain ⟨u, hu, huc, hfu⟩ := fetchByte_disabled hcd h0 (hp 0 (by decide))
  obtain ⟨v, hv, hvc, hfv⟩ := fetchByte_disabled (hfu.cd.trans hcd) ((hfu.hit _).trans h1)
    ((hfu.populated _).trans (hsucc ▸ hp 1 (by decide)))
  rw [hsucc, hfu.mem] at hv
  rw [hsucc, readEvent_congr hfu.mem hfu.same.platform] at hfv
  have hf := (hfu.trans hfv).markFetched s.pc
  exact ⟨v.markFetched s.pc, (step_run (hcd.trans hnw.symm) hs).trans (runInstruction_of he hw hu hv hd), hf.same.pc,
    sameRegs_of hf.same.regs, hf.same.special, hf.mem, hf.same.io, ⟨hf.dc, hvc.trans huc⟩,
    ⟨hf.same.platform, hf.same.schedule⟩, hf.between, hf.history⟩

end Sys2Proof.Machine
end

section
/-!
PROOFS. RDMSR and WRMSR on every state: the privilege test, the number test, and for each register the answer with its
frame (40_msr_access.md R96, R97).
-/

namespace Sys2Proof.Machine

/-- A value of ECX other than the three numbers names no register (10_state.md R29). -/
theorem ofNumber_eq_none {n : Dword} (h0 : n ≠ 0x00) (h1 : n ≠ 0x01) (he : n ≠ 0x0E) : MsrId.ofNumber n = none := by
  rw [MsrId.ofNumber, if_neg h0, if_neg h1, if_neg he]

/-! ### RDMSR (R96) -/

theorem rdmsr_privilege {s : State} (hcpl : s.cpl ≠ 0) : exec .rdmsr s = .refused .privilegeNotModelled :=
  if_neg hcpl

theorem rdmsr_undefined {s : State} (hcpl : s.cpl = 0) (hn : MsrId.ofNumber (s.reg .ecx) = none) :
    exec .rdmsr s = .fault (.msrUndefinedNumber (s.reg .ecx)) := by
  simp only [exec, execRdmsr, if_pos hcpl, hn]

theorem reg_edx_setEdxEax (s : State) (v : Qword) : (s.setEdxEax v).reg .edx = v.extractLsb' 32 32 := by
  rw [State.setEdxEax, reg_setReg_other _ _ (by decide), reg_setReg_same]

theorem reg_eax_setEdxEax (s : State) (v : Qword) : (s.setEdxEax v).reg .eax = v.extractLsb' 0 32 :=
  reg_setReg_same _ _ _

/-- A number with the bits inside a mask replaced by another's, bit for bit. -/
theorem getLsbD_merge {x d r : Qword} {i : Nat} (hi : i < 64) :
    ((x &&& ~~~r) ||| (d &&& r)).getLsbD i = if r.getLsbD i then d.getLsbD i else x.getLsbD i := by
  simp only [BitVec.getLsbD_or, BitVec.getLsbD_and, BitVec.getLsbD_not, hi, decide_true, Bool.true_and]
  cases r.getLsbD i <;> simp

/-- The two columns of the table of numbers, a register and its number, agree. -/
theorem number_of_mem {n : MsrId} {number : Dword} (h : (n, number) ∈
    [(MsrId.machineCheckAddress, (0x00 : Dword)), (.machineCheckType, 0x01), (.testRegister12, 0x0E)]) :
    number = n.number := by
  simp only [List.mem_cons, List.not_mem_nil, or_false, Prod.mk.injEq] at h
  obtain ⟨rfl, rfl⟩ | ⟨rfl, rfl⟩ | ⟨rfl, rfl⟩ := h <;> rfl

/-- Settles O11: the value read is the register with the draw merged into its reserved bits, and of the rest of the
state the draw, the write of EDX:EAX and the move of the pc leave what the frame says. -/
theorem rdmsrRule : Obligations.RdmsrRule := by
  refine ⟨rfl, fun s => ⟨rdmsr_privilege, fun hcpl h0 h1 he => rdmsr_undefined hcpl (ofNumber_eq_none h0 h1 he), ?_⟩⟩
  intro n number hmem hcpl hecx
  have hrun := rdmsr_eq hcpl (hecx.trans (number_of_mem hmem))
  have hexec := exec_executed hrun
  refine ⟨_, _, hrun, fun i hi => ?_, reg_edx_setEdxEax s.afterDraw _, reg_eax_setEdxEax s.afterDraw _, hexec.pc,
    hexec.reg, hexec.special, fun _ => rfl, fun _ => rfl, ⟨rfl, rfl⟩, ⟨rfl, rfl⟩, hexec.tlbs, rfl, rfl, rfl, rfl⟩
  rw [getLsbD_merge hi, BitVec.getLsbD_ofNat, decide_eq_true hi, Bool.true_and]

/-! ### WRMSR (R97) -/

theorem wrmsr_privilege {s : State} (hcpl : s.cpl ≠ 0) : exec .wrmsr s = .refused .privilegeNotModelled :=
  if_neg hcpl

theorem wrmsr_undefined {s : State} (hcpl : s.cpl = 0) (hn : MsrId.ofNumber (s.reg .ecx) = none) :
    exec .wrmsr s = .fault (.msrUndefinedNumber (s.reg .ecx)) := by
  simp only [exec, execWrmsr, if_pos hcpl, hn]

theorem wrmsr_machineCheck {s : State} (hcpl : s.cpl = 0) (hn : s.reg .ecx = 0x00 ∨ s.reg .ecx = 0x01) :
    exec .wrmsr s = .refused .wrmsrToMachineCheckRegister := by
  obtain h | h := hn <;> simp only [exec, execWrmsr, if_pos hcpl, h] <;> rfl

/-- At level 0, with the number of Test Register 12 in ECX, WRMSR is the write of that register and the move of the pc.
-/
theorem wrmsr_testRegister12 {s : State} (hcpl : s.cpl = 0) (hn : s.reg .ecx = MsrId.testRegister12.number) :
    exec .wrmsr s = andThen (writeTr12 s.edxEax s) fun t => .next t.advance := by
  simp only [exec, execWrmsr, if_pos hcpl, ofNumber_eq_some.2 hn]

theorem writeTr12_reserved {v : Qword} {s : State} (hr : v &&& s.platform.reservedTr12 ≠ 0) :
    writeTr12 v s = .fault (.msrReservedBitWritten (v &&& s.platform.reservedTr12)) :=
  if_neg hr

theorem writeTr12_changes {v : Qword} {s : State} (hr : v &&& s.platform.reservedTr12 = 0)
    (hd : v &&& ~~~s.platform.reservedTr12 ≠ s.tr12 &&& ~~~s.platform.reservedTr12) :
    writeTr12 v s = .refused .tr12EffectNotInSource :=
  (if_pos hr).trans (if_neg hd)

/-- The one admitted write leaves the state. -/
theorem writeTr12_keeps {v : Qword} {s : State} (hr : v &&& s.platform.reservedTr12 = 0)
    (hd : v &&& ~~~s.platform.reservedTr12 = s.tr12 &&& ~~~s.platform.reservedTr12) : writeTr12 v s = .next s := by
  refine ((if_pos hr).trans (if_pos hd)).trans ?_
  rw [merge_eq_of_and_not_eq hd]

/-- Settles O13: the admitted write gives Test Register 12 its own value back, so that only the pc moves. -/
theorem wrmsrRule : Obligations.WrmsrRule := by
  refine ⟨rfl, fun s => ⟨wrmsr_privilege, fun hcpl h0 h1 he => wrmsr_undefined hcpl (ofNumber_eq_none h0 h1 he),
    wrmsr_machineCheck, fun hcpl hn hr => ?_, fun hcpl hn hr hd => ?_, fun hcpl hn hr hd => ?_⟩⟩
  · rw [wrmsr_testRegister12 hcpl hn, State.edxEax, writeTr12_reserved hr, andThen_fault]
  · rw [wrmsr_testRegister12 hcpl hn, State.edxEax, writeTr12_changes hr hd, andThen_refused]
  · have hrun : exec .wrmsr s = .next s.advance := by
      rw [wrmsr_testRegister12 hcpl hn, State.edxEax, writeTr12_keeps hr hd, andThen_next]
    exact ⟨s.advance, hrun, (merge_eq_of_and_not_eq hd).symm, rfl, rfl, rfl, rfl, fun _ => rfl,
      (exec_executed hrun).special, fun _ => rfl, fun _ => rfl, ⟨rfl, rfl⟩, ⟨rfl, rfl⟩, rfl, rfl, rfl⟩

end Sys2Proof.Machine
end

section
/-!
PROOFS. INVD and WBINVD (41_cache_control.md): what the writebacks leave, then both caches emptied.
-/

namespace Sys2Proof.Machine

/-! ### What both instructions leave -/

/-- The frame of INVD and WBINVD: every line of both caches is I, the pc has moved past the instruction, and the rest
of the state but memory, history, draws and interior moves is as before. -/
structure CachesEmptied (s t : State) : Prop where
  invalid : AllInvalid t
  pc : t.pc = s.pc + 2
  outside : SameOutside s t

/-- The move of the pc over emptied caches, after what leaves the core. -/
theorem SameCore.cachesEmptied {s u : State} (h : SameCore s u) (hdc : u.dc.lines = []) (hcc : u.cc.lines = []) :
    CachesEmptied s u.advance :=
  ⟨allInvalid_of hdc hcc, congrArg (· + 2) h.pc, h.outside⟩

/-! ### INVD (R98) -/

theorem invd_eq {s : State} (h : s.cpl = 0) :
    exec .invd s = .next (s.invalidateCaches.specialCycle .flush).advance :=
  if_pos h

theorem invd_privilege {s : State} (h : s.cpl ≠ 0) : exec .invd s = .refused .privilegeNotModelled :=
  if_neg h

theorem invd_cachesEmptied {s t : State} (h : exec .invd s = .next t) : CachesEmptied s t := by
  have hcore : SameCore s (s.invalidateCaches.specialCycle .flush) := by constructor <;> rfl
  rw [invd_next h]
  exact hcore.cachesEmptied rfl rfl

/-- Settles O14: INVD empties both caches and touches memory nowhere. -/
theorem invdRule : Obligations.InvdRule := by
  refine ⟨rfl, fun s => ⟨invd_privilege, fun hcpl => ?_⟩⟩
  have he := invd_cachesEmptied (invd_eq hcpl)
  exact ⟨_, invd_eq hcpl, he.invalid, fun _ => rfl, rfl, he.pc, he.outside, rfl⟩

/-- With no line in the data cache a data read returns what memory holds. -/
theorem view_of_empty {s : State} (h : s.dc.lines = []) (a : Nat) : s.view a = Memory.read s.mem a :=
  view_miss (by simp [Cache.hit, h])

/-- INVD leaves no line that could differ from memory. -/
theorem invd_good {s t : State} (i : s.Inv) (hb : s.NoWriteBetween) (h : exec .invd s = .next t) : t.Good := by
  refine ⟨exec_inv h i, fun l hl => ?_, ?_⟩
  · rw [invd_next h] at hl
    exact absurd hl List.not_mem_nil
  · rw [invd_next h]; exact hb

theorem invd_view {s t : State} (h : exec .invd s = .next t) (a : Nat) : t.view a = Memory.read s.mem a := by
  rw [invd_next h]; exact view_of_empty rfl a

/-- Settles O15: a data read after INVD returns the one copy, and that is memory alone. -/
theorem invdLosesModifiedData : Obligations.InvdLosesModifiedData := by
  intro s t u w a v i hb ht hread
  obtain ⟨-, hv⟩ := quiet_memRead (invd_good i hb ht) hread
  have hbytes := hasBytes_viewRun t a.toNat w
  simp only [invd_view ht] at hbytes
  rwa [← hv] at hbytes

/-! ### WBINVD (R99) -/

theorem wbinvd_privilege {s : State} (h : s.cpl ≠ 0) : exec .wbinvd s = .refused .privilegeNotModelled :=
  if_neg h

/-- WBINVD completes where its writebacks do. -/
theorem wbinvd_of_writebackAll {s u : State} (hcpl : s.cpl = 0) (hu : writebackAll interleave s = .next u) :
    exec .wbinvd s = .next ((u.invalidateCaches.specialCycle .writeback).specialCycle .flush).advance := by
  rw [wbinvd_eq hcpl, hu, andThen_next]

/-- The writebacks leave the core, whatever other masters do between them. -/
theorem wbinvd_cachesEmptied {s t : State} (h : exec .wbinvd s = .next t) : CachesEmptied s t := by
  obtain ⟨u, hu, rfl⟩ := wbinvd_next h
  have hcore : SameCore u ((u.invalidateCaches.specialCycle .writeback).specialCycle .flush) := by constructor <;> rfl
  exact ((sameCore_closed.writebackAll s u hu).trans hcore).cachesEmptied rfl rfl

/-- Settles O16: with no other master in between, the writebacks bring the modified lines to memory and nothing else. -/
theorem wbinvdRule : Obligations.WbinvdRule := by
  refine ⟨rfl, fun s => ⟨wbinvd_privilege, fun hcpl i hb hp => ?_⟩⟩
  obtain ⟨u, f, hu, hw, ⟨writes, hwrites, hhist⟩, hin, hout⟩ := writebackAll_alone i.dc hb hp
  have hrun := wbinvd_of_writebackAll hcpl hu
  have he := wbinvd_cachesEmptied hrun
  refine ⟨_, writes, hrun, he.invalid, fun l hl hm o ho => ?_, fun a ha => ?_,
    congrArg (fun events => BusEvent.special .flush :: .special .writeback :: events) hhist,
    hwrites, he.pc, he.outside, hw.only.between⟩
  · exact (hw.mem _).trans (by rw [hin l hl hm o ho]; rfl)
  · exact (hw.mem _).trans (by rw [hout a ha]; rfl)

/-- Settles O17: the writebacks meet the hole, and WBINVD waits with them. -/
theorem wbinvdWaitsAtAHole : Obligations.WbinvdWaitsAtAHole := by
  intro s hcpl i hb hp
  rw [wbinvd_eq hcpl]
  exact (stuck_writebackAll i.dc hb hp).andThen _

/-- Settles O18: the writebacks change nothing that data reads return and leave all of it in memory. -/
theorem wbinvdLeavesMemoryCurrent : Obligations.WbinvdLeavesMemoryCurrent := by
  intro s t i hc hb h
  have he := wbinvd_cachesEmptied h
  obtain ⟨u, hu, rfl⟩ := wbinvd_next h
  obtain ⟨hquiet, hsettled⟩ := quiet_writebackAll ⟨i, hc, hb⟩ hu
  exact ⟨fun a ha => (hsettled a ha).trans (hquiet.view a ha), he.invalid, he.pc, he.outside⟩

/-- Settles O19: the frame and the two special cycles come after the writebacks, whatever happened inside them. -/
theorem wbinvdFrame : Obligations.WbinvdFrame := by
  intro s t h
  have he := wbinvd_cachesEmptied h
  obtain ⟨u, -, rfl⟩ := wbinvd_next h
  exact ⟨he.invalid, ⟨u.history, rfl⟩, he.pc, he.outside⟩

/-! ### No modified line (R98 (b), R99 (a)) -/

theorem modifiedLines_eq_nil {c : Cache DataState} (h : ∀ l ∈ c.lines, l.state ≠ .M) : modifiedLines c = [] := by
  refine List.eq_nil_iff_forall_not_mem.2 fun line hline => ?_
  obtain ⟨l, hl, hm, -⟩ := mem_modifiedLines.1 hline
  exact h l hl hm

/-- With no modified line the writebacks are the draw of their order alone. -/
theorem writebackAll_of_clean {point : State → Result State} {s : State} (h : ∀ l ∈ s.dc.lines, l.state ≠ .M) :
    writebackAll point s = .next s.afterDraw := by
  rw [writebackAll, modifiedLines_eq_nil h]
  rfl

/-- Settles O20: with no modified line both instructions empty the caches of the state they find. -/
theorem invdAndWbinvdAgreeWithNoModifiedLine : Obligations.InvdAndWbinvdAgreeWithNoModifiedLine := by
  intro s hcpl hclean
  exact ⟨_, _, invd_eq hcpl, wbinvd_of_writebackAll hcpl (writebackAll_of_clean hclean), rfl, rfl, rfl, rfl, rfl, rfl,
    rfl, sameSpecial_of _ _ rfl rfl rfl rfl rfl rfl, rfl, rfl, rfl, rfl, rfl, rfl⟩

end Sys2Proof.Machine
end

section
/-!
PROOFS. What other masters do to memory and at the points inside an instruction, and what the machine check records
(60_exceptions.md).
-/

namespace Sys2Proof.Machine

/-! ### Another master's reads and writes of memory (R105, R113) -/

theorem not_runPopulated_of_firstHole {s : State} {a n hole : Nat} (h : s.firstHole a n = some hole) :
    ¬s.runPopulated a n := fun hp => by
  rw [firstHole_eq_none.2 hp] at h
  cases h

/-- All a read of memory by another master can answer. -/
theorem masterRead_next {point : State → Result State} {first : Dword} {count : Nat} {s t : State}
    (h : masterMove point (.read first count) s = .next t) :
    (¬s.runPopulated first.toNat count ∧ t = s) ∨
    (s.runPopulated first.toNat count ∧ t = s.log (.masterRead first (Memory.readRun s.mem first.toNat count))) := by
  dsimp only [masterMove] at h
  split at h
  · split at h
    · next hf => cases h; exact .inl ⟨not_runPopulated_of_firstHole hf, rfl⟩
    · next hf => cases h; exact .inr ⟨firstHole_eq_none.1 hf, rfl⟩
  · cases h

/-- All a write of memory by another master can answer. -/
theorem masterWrite_next {point : State → Result State} {first : Dword} {bytes : List Byte} {s t : State}
    (h : masterMove point (.write first bytes) s = .next t) :
    (¬s.runPopulated first.toNat bytes.length ∧ t = s) ∨
    (s.runPopulated first.toNat bytes.length ∧
      t = { s.log (.masterWrite first bytes) with mem := Memory.writeRun s.mem first.toNat bytes }) := by
  dsimp only [masterMove] at h
  split at h
  · split at h
    · next hf => cases h; exact .inl ⟨not_runPopulated_of_firstHole hf, rfl⟩
    · next hf => cases h; exact .inr ⟨firstHole_eq_none.1 hf, rfl⟩
  · cases h

theorem masterWrite_onlyMemory {point : State → Result State} {first : Dword} {bytes : List Byte} {s t : State}
    (h : masterMove point (.write first bytes) s = .next t) : OnlyMemory s t := by
  rcases masterWrite_next h with ⟨-, rfl⟩ | ⟨-, rfl⟩
  · exact .refl _
  · exact ⟨by constructor <;> rfl, rfl, rfl, rfl⟩

/-- Settles O46: a read is at most an event; a write stores its run where there is memory for it, and else nothing. -/
theorem masterAccessesTouchMemoryOnly : Obligations.MasterAccessesTouchMemoryOnly := by
  intro s t point first count bytes
  refine ⟨fun h => ?_, fun h => ?_, fun move rest hm hs => step_move hm hs⟩
  · rcases masterRead_next h with ⟨-, rfl⟩ | ⟨-, rfl⟩
    · exact ⟨rfl, ⟨rfl, rfl⟩, rfl, (SameCore.refl _).outside⟩
    · exact ⟨rfl, ⟨rfl, rfl⟩, rfl, (onlyMemory_log s _).core.outside⟩
  · obtain ⟨hcore, hdc, hcc, -⟩ := masterWrite_onlyMemory h
    refine ⟨⟨hdc, hcc⟩, hcore.pc, hcore.outside, ?_⟩
    rcases masterWrite_next h with ⟨hhole, rfl⟩ | ⟨hpop, rfl⟩
    · exact ⟨fun hpop => absurd hpop hhole, fun _ _ => rfl, fun _ _ => rfl⟩
    · exact ⟨fun _ => Memory.read_writeRun_inside bytes s.mem first.toNat, fun hhole => absurd hpop hhole,
        fun _ => Memory.read_writeRun_outside bytes s.mem first.toNat⟩

/-! ### Points inside an instruction (R106, 20_memory.md R81) -/

/-- Settles O47: the fuel of a point is its number of lists, so that the points inside it are points too. -/
theorem pointsInsideAnInteriorWriteback : Obligations.PointsInsideAnInteriorWriteback :=
  fun _ => ⟨interleave_alone, fun _ _ => interleave_cons⟩

/-! ### The machine check (R101, R102, 10_state.md R25, R26) -/

/-- A code tells the kind of cycle it stands for, read back through the coding. -/
theorem cycleTypeCode_leftInverse :
    Function.LeftInverse (fun code => CycleKind.ofNat (Config.cycleTypeCoding.symm code).toNat) Config.cycleTypeCode := by
  intro k
  dsimp only [Config.cycleTypeCode]
  rw [Equiv.symm_apply_apply]
  cases k <;> rfl

/-- Settles O60: the address is the lower half of what MSR 00H takes, and a code is read back as its kind. -/
theorem machineCheckRecordsTheCycle : Obligations.MachineCheckRecordsTheCycle := by
  refine ⟨fun _ _ h => cycleTypeCode_leftInverse.injective h, fun s a kind => ?_⟩
  have haddress : (BitVec.ofNat 32 s.drawValue ++ a).extractLsb' 0 32 = a := by
    rw [← BitVec.setWidth_eq_extractLsb' (by decide), BitVec.setWidth_append_eq_right]
  exact ⟨haddress, rfl, rfl, sameRegs_of rfl, rfl, rfl, rfl, ⟨rfl, rfl⟩, rfl⟩

end Sys2Proof.Machine
end

section
/-!
PROOFS. Where a run ends, the top of memory, and the cache mode at RESET (70_reset_and_hazards.md).
-/

namespace Sys2Proof.Machine

/-! ### Where no instruction is fetched (R129, 30_encoding.md R130) -/

/-- At END_PC nothing is fetched. -/
theorem fetchInstr_at_end {s : State} (he : s.platform.endPc = some s.pc) : fetchInstr s = .refused .runOver := by
  rw [fetchInstr, if_pos he]

/-- Away from END_PC nothing is fetched where the pc after the instruction would lie past the last address. -/
theorem fetchInstr_at_top {s : State} (he : s.platform.endPc ≠ some s.pc) (hw : Config.memorySize ≤ s.pc.toNat + 2) :
    fetchInstr s = .refused .pcWrap := by
  rw [fetchInstr, if_neg he, if_pos hw]

/-- From the last two addresses the pc after the instruction lies past the last address. -/
theorem memorySize_le_of_last_two {pc : Dword} (h : pc = 0xFFFFFFFE ∨ pc = 0xFFFFFFFF) :
    Config.memorySize ≤ pc.toNat + 2 := by
  rcases h with rfl | rfl <;> decide

/-- In the processor's turn a step whose fetch is refused is refused the same way. -/
theorem step_refused_of_fetchInstr {s : State} {x : Refusal} (hm : s.cd = s.nw) (hp : (nextMove s).1 = .processor)
    (h : fetchInstr (nextMove s).2 = .refused x) : step s = .refused x := by
  rw [step_processor hm hp, runInstruction, h, andThen_refused]

/-- Settles O9: the two tests come before any fetch, and taking the move changes neither the pc nor END_PC. -/
theorem runEndsAndPcWraps : Obligations.RunEndsAndPcWraps := by
  intro s hm hp
  rw [← nextMove_pc s, ← nextMove_platform s]
  exact ⟨fun he => step_refused_of_fetchInstr hm hp (fetchInstr_at_end he),
    fun he hpc => step_refused_of_fetchInstr hm hp (fetchInstr_at_top he (memorySize_le_of_last_two hpc))⟩

/-! ### The cache mode at RESET (R116) -/

/-- Settles O50: bits 30 and 29 of CR0 are set at reset. -/
theorem resetDisablesTheCaches : Obligations.ResetDisablesTheCaches := ⟨rfl, rfl⟩

end Sys2Proof.Machine
end
